-- ==== Sys2Proof/Word.lean ====
section
/-!
DEFINITION. The plain value types of the windigo DSP core: bytes, binary64 patterns, complex
values, and the shape of a memory. What is computed with them stands in Machine/.
-/

namespace Sys2Proof

/-- A byte of the byte memory BM (10_state.md R26). -/
abbrev Byte := BitVec 8

/-- A binary64 value as its 64-bit pattern, sign bit first (40_numerics.md R110, 20_memory.md
R64). NaN patterns are kept: host accesses and pure copies move all 64 bits (R111). -/
abbrev F64 := BitVec 64

/-- A complex value: a pair of binary64 values (40_numerics.md R122). -/
structure Cplx where
  /-- real part -/
  re : F64
  /-- imaginary part -/
  im : F64
deriving DecidableEq, Repr

/-- A memory of `w`-bit entries: (index, entry) pairs. `Memory.wf` (Machine/Ops.lean) is its one
canonical form: indices strictly rising, no entry 0, which is what an unlisted index reads as
(log entry 2). `Memory 8` is a list of `Host.Cell`. -/
abbrev Memory (w : Nat) := List (Nat × BitVec w)

/-- A frame bank: `NMAX` complex entries, held as a memory of real parts and a memory of
imaginary parts (10_state.md R22). -/
structure Bank where
  /-- the real parts, by bin or sample index -/
  re : Memory 64
  /-- the imaginary parts, by bin or sample index -/
  im : Memory 64
deriving DecidableEq, Repr

end Sys2Proof
end

