-- ==== Sys2Proof/Syntax.lean ====
section
/-!
DEFINITION. The command set WDC, revision 1: one constructor per row of spec/opcode_table.json
(30_encoding.md R94). Operands that live in registers are fixed per command and are not part of the
word (R93).
-/

namespace Sys2Proof

/-- A command of the core. -/
inductive Instr where
  /-- 0x00, format Z (44_system.md R210) -/
  | nop
  /-- 0x10, format Z (41_transform.md R141) -/
  | cmul
  /-- 0x11, format Z (41_transform.md R142) -/
  | bfly
  /-- 0x12, format Z (41_transform.md R143) -/
  | bitrev
  /-- 0x13, format S (41_transform.md R144): stage index `s`, direction `inv` (true: inverse) -/
  | stage (s : Nat) (inv : Bool)
  /-- 0x14, format Z (41_transform.md R145) -/
  | xscale
  /-- 0x15, format Z (41_transform.md R146) -/
  | fft
  /-- 0x16, format Z (41_transform.md R147) -/
  | ifft
  /-- 0x17, format I (41_transform.md R148): the length `n` -/
  | npow2 (n : Nat)
  /-- 0x20, format Z (42_vocoder.md R160) -/
  | pvcfg
  /-- 0x21, format Z (42_vocoder.md R163) -/
  | phrst
  /-- 0x22, format I (42_vocoder.md R164): the frame index `i` -/
  | framew (i : Nat)
  /-- 0x23, format Z (42_vocoder.md R165) -/
  | phase
  /-- 0x24, format I (42_vocoder.md R166): the frame index `i` -/
  | ola (i : Nat)
  /-- 0x25, format Z (42_vocoder.md R167) -/
  | resamp
  /-- 0x30, format Z (43_codec.md R183) -/
  | wavhdr
  /-- 0x31, format Z (43_codec.md R186) -/
  | pcmdec
  /-- 0x32, format Z (43_codec.md R190) -/
  | wavhdrw
  /-- 0x33, format Z (43_codec.md R192) -/
  | pcmenc
deriving DecidableEq, Repr

end Sys2Proof
end

