-- ==== Sys2Proof/WellFormed.lean ====
section
/-!
DEFINITION. Which commands a 32-bit word can express: the widths of the operand fields
(30_encoding.md R91, R92).
-/

namespace Sys2Proof

/-- The operand of a command fits its field: `s` five bits (30_encoding.md R92), `imm24` twenty-four
bits (R91). A command without an operand is always well formed. -/
def Instr.wellFormed : Instr → Bool
  | .nop => true
  | .cmul => true
  | .bfly => true
  | .bitrev => true
  | .stage s _ => decide (s < 2 ^ 5)
  | .xscale => true
  | .fft => true
  | .ifft => true
  | .npow2 n => decide (n < 2 ^ 24)
  | .pvcfg => true
  | .phrst => true
  | .framew i => decide (i < 2 ^ 24)
  | .phase => true
  | .ola i => decide (i < 2 ^ 24)
  | .resamp => true
  | .wavhdr => true
  | .pcmdec => true
  | .wavhdrw => true
  | .pcmenc => true

end Sys2Proof
end

