-- ==== Sys2Proof/Decode.lean ====
section
/-!
DEFINITION. Command words: the decoder of 30_encoding.md R99, total on all 2^32 words, and the
encoder, both written from the formats of R90 and the opcode map of R94.
-/

namespace Sys2Proof

/-- Why a word is illegal (30_encoding.md R95). Both raise E_ILLEGAL when the ENGINE executes the
word (60_exceptions.md R241). -/
inductive IllegalWord where
  /-- the opcode `w[31:24]` is in no row of the opcode map (93_implementation_defined.md V1) -/
  | unassignedOpcode
  /-- an assigned opcode of format Z or S with a non-zero must-be-zero bit (V2) -/
  | nonZeroReserved
deriving DecidableEq, Repr

/-- The result of decoding a word (30_encoding.md R99): a command, or illegal. -/
inductive Decoded where
  /-- the word is the command `i` -/
  | command (i : Instr)
  /-- the word selects no row of the opcode map -/
  | illegal (why : IllegalWord)
deriving DecidableEq, Repr

/-- Format Z: all 24 operand bits must be 0 (30_encoding.md R90). -/
def decodeZ (arg : Nat) (i : Instr) : Decoded :=
  if arg = 0 then .command i else .illegal .nonZeroReserved

/-- Format S: `s = arg[4:0]`, `inv = arg[8]`, bits 23:9 and 7:5 must be 0 (30_encoding.md R90, R92). -/
def decodeS (arg : Nat) : Decoded :=
  if arg / 2 ^ 9 = 0 ∧ arg / 2 ^ 5 % 2 ^ 3 = 0 then
    .command (.stage (arg % 2 ^ 5) (decide (arg / 2 ^ 8 % 2 = 1)))
  else .illegal .nonZeroReserved

/-- Decode the opcode `op` with the operand field `arg` (30_encoding.md R94). -/
def decodeFields (op arg : Nat) : Decoded :=
  match op with
  | 0x00 => decodeZ arg .nop
  | 0x10 => decodeZ arg .cmul
  | 0x11 => decodeZ arg .bfly
  | 0x12 => decodeZ arg .bitrev
  | 0x13 => decodeS arg
  | 0x14 => decodeZ arg .xscale
  | 0x15 => decodeZ arg .fft
  | 0x16 => decodeZ arg .ifft
  | 0x17 => .command (.npow2 arg)
  | 0x20 => decodeZ arg .pvcfg
  | 0x21 => decodeZ arg .phrst
  | 0x22 => .command (.framew arg)
  | 0x23 => decodeZ arg .phase
  | 0x24 => .command (.ola arg)
  | 0x25 => decodeZ arg .resamp
  | 0x30 => decodeZ arg .wavhdr
  | 0x31 => decodeZ arg .pcmdec
  | 0x32 => decodeZ arg .wavhdrw
  | 0x33 => decodeZ arg .pcmenc
  | _ => .illegal .unassignedOpcode

/-- Decode a command word (30_encoding.md R94, R99): `op = w[31:24]`, `arg = w[23:0]`. -/
def decode (w : BitVec 32) : Decoded := decodeFields (w.toNat / 2 ^ 24) (w.toNat % 2 ^ 24)

/-- The opcode of a command, `w[31:24]` (30_encoding.md R94). -/
def Instr.opcode : Instr → Nat
  | .nop => 0x00
  | .cmul => 0x10
  | .bfly => 0x11
  | .bitrev => 0x12
  | .stage _ _ => 0x13
  | .xscale => 0x14
  | .fft => 0x15
  | .ifft => 0x16
  | .npow2 _ => 0x17
  | .pvcfg => 0x20
  | .phrst => 0x21
  | .framew _ => 0x22
  | .phase => 0x23
  | .ola _ => 0x24
  | .resamp => 0x25
  | .wavhdr => 0x30
  | .pcmdec => 0x31
  | .wavhdrw => 0x32
  | .pcmenc => 0x33

/-- The operand field of a command, `w[23:0]` (30_encoding.md R90 to R92). -/
def Instr.operandField : Instr → Nat
  | .nop => 0
  | .cmul => 0
  | .bfly => 0
  | .bitrev => 0
  | .stage s inv => (if inv then 2 ^ 8 else 0) + s
  | .xscale => 0
  | .fft => 0
  | .ifft => 0
  | .npow2 n => n
  | .pvcfg => 0
  | .phrst => 0
  | .framew i => i
  | .phase => 0
  | .ola i => i
  | .resamp => 0
  | .wavhdr => 0
  | .pcmdec => 0
  | .wavhdrw => 0
  | .pcmenc => 0

/-- The word of a well-formed command (30_encoding.md R90): opcode in bits 31:24, operand field in
bits 23:0. -/
def encode (i : Instr) : BitVec 32 :=
  BitVec.ofNat 32 (i.opcode * 2 ^ 24 + i.operandField)

/-- The mnemonic of a command, as spec/opcode_table.json spells it (30_encoding.md R94). -/
def Instr.mnemonic : Instr → String
  | .nop => "NOP"
  | .cmul => "CMUL"
  | .bfly => "BFLY"
  | .bitrev => "BITREV"
  | .stage _ _ => "STAGE"
  | .xscale => "XSCALE"
  | .fft => "FFT"
  | .ifft => "IFFT"
  | .npow2 _ => "NPOW2"
  | .pvcfg => "PVCFG"
  | .phrst => "PHRST"
  | .framew _ => "FRAMEW"
  | .phase => "PHASE"
  | .ola _ => "OLA"
  | .resamp => "RESAMP"
  | .wavhdr => "WAVHDR"
  | .pcmdec => "PCMDEC"
  | .wavhdrw => "WAVHDRW"
  | .pcmenc => "PCMENC"

/-- One row of the opcode map: a word `w` selects the row when `w & mask = pattern`
(30_encoding.md R94). -/
structure OpcodeRow where
  /-- the mnemonic, as spec/opcode_table.json spells it -/
  mnemonic : String
  /-- the column "match" -/
  pattern : BitVec 32
  /-- the column "mask" -/
  mask : BitVec 32
deriving DecidableEq, Repr

/-- The word selects the row. -/
abbrev OpcodeRow.Selects (r : OpcodeRow) (w : BitVec 32) : Prop := w &&& r.mask = r.pattern

/-- The opcode map of 30_encoding.md R94, its columns "match" and "mask" copied. The decoder is
written from the formats and not from this table, so that each checks the other. -/
def opcodeMap : List OpcodeRow :=
  [⟨"NOP", 0x00000000, 0xFFFFFFFF⟩,
   ⟨"CMUL", 0x10000000, 0xFFFFFFFF⟩,
   ⟨"BFLY", 0x11000000, 0xFFFFFFFF⟩,
   ⟨"BITREV", 0x12000000, 0xFFFFFFFF⟩,
   ⟨"STAGE", 0x13000000, 0xFFFFFEE0⟩,
   ⟨"XSCALE", 0x14000000, 0xFFFFFFFF⟩,
   ⟨"FFT", 0x15000000, 0xFFFFFFFF⟩,
   ⟨"IFFT", 0x16000000, 0xFFFFFFFF⟩,
   ⟨"NPOW2", 0x17000000, 0xFF000000⟩,
   ⟨"PVCFG", 0x20000000, 0xFFFFFFFF⟩,
   ⟨"PHRST", 0x21000000, 0xFFFFFFFF⟩,
   ⟨"FRAMEW", 0x22000000, 0xFF000000⟩,
   ⟨"PHASE", 0x23000000, 0xFFFFFFFF⟩,
   ⟨"OLA", 0x24000000, 0xFF000000⟩,
   ⟨"RESAMP", 0x25000000, 0xFFFFFFFF⟩,
   ⟨"WAVHDR", 0x30000000, 0xFFFFFFFF⟩,
   ⟨"PCMDEC", 0x31000000, 0xFFFFFFFF⟩,
   ⟨"WAVHDRW", 0x32000000, 0xFFFFFFFF⟩,
   ⟨"PCMENC", 0x33000000, 0xFFFFFFFF⟩]

/-- What the decoder reads from an instruction whose bits are `w`, numbered as the opcode table
numbers them; a command is one 32-bit word (30_encoding.md R90), and bits above `nbits` are 0. -/
def decodeTableWord (nbits w : Nat) : Option Instr :=
  match decode (BitVec.ofNat 32 (w % 2 ^ nbits)) with
  | .command i => some i
  | .illegal _ => none

end Sys2Proof
end

