-- ==== Sys2Proof/Config.lean ====
section
/-!
DEFINITION. What an implementation of the core fixes: its three sizes (00_scope.md R5) and the
free values, the contents of the twiddle ROM and the four elementary functions beyond what their
named properties give (40_numerics.md R127 to R133).
-/

namespace Sys2Proof

/-- The size parameters of an implementation (00_scope.md R5). They are carried in the state as
constants that no step changes, so that a statement about every state is a statement about every
implementation (log entry 1). -/
structure Sizes where
  /-- LOG2N_MAX: log2 of the largest transform length -/
  log2nMax : Nat
  /-- RM_WORDS: binary64 words in the real sample memory RM -/
  rmWords : Nat
  /-- BM_BYTES: bytes in the byte memory BM -/
  bmBytes : Nat
deriving DecidableEq, Repr

/-- The constraints of 00_scope.md R5 on the three sizes. -/
abbrev Sizes.Legal (z : Sizes) : Prop :=
  2 ≤ z.log2nMax ∧ z.log2nMax ≤ 24 ∧ 1 ≤ z.rmWords ∧ z.rmWords ≤ 2 ^ 25 ∧
    8 ≤ z.bmBytes ∧ z.bmBytes ≤ 2 ^ 28 ∧ z.bmBytes % 8 = 0

/-- The sizes of the spec's worked examples: LOG2N_MAX = 12, RM_WORDS = 2^20, BM_BYTES = 2^22
(00_scope.md R5). DESIGN CHOICE (log entry 1): the sizes of `State.reset`. -/
def Config.exampleSizes : Sizes := ⟨12, 2 ^ 20, 2 ^ 22⟩

/-- FREE VALUE (log entry 3): `cfg.cos` at the positive magnitudes where no exact named property
of 40_numerics.md R128 gives the result. -/
opaque Config.cosFree : F64 → F64

/-- FREE VALUE (log entry 3): `cfg.sin` at the positive magnitudes where no exact named property
of 40_numerics.md R129 gives the result. -/
opaque Config.sinFree : F64 → F64

/-- FREE VALUE (log entry 3): `cfg.arg` at finite arguments off both axes (40_numerics.md R130);
real part first. -/
opaque Config.argFree : F64 → F64 → F64

/-- FREE VALUE (log entry 3): `cfg.mag` at finite arguments off both axes (40_numerics.md R131);
the larger magnitude first. -/
opaque Config.magFree : F64 → F64 → F64

/-- FREE VALUE (log entry 4): the real part of entry `e` of the twiddle ROM of a core with the given
LOG2N_MAX, off the two entries that TW-AXIS fixes (40_numerics.md R127); LOG2N_MAX first. -/
opaque Config.twReFree : Nat → Nat → F64

/-- FREE VALUE (log entry 4): the imaginary part of the same entry (40_numerics.md R127). -/
opaque Config.twImFree : Nat → Nat → F64

end Sys2Proof
end

