-- ==== Sys2Proof/Machine/Numerics.lean ====
section
/-!
DEFINITION. The numeric primitives of 40_numerics.md: binary64 arithmetic under round to nearest,
ties to even, written out on integers.

Every finite binary64 value is an integer number of units of 2^-1074, so an exact sum, product or
quotient is a ratio of integers, and `roundMag` is the one place where anything is rounded.

The arithmetic functions are `irreducible` so that no comparison of states unfolds a rounding by
accident; the kernel evaluates them as ever.
-/

namespace Sys2Proof.Machine

/-- 1.0 in units of 2^-1074. -/
def oneUnits : Nat := 2 ^ 1074

/-- The magnitude bits 62:0 of +∞; larger magnitude bits are NaNs (40_numerics.md R110). -/
def infMag : Nat := 0x7FF0000000000000

/-- The canonical NaN (40_numerics.md R111). -/
def canonNaN : F64 := 0x7FF8000000000000#64

/-- `PI` (40_numerics.md R119). -/
def fPi : F64 := 0x400921FB54442D18#64

/-- `TWO_PI` (40_numerics.md R119). -/
def fTwoPi : F64 := 0x401921FB54442D18#64

/-- +0.0 -/
def fZero : F64 := 0#64

/-- `0.5` (40_numerics.md R119). -/
def fHalf : F64 := 0x3FE0000000000000#64

/-- `1.0` (40_numerics.md R119). -/
def fOne : F64 := 0x3FF0000000000000#64

/-- −1.0 -/
def fNegOne : F64 := 0xBFF0000000000000#64

/-- `2.0` (40_numerics.md R119). -/
def fTwo : F64 := 0x4000000000000000#64

/-- 3.0, used by ARG-AXIS (40_numerics.md R130). -/
def fThree : F64 := 0x4008000000000000#64

/-- 4.0, used by ARG-AXIS (40_numerics.md R130). -/
def fFour : F64 := 0x4010000000000000#64

/-- `255.0` (40_numerics.md R119). -/
def f255 : F64 := 0x406FE00000000000#64

/-- `32768.0` (40_numerics.md R119). -/
def f32768 : F64 := 0x40E0000000000000#64

/-- `2^31` (40_numerics.md R119). -/
def fTwo31 : F64 := 0x41E0000000000000#64

/-! ## Taking a pattern apart and putting it together -/

/-- The sign bit. -/
def fsign (a : F64) : Bool := decide (2 ^ 63 ≤ a.toNat)

/-- The magnitude bits 62:0. -/
def fmag (a : F64) : Nat := a.toNat % 2 ^ 63

/-- A NaN: exponent bits all ones, fraction not zero. -/
def isNaN (a : F64) : Bool := decide (infMag < fmag a)

/-- +∞ or −∞. -/
def isInf (a : F64) : Bool := decide (fmag a = infMag)

/-- Neither infinite nor NaN. -/
def isFinite (a : F64) : Bool := decide (fmag a < infMag)

/-- +0.0 or −0.0. -/
def isZero (a : F64) : Bool := decide (fmag a = 0)

/-- The pattern with the given sign and magnitude bits. -/
def pack (neg : Bool) (mag : Nat) : F64 := BitVec.ofNat 64 ((if neg then 2 ^ 63 else 0) + mag)

/-- The value of magnitude bits with `fb` fraction bits, in units of the format's smallest
subnormal: exponent field 0 gives the fraction, exponent field `e` the fraction with its hidden bit,
times `2^(e-1)`. -/
def magUnits (fb mag : Nat) : Nat :=
  if mag / 2 ^ fb = 0 then mag else (2 ^ fb + mag % 2 ^ fb) * 2 ^ (mag / 2 ^ fb - 1)

/-- The magnitude of a finite value in units of 2^-1074. -/
def funits (a : F64) : Nat := magUnits 52 (fmag a)

/-- A finite value as a signed integer number of units of 2^-1074. -/
def fval (a : F64) : Int := if fsign a then -(funits a : Int) else (funits a : Int)

/-! ## Rounding -/

/-- The integer nearest to `num / den`, ties to the even one. -/
def rneDiv (num den : Nat) : Nat :=
  let q := num / den
  let r := num % den
  if den < 2 * r ∨ (2 * r = den ∧ q % 2 = 1) then q + 1 else q

/-- The magnitude bits of `num / den` units rounded to a format with `fb` fraction bits, to nearest,
ties to even; `inf` is the format's infinity, which every larger result becomes (40_numerics.md
R110, R111). `sh` is the place of the last kept bit; a carry out of the fraction moves into the
exponent by itself. -/
def roundMag (fb inf num den : Nat) : Nat :=
  let sh := (num / den).log2 - fb
  min (sh * 2 ^ fb + rneDiv num (den * 2 ^ sh)) inf

/-- The binary64 value of `num / den` units of 2^-1074 with the given sign, rounded once. -/
@[irreducible] def round64 (neg : Bool) (num den : Nat) : F64 := pack neg (roundMag 52 infMag num den)

/-! ## Operations of R112 to R116 -/

/-- `fneg` (40_numerics.md R113). -/
def fneg (a : F64) : F64 := if isNaN a then canonNaN else pack (!fsign a) (fmag a)

/-- `fabs` (40_numerics.md R113); of a NaN the canonical NaN (R111). -/
def fabs (a : F64) : F64 := if isNaN a then canonNaN else pack false (fmag a)

/-- `fadd` (40_numerics.md R112): the exact sum rounded once; ∞ − ∞ is NaN; an exact zero sum is +0.0
unless both operands are negative. -/
@[irreducible] def fadd (a b : F64) : F64 :=
  if isNaN a || isNaN b then canonNaN
  else if isInf a then (if isInf b && (fsign a != fsign b) then canonNaN else pack (fsign a) infMag)
  else if isInf b then pack (fsign b) infMag
  else
    let v := fval a + fval b
    if v = 0 then pack (fsign a && fsign b) 0 else round64 (decide (v < 0)) v.natAbs 1

/-- `fsub` (40_numerics.md R112): `fadd(a, fneg(b))`, which is NaN when either is. -/
def fsub (a b : F64) : F64 := fadd a (fneg b)

/-- `fmul` (40_numerics.md R112); 0 × ∞ is NaN. -/
@[irreducible] def fmul (a b : F64) : F64 :=
  let neg := fsign a != fsign b
  if isNaN a || isNaN b then canonNaN
  else if isInf a || isInf b then (if isZero a || isZero b then canonNaN else pack neg infMag)
  else round64 neg (funits a * funits b) oneUnits

/-- `fdiv` (40_numerics.md R112); 0/0 and ∞/∞ are NaN, a finite non-zero value over zero is an
infinity. -/
@[irreducible] def fdiv (a b : F64) : F64 :=
  let neg := fsign a != fsign b
  if isNaN a || isNaN b then canonNaN
  else if isInf a then (if isInf b then canonNaN else pack neg infMag)
  else if isInf b then pack neg 0
  else if isZero b then (if isZero a then canonNaN else pack neg infMag)
  else round64 neg (funits a * oneUnits) (funits b)

/-- Integer square root, bit by bit: the largest `x` that agrees with `r` above bit `k` and has
`x * x ≤ n`. -/
def isqrtBits (n : Nat) : Nat → Nat → Nat
  | 0, r => r
  | k + 1, r => if (r + 2 ^ k) * (r + 2 ^ k) ≤ n then isqrtBits n k (r + 2 ^ k) else isqrtBits n k r

/-- The largest integer whose square is at most `n`. -/
def isqrt (n : Nat) : Nat := isqrtBits n (n.log2 / 2 + 1) 0

/-- `fsqrt` (40_numerics.md R112): sqrt(±0) is ±0, of a negative value NaN. For `u` units the root is
`sqrt(u · 2^1074)` units. An even power of two `4^h` that leaves at least 126 bits is taken out
first (it divides exactly); the root of the rest is found to an integer `q` of at least 63 bits, and
`2q + 1` halves stand for a root strictly between `q` and `q + 1`, which rounds the same way since
the last kept bit lies far above. -/
@[irreducible] def fsqrt (a : F64) : F64 :=
  if isNaN a then canonNaN
  else if isZero a then a
  else if fsign a then canonNaN
  else if isInf a then a
  else
    let n := funits a * oneUnits
    let h := (n.log2 - 126) / 2
    let m := n / 4 ^ h
    let q := isqrt m
    let halves := if q * q = m then 2 * q else 2 * q + 1
    round64 false (halves * 2 ^ h) 2

/-- `fmod` (40_numerics.md R114): the exact remainder with the sign of `a`. -/
@[irreducible] def fmod (a b : F64) : F64 :=
  if isNaN a || isNaN b || isInf a || isZero b then canonNaN
  else if isInf b then a
  else round64 (fsign a) (funits a % funits b) 1

/-- An integral value of `n` with the given sign; a zero keeps the sign. -/
@[irreducible] def packInt (neg : Bool) (n : Nat) : F64 := round64 neg (n * oneUnits) 1

/-- `ffloor` (40_numerics.md R115). -/
def ffloor (a : F64) : F64 :=
  if isNaN a then canonNaN
  else if isInf a then a
  else
    let q := funits a / oneUnits
    packInt (fsign a) (if fsign a ∧ funits a % oneUnits ≠ 0 then q + 1 else q)

/-- `fceil` (40_numerics.md R115). -/
def fceil (a : F64) : F64 :=
  if isNaN a then canonNaN
  else if isInf a then a
  else
    let q := funits a / oneUnits
    packInt (fsign a) (if ¬ fsign a ∧ funits a % oneUnits ≠ 0 then q + 1 else q)

/-- `frint` (40_numerics.md R115): ties to the even integer. -/
def frint (a : F64) : F64 :=
  if isNaN a then canonNaN
  else if isInf a then a
  else packInt (fsign a) (rneDiv (funits a) oneUnits)

/-- `f64(n)` (40_numerics.md R116). -/
def f64 (n : Int) : F64 := packInt (decide (n < 0)) n.natAbs

/-- `integer(v)` for a finite non-negative integral value (42_vocoder.md R167). -/
def fnat (a : F64) : Nat := funits a / oneUnits

/-- The integer value of a finite integral value. -/
def fint (a : F64) : Int := if fsign a then -(fnat a : Int) else (fnat a : Int)

/-- `toint(v, lo, hi)` (40_numerics.md R117): NaN as +0.0, round to nearest even, saturate. -/
def toint (v : F64) (lo hi : Int) : Int :=
  let u := if isNaN v then fZero else v
  if isInf u then (if fsign u then lo else hi)
  else
    let r := fint (frint u)
    if r < lo then lo else if hi < r then hi else r

/-! ## binary32 (R118) -/

/-- The magnitude bits of binary32 infinity. -/
def infMag32 : Nat := 0x7F800000

/-- `f32to64(u)` (40_numerics.md R118): a unit of 2^-149 is 2^925 units of 2^-1074, and every binary32
value is exactly a binary64 value. -/
def f32to64 (u : BitVec 32) : F64 :=
  let neg := decide (2 ^ 31 ≤ u.toNat)
  let mag := u.toNat % 2 ^ 31
  if infMag32 < mag then canonNaN
  else if mag = infMag32 then pack neg infMag
  else round64 neg (magUnits 23 mag * 2 ^ 925) 1

/-- `f64to32(v)` (40_numerics.md R118): rounded once to binary32; NaN gives 0x7FC00000. -/
def f64to32 (v : F64) : BitVec 32 :=
  if isNaN v then 0x7FC00000#32
  else
    let mag := if isInf v then infMag32 else roundMag 23 infMag32 (funits v) (2 ^ 925)
    BitVec.ofNat 32 ((if fsign v then 2 ^ 31 else 0) + mag)

/-! ## Comparisons (R120) -/

/-- An order key for values that are not NaN: the magnitude bits with the sign, −0.0 equal to +0.0. -/
def fkey (a : F64) : Int := if fsign a then -(fmag a : Int) else (fmag a : Int)

/-- `a < b` (40_numerics.md R120). -/
def flt (a b : F64) : Bool := !isNaN a && !isNaN b && decide (fkey a < fkey b)

/-- `a ≤ b` (40_numerics.md R120). -/
def fle (a b : F64) : Bool := !isNaN a && !isNaN b && decide (fkey a ≤ fkey b)

/-- `a == b` (40_numerics.md R120). -/
def feq (a b : F64) : Bool := !isNaN a && !isNaN b && decide (fkey a = fkey b)

/-! ## Complex arithmetic (R122, R124) -/

/-- `cadd` (40_numerics.md R122). -/
def cadd (a b : Cplx) : Cplx := ⟨fadd a.re b.re, fadd a.im b.im⟩

/-- `csub` (40_numerics.md R122). -/
def csub (a b : Cplx) : Cplx := ⟨fsub a.re b.re, fsub a.im b.im⟩

/-- `conj` (40_numerics.md R122). -/
def conj (a : Cplx) : Cplx := ⟨a.re, fneg a.im⟩

/-- `rscale` (40_numerics.md R122): a real times a complex value. -/
def rscale (m : F64) (a : Cplx) : Cplx := ⟨fmul m a.re, fmul m a.im⟩

/-- `cmul`, the complex_multiply unit (40_numerics.md R124): four products, one difference, one sum,
each rounded. -/
def cmul (a b : Cplx) : Cplx :=
  ⟨fsub (fmul a.re b.re) (fmul a.im b.im), fadd (fmul a.re b.im) (fmul a.im b.re)⟩

/-- `BF(A, B, W)`, the fft_butterfly_radix2 unit (41_transform.md R140). -/
def butterfly (a b w : Cplx) : Cplx × Cplx :=
  let p := cmul w b
  (cadd a p, csub a p)

/-- `WRAP(d)` (40_numerics.md R126). -/
def wrap (d : F64) : F64 :=
  let d1 :=
    if flt d fZero then fadd d (fmul (fceil (fdiv (fneg d) fTwoPi)) fTwoPi) else d
  fsub (fmod (fadd d1 fPi) fTwoPi) fPi

end Sys2Proof.Machine
end

