-- ==== Sys2Proof/Machine/Elementary.lean ====
section
/-!
DEFINITION. The configuration functions of 40_numerics.md section 5: the twiddle ROM and
`cfg.cos`, `cfg.sin`, `cfg.arg`, `cfg.mag`.

Each function gives the value of every exact named property outright and takes a free value of
Config everywhere else (log entries 3 and 4). A free value that would break a named range is
replaced by a value inside it, so that the functions written here, over all choices of the free
values, are the functions with those properties, no more and no fewer. The accuracy properties
(COS-ACC, SIN-ACC, ARG-ACC, MAG-ACC, TW-ACC) are statements in Safety.lean (log entry 5).
-/

namespace Sys2Proof.Machine

/-- `v` where `lo ≤ v ≤ hi`, else +0.0: every value in the range, and none outside it. -/
def within (lo hi v : F64) : F64 := if fle lo v && fle v hi then v else fZero

/-- The value `v` with the sign `neg` added: `v` or `fneg(v)`. -/
def withSign (neg : Bool) (v : F64) : F64 := if neg then fneg v else v

/-- `cfg.cos` (40_numerics.md R128): COS-NF, COS-ZERO, COS-PI (with COS-EVEN also at −PI), COS-RANGE,
COS-EVEN. -/
def cfgCos (x : F64) : F64 :=
  if !isFinite x then canonNaN
  else if isZero x then fOne
  else if fmag x = fmag fPi then fNegOne
  else within fNegOne fOne (Config.cosFree (fabs x))

/-- `cfg.sin` (40_numerics.md R129): SIN-NF, SIN-ZERO, SIN-RANGE, SIN-ODD. -/
def cfgSin (x : F64) : F64 :=
  if !isFinite x then canonNaN
  else if isZero x then x
  else withSign (fsign x) (within fNegOne fOne (Config.sinFree (fabs x)))

/-- `cfg.arg(re, im)` (40_numerics.md R130): ARG-NAN, every case of ARG-AXIS, ARG-RANGE. -/
def cfgArg (re im : F64) : F64 :=
  if isNaN re || isNaN im then canonNaN
  else if isInf im then
    if isInf re then
      withSign (fsign im) (if fsign re then fmul fThree (fdiv fPi fFour) else fdiv fPi fFour)
    else withSign (fsign im) (fdiv fPi fTwo)
  else if isInf re || isZero im then withSign (fsign im) (if fsign re then fPi else fZero)
  else if isZero re then withSign (fsign im) (fdiv fPi fTwo)
  else within (fneg fPi) fPi (Config.argFree re im)

/-- The magnitude of `v`, and of a NaN +0.0: every value that is not negative, and no NaN. -/
def modulusValue (v : F64) : F64 := if isNaN v then fZero else fabs v

/-- `cfg.mag(re, im)` (40_numerics.md R131): MAG-INF, MAG-NAN, MAG-AXIS, MAG-SYM (the free value is
taken at the two magnitudes, larger first), MAG-SIGN; of finite arguments never NaN (MAG-ACC). -/
def cfgMag (re im : F64) : F64 :=
  if isInf re || isInf im then pack false infMag
  else if isNaN re || isNaN im then canonNaN
  else if isZero im then fabs re
  else if isZero re then fabs im
  else if fmag im ≤ fmag re then modulusValue (Config.magFree (fabs re) (fabs im))
  else modulusValue (Config.magFree (fabs im) (fabs re))

/-- `v` where it is finite, else +0.0: the entries of the twiddle ROM are finite (TW-ACC). -/
def finiteOrZero (v : F64) : F64 := if isFinite v then v else fZero

/-- `TW[e]` of a core with LOG2N_MAX = `lmax` (40_numerics.md R127): TW-AXIS at entries 0 and NMAX/4,
free finite values elsewhere. -/
def twiddle (lmax e : Nat) : Cplx :=
  if e = 0 then ⟨fOne, fZero⟩
  else if e = 2 ^ (lmax - 2) then ⟨fZero, fNegOne⟩
  else ⟨finiteOrZero (Config.twReFree lmax e), finiteOrZero (Config.twImFree lmax e)⟩

/-- `TWN(L, e) = TW[e << (LOG2N_MAX − L)]`, the twiddle factor with exponent `e` of a transform of
length `2^L` (40_numerics.md R127). -/
def twiddleN (lmax l e : Nat) : Cplx := twiddle lmax (e <<< (lmax - l))

/-- One weight of the window, `win(i, F)` (42_vocoder.md R161). -/
def windowWeight (i f : Nat) : F64 :=
  fadd fHalf (fmul fHalf (cfgCos
    (fdiv (fmul fPi (f64 (2 * (i : Int) + 1 - (f : Int)))) (f64 ((f : Int) - 1)))))

end Sys2Proof.Machine
end

