-- ==== Sys2Proof/Machine/State.lean ====
section
/-!
DEFINITION. The state of the core as plain data: the register file, the pending slot, the status
bits, the seven memories (10_state.md), and the model's own fields for the two agents' schedule and
the host's script. INVENTORY.md lists every field with the rule that names it.
-/

namespace Sys2Proof.Machine

/-- The fault codes an ENGINE step can raise (60_exceptions.md R242). They are recorded in the state
by the fault entry (R246) and do not end a run. -/
inductive ErrCode where
  /-- the command word selects no row of the opcode map (R241) -/
  | illegal
  /-- stage index not below LOG2N -/
  | operand
  /-- invalid or missing configuration -/
  | config
  /-- a region, frame, file length or header field does not fit -/
  | range
  /-- bytes 0..3 of the file are not "RIFF" -/
  | tagRiff
  /-- bytes 8..11 are not "WAVE" -/
  | tagWave
  /-- bytes 12..15 are not "fmt " -/
  | tagFmt
  /-- no "data" tag where the layout requires one -/
  | tagData
  /-- audio-format tag not 1, 3 or 0xFFFE -/
  | afmt
  /-- bits per sample not accepted -/
  | bits
  /-- channel count 0 -/
  | chan
  /-- the file is shorter than what it announces -/
  | trunc
deriving DecidableEq, Repr

/-- The registers that hold a value, under the names of 10_state.md R30 (CMD, STATUS and SRESET hold
none: R31, R32, R34). A complex pair is one field, its halves the `_RE` and `_IM` registers. -/
structure Regs where
  /-- ERRINFO, register 0x02 -/
  errinfo : BitVec 32
  /-- LOG2N, register 0x04 -/
  log2n : BitVec 5
  /-- FSIZE, register 0x05 -/
  fsize : BitVec 32
  /-- OVL, register 0x06, read as two's-complement signed by `PVCFG` (R36) -/
  ovl : BitVec 32
  /-- HA, register 0x07 -/
  ha : BitVec 32
  /-- HS, register 0x08 -/
  hs : BitVec 32
  /-- AGAIN, register 0x09, binary64 -/
  again : F64
  /-- IBASE, register 0x0A -/
  ibase : BitVec 32
  /-- ILEN, register 0x0B -/
  ilen : BitVec 32
  /-- OBASE, register 0x0C -/
  obase : BitVec 32
  /-- OLEN, register 0x0D -/
  olen : BitVec 32
  /-- RSBASE, register 0x0E -/
  rsbase : BitVec 32
  /-- RSLEN, register 0x0F -/
  rslen : BitVec 32
  /-- RDBASE, register 0x10 -/
  rdbase : BitVec 32
  /-- RDLEN, register 0x11 -/
  rdlen : BitVec 32
  /-- CHBASE, register 0x12 -/
  chbase : BitVec 32
  /-- CHSTRIDE, register 0x13 -/
  chstride : BitVec 32
  /-- BLEN, register 0x14 -/
  blen : BitVec 32
  /-- AFMT, register 0x15 -/
  afmt : BitVec 16
  /-- NCH, register 0x16 -/
  nch : BitVec 16
  /-- SRATE, register 0x17 -/
  srate : BitVec 32
  /-- BPS, register 0x18 -/
  bps : BitVec 16
  /-- NSAMP, register 0x19 -/
  nsamp : BitVec 32
  /-- DATASIZE, register 0x1A -/
  datasize : BitVec 32
  /-- DATAOFF, register 0x1B -/
  dataoff : BitVec 32
  /-- RIFFSZ, register 0x1C -/
  riffsz : BitVec 32
  /-- FMTSZ, register 0x1D -/
  fmtsz : BitVec 32
  /-- BYTERATE, register 0x1E -/
  byterate : BitVec 32
  /-- BALIGN, register 0x1F -/
  balign : BitVec 16
  /-- CA_RE and CA_IM, registers 0x20 and 0x21 -/
  ca : Cplx
  /-- CB_RE and CB_IM, registers 0x22 and 0x23 -/
  cb : Cplx
  /-- CW_RE and CW_IM, registers 0x24 and 0x25 -/
  cw : Cplx
  /-- CP_RE and CP_IM, registers 0x26 and 0x27 -/
  cp : Cplx
  /-- CQ_RE and CQ_IM, registers 0x28 and 0x29 -/
  cq : Cplx
  /-- PADLOG2, register 0x2A -/
  padlog2 : BitVec 5
  /-- PADAMT, register 0x2B -/
  padamt : BitVec 32
deriving DecidableEq, Repr

/-- Every register at its reset value, 0; for the binary64 registers that is +0.0 (10_state.md R50). -/
def Regs.zero : Regs where
  errinfo := 0
  log2n := 0
  fsize := 0
  ovl := 0
  ha := 0
  hs := 0
  again := 0
  ibase := 0
  ilen := 0
  obase := 0
  olen := 0
  rsbase := 0
  rslen := 0
  rdbase := 0
  rdlen := 0
  chbase := 0
  chstride := 0
  blen := 0
  afmt := 0
  nch := 0
  srate := 0
  bps := 0
  nsamp := 0
  datasize := 0
  dataoff := 0
  riffsz := 0
  fmtsz := 0
  byterate := 0
  balign := 0
  ca := ⟨0, 0⟩
  cb := ⟨0, 0⟩
  cw := ⟨0, 0⟩
  cp := ⟨0, 0⟩
  cq := ⟨0, 0⟩
  padlog2 := 0
  padamt := 0

/-- The two agents (10_state.md R20). -/
inductive Agent where
  /-- performs one bus access per step -/
  | host
  /-- completes the pending command in one step -/
  | engine
deriving DecidableEq, Repr

/-- One step of the host's script (30_encoding.md R100, R101). -/
inductive HostStep where
  /-- a read of the 64-bit word at byte address `haddr` -/
  | read (haddr : BitVec 32)
  /-- a write of `data` at byte address `haddr` -/
  | write (haddr : BitVec 32) (data : BitVec 64)
  /-- `wait`: read STATUS, and stay at this step until bit 0 (BUSY) is 0 -/
  | wait
  /-- the platform drives the hardware reset input (70_reset_and_hazards.md R270) -/
  | resetInput
deriving DecidableEq, Repr

/-- The port's answer to a bus access (20_memory.md R72, R73). -/
inductive BusResponse where
  /-- an accepted read, with its data -/
  | data (v : BitVec 64)
  /-- an accepted write -/
  | done
  /-- the error response: nothing was changed, and no data is given -/
  | refused
deriving DecidableEq, Repr

/-- The state of the block, and of the two agents that act on it. -/
structure State where
  /-- the implementation's sizes; no step changes them (00_scope.md R5, log entry 1) -/
  sizes : Sizes
  /-- the pending slot (10_state.md R28) -/
  pending : Option (BitVec 32)
  /-- ERR (R29) -/
  err : Bool
  /-- ERRCODE (R29) -/
  errCode : BitVec 8
  /-- CFGV (R29) -/
  cfgv : Bool
  /-- XSEL (R22, R29): false selects X0, true X1 -/
  xsel : Bool
  /-- the register file (R30) -/
  regs : Regs
  /-- frame bank X0 (R22) -/
  x0 : Bank
  /-- frame bank X1 (R22) -/
  x1 : Bank
  /-- window memory WM (R23) -/
  wm : Memory 64
  /-- previous-phase memory PV (R24) -/
  pv : Memory 64
  /-- cumulative-phase memory CU (R24) -/
  cu : Memory 64
  /-- real sample memory RM (R25) -/
  rm : Memory 64
  /-- byte memory BM (R26) -/
  bm : Memory 8
  /-- the host's accesses still to come (R21, log entry 6) -/
  script : List HostStep
  /-- which agent is scheduled at the coming steps (R20, log entry 7) -/
  sched : List Agent
  /-- the port's answer to the latest access (20_memory.md R72, log entry 6) -/
  resp : Option BusResponse
deriving DecidableEq, Repr

/-- Reasons for which the machine itself stops. There are none: a fault of the spec is the recorded
entry of 60_exceptions.md R246, a next state, and a refused bus access is an answer of the port
(R240; log entry 10). -/
inductive Fault where
deriving DecidableEq, Repr

/-- Reasons for which the model gives a command no meaning. -/
inductive Refusal where
  /-- raised by `exec` for a command that has no meaning yet; safe, since nothing is claimed of it.
  No arm of `exec` raises it. -/
  | notModelled (mnemonic : String)
deriving DecidableEq, Repr

/-- The machine right after power-on and reset (10_state.md R50, 70_reset_and_hazards.md R270): the
slot empty, every flag and register 0. DESIGN CHOICE: the sizes are those of the spec's examples
(log entry 1), the memories, whose contents R271 leaves open, are all zeros (log entry 2), and the
host has no access to make (log entries 6 and 7). -/
def State.reset : State where
  sizes := Config.exampleSizes
  pending := none
  err := false
  errCode := 0
  cfgv := false
  xsel := false
  regs := Regs.zero
  x0 := ⟨[], []⟩
  x1 := ⟨[], []⟩
  wm := []
  pv := []
  cu := []
  rm := []
  bm := []
  script := []
  sched := []
  resp := none

end Sys2Proof.Machine
end

