-- ==== Sys2Proof/Machine/Ops.lean ====
section
/-!
DEFINITION. The named operations: reading and writing memories and frame banks, completing a
command, the fault entry (the core's one exception, 60_exceptions.md R246) and the reset that is its
only exit (70_reset_and_hazards.md R270).
-/

namespace Sys2Proof

/-! ## Memories -/

/-- The canonical form of a memory: indices strictly rising, no entry equal to what an unlisted index
reads as. -/
abbrev Memory.wf {w : Nat} (m : Memory w) : Prop :=
  m.Pairwise (fun c d => c.1 < d.1) ∧ ∀ c ∈ m, c.2 ≠ 0

/-- No entry at or beyond `n`. -/
abbrev Memory.inside {w : Nat} (n : Nat) (m : Memory w) : Prop := ∀ c ∈ m, c.1 < n

/-- The entry at index `a`. An unlisted index reads as 0, the pattern of +0.0 (DESIGN CHOICE, log
entry 2). -/
def Memory.get {w : Nat} : Memory w → Nat → BitVec w
  | [], _ => 0
  | c :: m, a => if c.1 = a then c.2 else Memory.get m a

/-- The entries `f i` at `base + i`, for the last `k` of the indices `i < total`; zeros are not
listed. -/
def Memory.cells {w : Nat} (f : Nat → BitVec w) (base total : Nat) : Nat → Memory w
  | 0 => []
  | k + 1 =>
    let v := f (total - (k + 1))
    if v = 0 then Memory.cells f base total k
    else (base + (total - (k + 1)), v) :: Memory.cells f base total k

/-- Write `f i` at `base + i` for every `i < n`, and nothing else. -/
def Memory.splice {w : Nat} (m : Memory w) (base n : Nat) (f : Nat → BitVec w) : Memory w :=
  m.filter (fun c => decide (c.1 < base)) ++ Memory.cells f base n n ++
    m.filter (fun c => decide (base + n ≤ c.1))

/-- Write one entry. -/
def Memory.set {w : Nat} (m : Memory w) (a : Nat) (v : BitVec w) : Memory w :=
  m.splice a 1 (fun _ => v)

/-- `MemRead(addr, n)`: the unsigned integer whose byte `i` is the byte at `addr + i`, little-endian
(00_scope.md R7, 20_memory.md R61). -/
def Memory.readLE (m : Memory 8) (addr : Nat) : Nat → Nat
  | 0 => 0
  | n + 1 => (m.get addr).toNat + 256 * Memory.readLE m (addr + 1) n

/-- `MemWrite(addr, n, v)`: byte `i` of `v` to `addr + i`, little-endian (00_scope.md R7). -/
def Memory.writeLE (m : Memory 8) (addr n v : Nat) : Memory 8 :=
  m.splice addr n (fun i => BitVec.ofNat 8 (v / 256 ^ i))

/-- Four character codes, first character at the lowest offset (20_memory.md R62). -/
structure Tag where
  /-- first character -/
  c0 : Byte
  /-- second character -/
  c1 : Byte
  /-- third character -/
  c2 : Byte
  /-- fourth character -/
  c3 : Byte
deriving DecidableEq, Repr

/-- "RIFF" (20_memory.md R62) -/
def tagRIFF : Tag := ⟨0x52, 0x49, 0x46, 0x46⟩
/-- "WAVE" (20_memory.md R62) -/
def tagWAVE : Tag := ⟨0x57, 0x41, 0x56, 0x45⟩
/-- "fmt " (20_memory.md R62) -/
def tagFmt : Tag := ⟨0x66, 0x6D, 0x74, 0x20⟩
/-- "data" (20_memory.md R62) -/
def tagData : Tag := ⟨0x64, 0x61, 0x74, 0x61⟩
/-- "fact" (20_memory.md R62) -/
def tagFact : Tag := ⟨0x66, 0x61, 0x63, 0x74⟩

/-- The character of a tag at offset `i` of its four. -/
def Tag.byte (t : Tag) : Nat → Byte
  | 0 => t.c0
  | 1 => t.c1
  | 2 => t.c2
  | _ => t.c3

/-- `Tag(o)` (20_memory.md R68). -/
def Memory.tagAt (m : Memory 8) (o : Nat) : Tag :=
  ⟨m.get o, m.get (o + 1), m.get (o + 2), m.get (o + 3)⟩

/-- `TagWrite(o, s)` (43_codec.md R190). -/
def Memory.writeTag (m : Memory 8) (o : Nat) (t : Tag) : Memory 8 := m.splice o 4 t.byte

/-! ## Frame banks -/

/-- Entry `k` of a bank. -/
def Bank.get (b : Bank) (k : Nat) : Cplx := ⟨b.re.get k, b.im.get k⟩

/-- Write `f k` at every `k < n`; entries `n` and above stay (10_state.md R22). -/
def Bank.fill (b : Bank) (n : Nat) (f : Nat → Cplx) : Bank :=
  ⟨b.re.splice 0 n (fun k => (f k).re), b.im.splice 0 n (fun k => (f k).im)⟩

/-- Both halves of a bank are in canonical form. -/
abbrev Bank.wf (b : Bank) : Prop := b.re.wf ∧ b.im.wf

/-- Both halves of a bank lie below `n`. -/
abbrev Bank.inside (n : Nat) (b : Bank) : Prop := b.re.inside n ∧ b.im.inside n

/-! ## Loops -/

/-- `for i in 0..n-1`, in ascending order (00_scope.md R10). -/
def forUp {α : Type} : Nat → (Nat → α → α) → α → α
  | 0, _, x => x
  | n + 1, f, x => f n (forUp n f x)

namespace Machine

/-- `NMAX = 2^LOG2N_MAX` (00_scope.md R5). -/
def State.nmax (s : State) : Nat := 2 ^ s.sizes.log2nMax

/-! ## Active and inactive bank (10_state.md R22) -/

/-- `X`, the bank XSEL selects. -/
def State.active (s : State) : Bank := if s.xsel then s.x1 else s.x0

/-- `Y`, the other bank. -/
def State.inactive (s : State) : Bank := if s.xsel then s.x0 else s.x1

/-- One pass of a whole-frame command: `Y[k] := f k` for `k < n`, then XSEL is inverted (10_state.md
R22). -/
def State.framePass (s : State) (n : Nat) (f : Nat → Cplx) : State :=
  { s with
    x0 := if s.xsel then s.x0.fill n f else s.x0
    x1 := if s.xsel then s.x1 else s.x1.fill n f
    xsel := !s.xsel }

/-! ## Completion, fault entry, reset -/

/-- The code of a fault (60_exceptions.md R242). -/
def ErrCode.code : ErrCode → BitVec 8
  | .illegal => 0x01
  | .operand => 0x02
  | .config => 0x03
  | .range => 0x04
  | .tagRiff => 0x10
  | .tagWave => 0x11
  | .tagFmt => 0x12
  | .tagData => 0x13
  | .afmt => 0x14
  | .bits => 0x15
  | .chan => 0x16
  | .trunc => 0x17

/-- A command completes: the slot is emptied, so BUSY is cleared (10_state.md R20, R28). -/
def State.complete (s : State) : State := { s with pending := none }

/-- The fault entry of 60_exceptions.md R246: ERR, ERRCODE and ERRINFO record the fault and the word,
the slot is emptied, nothing else changes. (Where no word is pending no command runs; ERRINFO then
stays, log entry 11.) -/
def State.faultEntry (s : State) (e : ErrCode) : State :=
  { s with
    err := true
    errCode := e.code
    regs := { s.regs with errinfo := s.pending.getD s.regs.errinfo }
    pending := none }

/-- The reset of 70_reset_and_hazards.md R270, the only way out of the fault state (60_exceptions.md
R252): slot, flags and registers cleared, memories unchanged. The sizes and the agents' side are not
part of the block. -/
def State.blockReset (s : State) : State :=
  { s with
    pending := none
    err := false
    errCode := 0
    cfgv := false
    xsel := false
    regs := Regs.zero }

/-- The end of a command: `.ok t` completes with the effects of `t`; `.error e` is `raise e`, which
keeps nothing the command wrote (00_scope.md R8) and is the fault entry on the state before it. -/
def State.conclude (s : State) (r : Except ErrCode State) : Host.Outcome State Fault Refusal :=
  match r with
  | .ok t => .next t.complete
  | .error e => .next (s.faultEntry e)

end Machine

end Sys2Proof
end

