-- ==== Sys2Proof/Machine/Flags.lean ====
section
/-!
DEFINITION. The status bits of 10_state.md R29 and the STATUS view of R32. There are no arithmetic
condition codes (R29): no command computes a flag from a result.
-/

namespace Sys2Proof.Machine

/-- BUSY: 1 exactly when the pending slot is full (10_state.md R28). -/
def State.busy (s : State) : Bool := s.pending.isSome

/-- STATUS (10_state.md R32): bit 0 BUSY, bit 1 ERR, bit 2 CFGV, bit 3 XSEL, bits 15:8 ERRCODE, the
other bits 0. -/
def State.statusWord (s : State) : BitVec 64 :=
  BitVec.ofNat 64
    (s.busy.toNat + 2 * s.err.toNat + 4 * s.cfgv.toNat + 8 * s.xsel.toNat + 256 * s.errCode.toNat)

/-- CFGV set by a successful `PVCFG` (10_state.md R29). -/
def State.setCfgv (s : State) : State := { s with cfgv := true }

/-- CFGV cleared by a host write to LOG2N, FSIZE or OVL (10_state.md R29, R35, R36). -/
def State.clearCfgv (s : State) : State := { s with cfgv := false }

end Sys2Proof.Machine
end

