-- ==== Sys2Proof/Machine/Operands.lean ====
section
/-!
DEFINITION. The operand forms: how a command reads its parameters from the register file
(30_encoding.md R93), the common checks of a family (41_transform.md R152, 42_vocoder.md R162,
43_codec.md R181), and the samples of the codec (43_codec.md R185, R191).
-/

namespace Sys2Proof.Machine

/-! ## Transform length and the vocoder's parameters -/

/-- `L = x[LOG2N]`. -/
def State.len2 (s : State) : Nat := s.regs.log2n.toNat

/-- `N = 2^L`. -/
def State.len (s : State) : Nat := 2 ^ s.len2

/-- `Ha = x[HA]`. -/
def State.hopA (s : State) : Nat := s.regs.ha.toNat

/-- `Hs = x[HS]`. -/
def State.hopS (s : State) : Nat := s.regs.hs.toNat

/-- `V = sext(x[OVL])` (10_state.md R36). -/
def State.overlap (s : State) : Int := s.regs.ovl.toInt

/-- The common check of the transform commands (41_transform.md R152): the length register does not
exceed the capacity; else E_CONFIG, before anything else. -/
abbrev State.lenFits (s : State) : Prop := s.len2 ≤ s.sizes.log2nMax

/-- The common check of `FRAMEW`, `PHASE` and `OLA` (42_vocoder.md R162): CFGV = 1; else E_CONFIG,
before anything else. -/
abbrev State.configured (s : State) : Prop := s.cfgv = true

/-- The region `(base, len)` is inside RM: `base + len ≤ RM_WORDS` (10_state.md R25). -/
abbrev State.insideRM (s : State) (base len : BitVec 32) : Prop :=
  base.toNat + len.toNat ≤ s.sizes.rmWords

/-! ## Codec descriptor -/

/-- The descriptor check of 43_codec.md R181 on the format tag `a`, bits per sample `b` and channel
count `n`; it gives `bytesPerSample`. -/
def descriptorCheck (a b n : Nat) : Except ErrCode Nat :=
  if ¬ (a = 1 ∨ a = 3 ∨ a = 0xFFFE) then .error .afmt
  else if a = 3 ∧ ¬ (b = 32 ∨ b = 64) then .error .bits
  else if a ≠ 3 ∧ ¬ (b = 8 ∨ b = 16 ∨ b = 24 ∨ b = 32) then .error .bits
  else if n = 0 then .error .chan
  else .ok (b / 8)

/-- The descriptor check on the registers, with `bytesPerSample` handed on. -/
def State.checkDescriptor (s : State) (k : Nat → Except ErrCode State) : Except ErrCode State :=
  match descriptorCheck s.regs.afmt.toNat s.regs.bps.toNat s.regs.nch.toNat with
  | .error e => .error e
  | .ok by' => k by'

/-- `sextK(u)`: the two's-complement value of a `K`-bit pattern (43_codec.md R185). -/
def sextBits (k u : Nat) : Int := if u < 2 ^ (k - 1) then (u : Int) else (u : Int) - 2 ^ k

/-- The `K`-bit two's-complement pattern of an integer (43_codec.md R191). -/
def bitsOf (k : Nat) (v : Int) : Nat := (v % 2 ^ k).toNat

/-- `norm(u, a, b)` (43_codec.md R185), the table's rows from top to bottom; the last row is the
64-bit float, a copy. -/
def normSample (u a b : Nat) : F64 :=
  if a ≠ 3 ∧ b = 8 then fsub (fmul (fdiv (f64 u) f255) fTwo) fOne
  else if a ≠ 3 ∧ b = 16 then fdiv (f64 (sextBits 16 u)) f32768
  else if a ≠ 3 ∧ b = 24 then fdiv (f64 (sextBits 24 u)) fTwo31
  else if a ≠ 3 ∧ b = 32 then fdiv (f64 (sextBits 32 u)) fTwo31
  else if a = 3 ∧ b = 32 then f32to64 (BitVec.ofNat 32 u)
  else BitVec.ofNat 64 u

/-- `denorm(s, a, b)` (43_codec.md R191), the table's rows from top to bottom; for the integer formats
a NaN sample is first replaced by +0.0. -/
def denormSample (v : F64) (a b : Nat) : Nat :=
  let s := if isNaN v then fZero else v
  if a ≠ 3 ∧ b = 8 then bitsOf 8 (toint (fmul (fdiv (fadd s fOne) fTwo) f255) 0 255)
  else if a ≠ 3 ∧ b = 16 then bitsOf 16 (toint (fmul s f32768) (-32768) 32767)
  else if a ≠ 3 ∧ b = 24 then bitsOf 24 (toint (fmul s fTwo31) (-8388608) 8388607)
  else if a ≠ 3 ∧ b = 32 then bitsOf 32 (toint (fmul s fTwo31) (-2147483648) 2147483647)
  else if a = 3 ∧ b = 32 then (f64to32 v).toNat
  else v.toNat

/-- The RM index of sample `t` of channel `c`: `x[CHBASE] + c·x[CHSTRIDE] + t` (43_codec.md R186). -/
def State.sampleIndex (s : State) (c t : Nat) : Nat :=
  s.regs.chbase.toNat + c * s.regs.chstride.toNat + t

/-- The BM offset of sample `t` of channel `c`: `x[DATAOFF] + (t·n + c)·by` (43_codec.md R186). -/
def State.sampleOffset (s : State) (by' c t : Nat) : Nat :=
  s.regs.dataoff.toNat + (t * s.regs.nch.toNat + c) * by'

/-- The size of the sample data in bytes, `ns·n·by` (43_codec.md R186, R190). -/
def State.payload (s : State) (by' : Nat) : Nat :=
  s.regs.nsamp.toNat * s.regs.nch.toNat * by'

/-- The checks `PCMDEC` and `PCMENC` share (43_codec.md R186, R192): with more than one channel the
buffers must not overlap, and the last one must end inside RM. -/
abbrev State.channelsFit (s : State) : Prop :=
  ¬ (1 < s.regs.nch.toNat ∧ s.regs.chstride.toNat < s.regs.nsamp.toNat) ∧
    s.regs.chbase.toNat + (s.regs.nch.toNat - 1) * s.regs.chstride.toNat + s.regs.nsamp.toNat
      ≤ s.sizes.rmWords

end Sys2Proof.Machine
end

