-- ==== Sys2Proof/Machine/Codec.lean ====
section
/-!
DEFINITION. The Waveform Codec (43_codec.md): the unit wav_pcm_codec.
-/

namespace Sys2Proof.Machine

/-! ## Header parse -/

/-- The fields of the format sub-chunk and the chunk size, as read (43_codec.md R180, R183 lines 4 to
8). -/
structure HeaderFields where
  /-- ChunkSize -/
  riffsz : Nat
  /-- Subchunk1Size -/
  fmtsz : Nat
  /-- AudioFormat -/
  afmt : Nat
  /-- NumChannels -/
  nch : Nat
  /-- SampleRate -/
  srate : Nat
  /-- ByteRate -/
  byterate : Nat
  /-- BlockAlign -/
  balign : Nat
  /-- BitsPerSample -/
  bps : Nat
deriving DecidableEq, Repr

/-- Read the fixed fields at their offsets (43_codec.md R180). -/
def headerFields (bm : Memory 8) : HeaderFields where
  riffsz := bm.readLE 4 4
  fmtsz := bm.readLE 16 4
  afmt := bm.readLE 20 2
  nch := bm.readLE 22 2
  srate := bm.readLE 24 4
  byterate := bm.readLE 28 4
  balign := bm.readLE 32 2
  bps := bm.readLE 34 2

/-- The byte-wise scan for the "data" tag from cursor `c` in a file of `bl` bytes (43_codec.md R183
lines 17 to 20). The first number bounds the positions tried; `bl + 1` is always enough. -/
def scanData (bm : Memory 8) (bl : Nat) : Nat → Nat → Except ErrCode Nat
  | 0, _ => .error .tagData
  | k + 1, c =>
    if bl < c + 8 then .error .tagData
    else if bm.tagAt c = tagData then .ok c
    else scanData bm bl k (c + 1)

/-- Where the scan of an extensible file starts (43_codec.md R183 lines 13 to 16): after the extension,
and after a "fact" sub-chunk that stands right there. -/
def scanStart (bm : Memory 8) (bl : Nat) : Nat :=
  let c := 38 + bm.readLE 36 2
  if c + 8 ≤ bl ∧ bm.tagAt c = tagFact then c + 8 + bm.readLE (c + 4) 4 else c

/-- The offset of the "data" tag (43_codec.md R183 lines 10 to 23). -/
def dataCursor (bm : Memory 8) (bl a : Nat) : Except ErrCode Nat :=
  if a = 0xFFFE then
    if bl < 36 + 2 then .error .trunc else scanData bm bl (bl + 1) (scanStart bm bl)
  else if bl < 36 + 8 then .error .trunc
  else if bm.tagAt 36 ≠ tagData then .error .tagData
  else .ok 36

/-- The sample count `(dataSize div channelCount) div bytesPerSample` (43_codec.md R184). -/
def sampleCount (dsz n by' : Nat) : Nat := dsz / n / by'

/-- The register writes of `WAVHDR` (43_codec.md R183 lines 28 to 30). -/
def State.writeHeaderRegs (s : State) (h : HeaderFields) (ns dsz doff : Nat) : State :=
  { s with regs := { s.regs with
    afmt := BitVec.ofNat 16 h.afmt
    nch := BitVec.ofNat 16 h.nch
    srate := BitVec.ofNat 32 h.srate
    bps := BitVec.ofNat 16 h.bps
    nsamp := BitVec.ofNat 32 ns
    datasize := BitVec.ofNat 32 dsz
    dataoff := BitVec.ofNat 32 doff
    riffsz := BitVec.ofNat 32 h.riffsz
    fmtsz := BitVec.ofNat 32 h.fmtsz
    byterate := BitVec.ofNat 32 h.byterate
    balign := BitVec.ofNat 16 h.balign } }

/-- `WAVHDR` (43_codec.md R183), the checks in the order of its lines. -/
def execWavhdr (s : State) : Host.Outcome State Fault Refusal :=
  let bl := s.regs.blen.toNat
  let h := headerFields s.bm
  s.conclude <|
    if s.sizes.bmBytes < bl then .error .range
    else if bl < 36 then .error .trunc
    else if s.bm.tagAt 0 ≠ tagRIFF then .error .tagRiff
    else if s.bm.tagAt 8 ≠ tagWAVE then .error .tagWave
    else if s.bm.tagAt 12 ≠ tagFmt then .error .tagFmt
    else
      match descriptorCheck h.afmt h.bps h.nch with
      | .error e => .error e
      | .ok by' =>
        match dataCursor s.bm bl h.afmt with
        | .error e => .error e
        | .ok c =>
          let dsz := s.bm.readLE (c + 4) 4
          let ns := sampleCount dsz h.nch by'
          if bl < c + 8 + ns * h.nch * by' then .error .trunc
          else .ok (s.writeHeaderRegs h ns dsz (c + 8))

/-! ## Samples in -/

/-- The stores of `PCMDEC` (43_codec.md R186), instant by instant and channel by channel. -/
def State.decodeSamples (s : State) (by' : Nat) : Memory 64 :=
  forUp s.regs.nsamp.toNat (fun t rm =>
    forUp s.regs.nch.toNat (fun c rm =>
      rm.set (s.sampleIndex c t)
        (normSample (s.bm.readLE (s.sampleOffset by' c t) by') s.regs.afmt.toNat s.regs.bps.toNat))
      rm) s.rm

/-- `PCMDEC` (43_codec.md R186). -/
def execPcmdec (s : State) : Host.Outcome State Fault Refusal :=
  s.conclude <| s.checkDescriptor fun by' =>
    if s.sizes.bmBytes < s.regs.blen.toNat then .error .range
    else if s.regs.blen.toNat < s.regs.dataoff.toNat + s.payload by' then .error .trunc
    else if ¬ s.channelsFit then .error .range
    else .ok { s with rm := s.decodeSamples by' }

/-! ## Header write -/

/-- The 44 header bytes `WAVHDRW` stores (43_codec.md R190). -/
def writeHeader (bm : Memory 8) (tagv n sr brate balign b dsz : Nat) : Memory 8 :=
  let bm := (bm.writeTag 0 tagRIFF).writeLE 4 4 (36 + dsz)
  let bm := (bm.writeTag 8 tagWAVE).writeTag 12 tagFmt
  let bm := ((bm.writeLE 16 4 16).writeLE 20 2 tagv).writeLE 22 2 n
  let bm := ((bm.writeLE 24 4 sr).writeLE 28 4 brate).writeLE 32 2 balign
  ((bm.writeLE 34 2 b).writeTag 36 tagData).writeLE 40 4 dsz

/-- `WAVHDRW` (43_codec.md R190). -/
def execWavhdrw (s : State) : Host.Outcome State Fault Refusal :=
  let n := s.regs.nch.toNat
  let sr := s.regs.srate.toNat
  s.conclude <| s.checkDescriptor fun by' =>
    let dsz := s.payload by'
    let brate := sr * n * by'
    let balign := n * by'
    if 2 ^ 32 ≤ 36 + dsz then .error .range
    else if s.sizes.bmBytes < 44 then .error .range
    else if 2 ^ 32 ≤ brate ∨ 2 ^ 16 ≤ balign then .error .range
    else .ok { s with
      bm := writeHeader s.bm (if s.regs.afmt.toNat = 3 then 3 else 1) n sr brate balign
        s.regs.bps.toNat dsz
      regs := { s.regs with
        riffsz := BitVec.ofNat 32 (36 + dsz)
        fmtsz := 16
        byterate := BitVec.ofNat 32 brate
        balign := BitVec.ofNat 16 balign
        datasize := BitVec.ofNat 32 dsz
        dataoff := 44
        blen := 44 } }

/-! ## Samples out -/

/-- The stores of `PCMENC` (43_codec.md R192), instant by instant and channel by channel. -/
def State.encodeSamples (s : State) (by' : Nat) : Memory 8 :=
  forUp s.regs.nsamp.toNat (fun t bm =>
    forUp s.regs.nch.toNat (fun c bm =>
      bm.writeLE (s.sampleOffset by' c t) by'
        (denormSample (s.rm.get (s.sampleIndex c t)) s.regs.afmt.toNat s.regs.bps.toNat))
      bm) s.bm

/-- `PCMENC` (43_codec.md R192). -/
def execPcmenc (s : State) : Host.Outcome State Fault Refusal :=
  s.conclude <| s.checkDescriptor fun by' =>
    let stop := s.regs.dataoff.toNat + s.payload by'
    if s.sizes.bmBytes < stop then .error .range
    else if ¬ s.channelsFit then .error .range
    else .ok { s with
      bm := s.encodeSamples by'
      regs := { s.regs with blen := BitVec.ofNat 32 stop } }

end Sys2Proof.Machine
end

