-- ==== Sys2Proof/Machine/System.lean ====
section
/-!
DEFINITION. The system command (44_system.md).
-/

namespace Sys2Proof.Machine

/-- `NOP` (44_system.md R210): nothing; the slot is emptied as for every command. -/
def execNop (s : State) : Host.Outcome State Fault Refusal := s.conclude (.ok s)

end Sys2Proof.Machine
end

