-- ==== Sys2Proof/Machine/Transform.lean ====
section
/-!
DEFINITION. The Spectral Transform Engine (41_transform.md): the passes as functions of a state, and
one meaning per command.
-/

namespace Sys2Proof.Machine

/-! ## Passes -/

/-- `rev(i, L)`: the reversal of the `L` low binary digits of `i` (41_transform.md R143). -/
def rev (i : Nat) : Nat → Nat
  | 0 => 0
  | l + 1 => i % 2 * 2 ^ l + rev (i / 2) l

/-- `BITREV` as a pass (41_transform.md R143): `Y[i] := X[rev(i, L)]`, copied bit for bit. -/
def State.bitrevPass (s : State) : State :=
  s.framePass s.len (fun i => s.active.get (rev i s.len2))

/-- The twiddle factor of the butterfly whose lower index is `k` in stage `st` (41_transform.md R144):
`j = k & (offset − 1)`, `e = j << (L − st − 1)`, conjugated for the inverse direction. -/
def State.stageTwiddle (s : State) (st : Nat) (inv : Bool) (k : Nat) : Cplx :=
  let w := twiddleN s.sizes.log2nMax s.len2 ((k &&& (2 ^ st - 1)) <<< (s.len2 - st - 1))
  if inv then conj w else w

/-- The butterfly of stage `st` at lower index `k`: the new `Y[k]` and `Y[k + offset]`
(41_transform.md R144). -/
def State.stageButterfly (s : State) (st : Nat) (inv : Bool) (k : Nat) : Cplx × Cplx :=
  butterfly (s.active.get k) (s.active.get (k + 2 ^ st)) (s.stageTwiddle st inv k)

/-- `STAGE` as a pass (41_transform.md R144). Every index is written once, as a lower index
(`k & offset = 0`) or as the upper index of `k − offset`. -/
def State.stagePass (s : State) (st : Nat) (inv : Bool) : State :=
  s.framePass s.len (fun k =>
    if k &&& 2 ^ st = 0 then (s.stageButterfly st inv k).1
    else (s.stageButterfly st inv (k - 2 ^ st)).2)

/-- `XSCALE` as a pass (41_transform.md R145). -/
def State.xscalePass (s : State) : State :=
  s.framePass s.len (fun k =>
    ⟨fdiv (s.active.get k).re (f64 s.len), fdiv (s.active.get k).im (f64 s.len)⟩)

/-- The stages `0 .. n−1` in order (41_transform.md R146). -/
def State.stages (s : State) (inv : Bool) (n : Nat) : State :=
  forUp n (fun st t => t.stagePass st inv) s

/-- The smallest `L` with `2^L ≥ n` (41_transform.md R148). -/
def padLog (n : Nat) : Nat := if n ≤ 1 then 0 else (n - 1).log2 + 1

/-! ## Commands -/

/-- `CMUL` (41_transform.md R141). -/
def execCmul (s : State) : Host.Outcome State Fault Refusal :=
  s.conclude (.ok { s with regs := { s.regs with cp := cmul s.regs.ca s.regs.cb } })

/-- `BFLY` (41_transform.md R142). -/
def execBfly (s : State) : Host.Outcome State Fault Refusal :=
  let pq := butterfly s.regs.ca s.regs.cb s.regs.cw
  s.conclude (.ok { s with regs := { s.regs with cp := pq.1, cq := pq.2 } })

/-- `BITREV` (41_transform.md R143). -/
def execBitrev (s : State) : Host.Outcome State Fault Refusal :=
  s.conclude <|
    if ¬ s.lenFits then .error .config else .ok s.bitrevPass

/-- `STAGE` (41_transform.md R144): E_CONFIG (R152), then E_OPERAND for `s ≥ L`. -/
def execStage (st : Nat) (inv : Bool) (s : State) : Host.Outcome State Fault Refusal :=
  s.conclude <|
    if ¬ s.lenFits then .error .config
    else if s.len2 ≤ st then .error .operand
    else .ok (s.stagePass st inv)

/-- `XSCALE` (41_transform.md R145). -/
def execXscale (s : State) : Host.Outcome State Fault Refusal :=
  s.conclude <|
    if ¬ s.lenFits then .error .config else .ok s.xscalePass

/-- `FFT` (41_transform.md R146): `BITREV`, then the `L` stages, as one command. -/
def execFft (s : State) : Host.Outcome State Fault Refusal :=
  s.conclude <|
    if ¬ s.lenFits then .error .config else .ok (s.bitrevPass.stages false s.len2)

/-- `IFFT` (41_transform.md R147): `BITREV`, the `L` inverse stages, `XSCALE`, as one command. -/
def execIfft (s : State) : Host.Outcome State Fault Refusal :=
  s.conclude <|
    if ¬ s.lenFits then .error .config else .ok (s.bitrevPass.stages true s.len2).xscalePass

/-- `NPOW2 n` (41_transform.md R148). -/
def execNpow2 (n : Nat) (s : State) : Host.Outcome State Fault Refusal :=
  s.conclude (.ok { s with regs := { s.regs with
    padlog2 := BitVec.ofNat 5 (padLog n)
    padamt := BitVec.ofNat 32 (2 ^ padLog n - n) } })

end Sys2Proof.Machine
end

