-- ==== Sys2Proof/Machine/Vocoder.lean ====
section
/-!
DEFINITION. The Phase Vocoder Pitch Shifter (42_vocoder.md).
-/

namespace Sys2Proof.Machine

/-! ## Construction -/

/-- A power of two: `n ≠ 0` and `n & (n − 1) = 0` (40_numerics.md R121). -/
def isPow2 (n : Nat) : Bool := decide (n ≠ 0 ∧ n &&& (n - 1) = 0)

/-- AGAIN for an overlap factor `V`: `fdiv(1.0, fsqrt(fdiv(f64(V), 2.0)))` (42_vocoder.md R160). -/
def analysisGain (v : Int) : F64 := fdiv fOne (fsqrt (fdiv (f64 v) fTwo))

/-- The writes of a successful `PVCFG` (42_vocoder.md R160). -/
def State.configure (s : State) : State :=
  let f := s.regs.fsize.toNat
  State.setCfgv { s with
    regs := { s.regs with
      log2n := BitVec.ofNat 5 f.log2
      ha := BitVec.ofNat 32 (f / s.overlap.toNat)
      again := analysisGain s.overlap }
    wm := s.wm.splice 0 f (fun i => windowWeight i f) }

/-- `PVCFG` (42_vocoder.md R160). -/
def execPvcfg (s : State) : Host.Outcome State Fault Refusal :=
  s.conclude <|
    if s.overlap ≤ 0 then .error .config
    else if ¬ isPow2 s.regs.fsize.toNat then .error .config
    else if ¬ (s.overlap < (s.regs.fsize.toNat : Int)) then .error .config
    else if s.sizes.log2nMax < s.regs.fsize.toNat.log2 then .error .config
    else .ok s.configure

/-! ## Phase state reset -/

/-- `PHRST` (42_vocoder.md R163): all `NMAX` entries of PV and CU to +0.0. -/
def execPhrst (s : State) : Host.Outcome State Fault Refusal :=
  s.conclude (.ok { s with
    pv := s.pv.splice 0 s.nmax (fun _ => fZero)
    cu := s.cu.splice 0 s.nmax (fun _ => fZero) })

/-! ## Analysis -/

/-- Entry `n` of analysis frame `i` (42_vocoder.md R164): sample times window weight, then the gain. -/
def State.analysisSample (s : State) (i n : Nat) : Cplx :=
  ⟨fmul (fmul (s.rm.get (s.regs.ibase.toNat + i * s.hopA + n)) (s.wm.get n)) s.regs.again, fZero⟩

/-- `FRAMEW i` (42_vocoder.md R164). -/
def execFramew (i : Nat) (s : State) : Host.Outcome State Fault Refusal :=
  s.conclude <|
    if ¬ s.configured then .error .config
    else if ¬ s.insideRM s.regs.ibase s.regs.ilen then .error .range
    else if s.regs.ilen.toNat < i * s.hopA + s.len then .error .range
    else .ok (s.framePass s.len (s.analysisSample i))

/-! ## Processing: phase_unwrap_accumulate -/

/-- The phase of bin `k`, "its angle" (42_vocoder.md R165). -/
def State.binPhase (s : State) (k : Nat) : F64 :=
  cfgArg (s.active.get k).re (s.active.get k).im

/-- `2π·k` (42_vocoder.md R165). -/
def binAngle (k : Nat) : F64 := fmul fTwoPi (f64 k)

/-- The wrapped phase deviation of bin `k` (42_vocoder.md R165). -/
def State.binDeviation (s : State) (k : Nat) : F64 :=
  let ex := fdiv (fmul (binAngle k) (f64 s.hopA)) (f64 s.len)
  wrap (fsub (fsub (s.binPhase k) (s.pv.get k)) ex)

/-- The new cumulative phase of bin `k` (42_vocoder.md R165). -/
def State.binCumulative (s : State) (k : Nat) : F64 :=
  let tf := fadd (fdiv (binAngle k) (f64 s.len)) (fdiv (s.binDeviation k) (f64 s.hopA))
  fadd (s.cu.get k) (fmul tf (f64 s.hopS))

/-- The new value of bin `k` (42_vocoder.md R165). -/
def State.binOutput (s : State) (k : Nat) : Cplx :=
  let mag := cfgMag (s.active.get k).re (s.active.get k).im
  ⟨fmul mag (cfgCos (s.binCumulative k)), fmul mag (cfgSin (s.binCumulative k))⟩

/-- `PHASE` (42_vocoder.md R165): all `N` bins; no bin depends on another. -/
def execPhase (s : State) : Host.Outcome State Fault Refusal :=
  s.conclude <|
    if ¬ s.configured then .error .config
    else .ok
      { s.framePass s.len s.binOutput with
        pv := s.pv.splice 0 s.len s.binPhase
        cu := s.cu.splice 0 s.len s.binCumulative }

/-! ## Synthesis: windowed_overlap_add_synthesizer -/

/-- How many entries of frame `i` lie below OLEN: the `n < N` with `i·Hs + n < x[OLEN]`
(42_vocoder.md R166, where the loop stops at the first other one). -/
def State.olaCount (s : State) (i : Nat) : Nat :=
  min s.len (s.regs.olen.toNat - i * s.hopS)

/-- The RM index of entry `n` of frame `i` (42_vocoder.md R166). -/
def State.olaIndex (s : State) (i n : Nat) : Nat := s.regs.obase.toNat + (i * s.hopS + n)

/-- The sum `OLA i` stores for entry `n` (42_vocoder.md R166). -/
def State.olaSum (s : State) (i n : Nat) : F64 :=
  fadd (s.rm.get (s.olaIndex i n)) (fmul (s.active.get n).re (s.wm.get n))

/-- `OLA i` (42_vocoder.md R166). The indices of a frame are distinct, so each sum reads the word as
it was before the command. -/
def execOla (i : Nat) (s : State) : Host.Outcome State Fault Refusal :=
  s.conclude <|
    if ¬ s.configured then .error .config
    else if ¬ s.insideRM s.regs.obase s.regs.olen then .error .range
    else .ok { s with rm := s.rm.splice (s.olaIndex i 0) (s.olaCount i) (s.olaSum i) }

/-! ## Resampling -/

/-- The source position of output sample `i`: `(i / numSamples) · unpaddedLength` (42_vocoder.md
R167). -/
def resamplePos (i dl sl : Nat) : F64 := fmul (fdiv (f64 i) (f64 dl)) (f64 sl)

/-- Output sample `i` interpolated from the words of `rm` (42_vocoder.md R167). -/
def resampleValue (rm : Memory 64) (sb sl dl i : Nat) : F64 :=
  let p := resamplePos i dl sl
  let fr := fsub p (ffloor p)
  let f := min (fnat (ffloor p)) (sl - 1)
  let c := min (fnat (fceil p)) (sl - 1)
  fadd (fmul (rm.get (sb + f)) (fsub fOne fr)) (fmul (rm.get (sb + c)) fr)

/-- `RESAMP` (42_vocoder.md R167): ascending, each iteration seeing the writes of the earlier ones. -/
def execResamp (s : State) : Host.Outcome State Fault Refusal :=
  let sb := s.regs.rsbase.toNat
  let sl := s.regs.rslen.toNat
  let db := s.regs.rdbase.toNat
  let dl := s.regs.rdlen.toNat
  s.conclude <|
    if ¬ (s.insideRM s.regs.rsbase s.regs.rslen ∧ s.insideRM s.regs.rdbase s.regs.rdlen) then
      .error .range
    else if 0 < dl ∧ sl = 0 then .error .range
    else .ok { s with
      rm := forUp dl (fun i rm => rm.set (db + i) (resampleValue rm sb sl dl i)) s.rm }

end Sys2Proof.Machine
end

