-- ==== Sys2Proof/Machine/Dispatch.lean ====
section
/-!
DEFINITION. One arm per command of the opcode map (30_encoding.md R94, R99).
-/

namespace Sys2Proof.Machine

/-- Perform a decoded command on a state whose slot holds its word. -/
def exec (i : Instr) (s : State) : Host.Outcome State Fault Refusal :=
  match i with
  | .nop => Sys2Proof.Machine.execNop s
  | .cmul => Sys2Proof.Machine.execCmul s
  | .bfly => Sys2Proof.Machine.execBfly s
  | .bitrev => Sys2Proof.Machine.execBitrev s
  | .stage st inv => Sys2Proof.Machine.execStage st inv s
  | .xscale => Sys2Proof.Machine.execXscale s
  | .fft => Sys2Proof.Machine.execFft s
  | .ifft => Sys2Proof.Machine.execIfft s
  | .npow2 n => Sys2Proof.Machine.execNpow2 n s
  | .pvcfg => Sys2Proof.Machine.execPvcfg s
  | .phrst => Sys2Proof.Machine.execPhrst s
  | .framew k => Sys2Proof.Machine.execFramew k s
  | .phase => Sys2Proof.Machine.execPhase s
  | .ola k => Sys2Proof.Machine.execOla k s
  | .resamp => Sys2Proof.Machine.execResamp s
  | .wavhdr => Sys2Proof.Machine.execWavhdr s
  | .pcmdec => Sys2Proof.Machine.execPcmdec s
  | .wavhdrw => Sys2Proof.Machine.execWavhdrw s
  | .pcmenc => Sys2Proof.Machine.execPcmenc s

end Sys2Proof.Machine
end

