-- ==== Sys2Proof/Machine/HostPort.lean ====
section
/-!
DEFINITION. The host port: the register map of 10_state.md R30, the address map of 20_memory.md R70,
the refusals of R72, the accepted accesses of R73, and one step of the HOST agent (10_state.md R20)
through the script of 30_encoding.md R100.
-/

namespace Sys2Proof.Machine

/-! ## Registers -/

/-- A register number of 10_state.md R30, by name. -/
inductive RegName where
  | cmd | status | errinfo | sreset
  | log2n | fsize | ovl | ha
  | hs | again | ibase | ilen
  | obase | olen | rsbase | rslen
  | rdbase | rdlen | chbase | chstride
  | blen | afmt | nch | srate
  | bps | nsamp | datasize | dataoff
  | riffsz | fmtsz | byterate | balign
  | caRe | caIm | cbRe | cbIm
  | cwRe | cwIm | cpRe | cpIm
  | cqRe | cqIm | padlog2 | padamt
deriving DecidableEq, Repr

/-- The registers in the order of their numbers (10_state.md R30). -/
def registerMap : List RegName :=
  [.cmd, .status, .errinfo, .sreset, .log2n, .fsize,
   .ovl, .ha, .hs, .again, .ibase, .ilen,
   .obase, .olen, .rsbase, .rslen, .rdbase, .rdlen,
   .chbase, .chstride, .blen, .afmt, .nch, .srate,
   .bps, .nsamp, .datasize, .dataoff, .riffsz, .fmtsz,
   .byterate, .balign, .caRe, .caIm, .cbRe, .cbIm,
   .cwRe, .cwIm, .cpRe, .cpIm, .cqRe, .cqIm,
   .padlog2, .padamt]

/-- The register with number `r` (10_state.md R30); none from 0x2C on. -/
def RegName.ofNumber (r : Nat) : Option RegName := registerMap[r]?

/-- The number of a register (10_state.md R30, column "r"). -/
def RegName.number : RegName → Nat
  | .cmd => 0x00
  | .status => 0x01
  | .errinfo => 0x02
  | .sreset => 0x03
  | .log2n => 0x04
  | .fsize => 0x05
  | .ovl => 0x06
  | .ha => 0x07
  | .hs => 0x08
  | .again => 0x09
  | .ibase => 0x0A
  | .ilen => 0x0B
  | .obase => 0x0C
  | .olen => 0x0D
  | .rsbase => 0x0E
  | .rslen => 0x0F
  | .rdbase => 0x10
  | .rdlen => 0x11
  | .chbase => 0x12
  | .chstride => 0x13
  | .blen => 0x14
  | .afmt => 0x15
  | .nch => 0x16
  | .srate => 0x17
  | .bps => 0x18
  | .nsamp => 0x19
  | .datasize => 0x1A
  | .dataoff => 0x1B
  | .riffsz => 0x1C
  | .fmtsz => 0x1D
  | .byterate => 0x1E
  | .balign => 0x1F
  | .caRe => 0x20
  | .caIm => 0x21
  | .cbRe => 0x22
  | .cbIm => 0x23
  | .cwRe => 0x24
  | .cwIm => 0x25
  | .cpRe => 0x26
  | .cpIm => 0x27
  | .cqRe => 0x28
  | .cqIm => 0x29
  | .padlog2 => 0x2A
  | .padamt => 0x2B

/-- Access rights (10_state.md R30, column "access"). -/
inductive Access where
  /-- RW: host may read and write -/
  | readWrite
  /-- RO: a host write is refused -/
  | readOnly
  /-- WO: a host read is refused -/
  | writeOnly
deriving DecidableEq, Repr

/-- The access rights of each register (10_state.md R30). -/
def RegName.access : RegName → Access
  | .cmd => .writeOnly
  | .status => .readOnly
  | .errinfo => .readOnly
  | .sreset => .writeOnly
  | .log2n => .readWrite
  | .fsize => .readWrite
  | .ovl => .readWrite
  | .ha => .readOnly
  | .hs => .readWrite
  | .again => .readOnly
  | .ibase => .readWrite
  | .ilen => .readWrite
  | .obase => .readWrite
  | .olen => .readWrite
  | .rsbase => .readWrite
  | .rslen => .readWrite
  | .rdbase => .readWrite
  | .rdlen => .readWrite
  | .chbase => .readWrite
  | .chstride => .readWrite
  | .blen => .readWrite
  | .afmt => .readWrite
  | .nch => .readWrite
  | .srate => .readWrite
  | .bps => .readWrite
  | .nsamp => .readWrite
  | .datasize => .readWrite
  | .dataoff => .readWrite
  | .riffsz => .readOnly
  | .fmtsz => .readOnly
  | .byterate => .readOnly
  | .balign => .readOnly
  | .caRe => .readWrite
  | .caIm => .readWrite
  | .cbRe => .readWrite
  | .cbIm => .readWrite
  | .cwRe => .readWrite
  | .cwIm => .readWrite
  | .cpRe => .readOnly
  | .cpIm => .readOnly
  | .cqRe => .readOnly
  | .cqIm => .readOnly
  | .padlog2 => .readOnly
  | .padamt => .readOnly

/-- The width of each register in bits (10_state.md R30). -/
def RegName.width : RegName → Nat
  | .cmd => 32
  | .status => 64
  | .errinfo => 32
  | .sreset => 1
  | .log2n => 5
  | .fsize => 32
  | .ovl => 32
  | .ha => 32
  | .hs => 32
  | .again => 64
  | .ibase => 32
  | .ilen => 32
  | .obase => 32
  | .olen => 32
  | .rsbase => 32
  | .rslen => 32
  | .rdbase => 32
  | .rdlen => 32
  | .chbase => 32
  | .chstride => 32
  | .blen => 32
  | .afmt => 16
  | .nch => 16
  | .srate => 32
  | .bps => 16
  | .nsamp => 32
  | .datasize => 32
  | .dataoff => 32
  | .riffsz => 32
  | .fmtsz => 32
  | .byterate => 32
  | .balign => 16
  | .caRe => 64
  | .caIm => 64
  | .cbRe => 64
  | .cbIm => 64
  | .cwRe => 64
  | .cwIm => 64
  | .cpRe => 64
  | .cpIm => 64
  | .cqRe => 64
  | .cqIm => 64
  | .padlog2 => 5
  | .padamt => 32

/-- The value a host read of a register returns, zero-extended to 64 bits (10_state.md R30; STATUS by
R32); none for the write-only CMD and SRESET, whose read is refused (R31, R34). -/
def State.readReg (s : State) : RegName → Option (BitVec 64)
  | .cmd => none
  | .status => some s.statusWord
  | .errinfo => some (s.regs.errinfo.setWidth 64)
  | .sreset => none
  | .log2n => some (s.regs.log2n.setWidth 64)
  | .fsize => some (s.regs.fsize.setWidth 64)
  | .ovl => some (s.regs.ovl.setWidth 64)
  | .ha => some (s.regs.ha.setWidth 64)
  | .hs => some (s.regs.hs.setWidth 64)
  | .again => some s.regs.again
  | .ibase => some (s.regs.ibase.setWidth 64)
  | .ilen => some (s.regs.ilen.setWidth 64)
  | .obase => some (s.regs.obase.setWidth 64)
  | .olen => some (s.regs.olen.setWidth 64)
  | .rsbase => some (s.regs.rsbase.setWidth 64)
  | .rslen => some (s.regs.rslen.setWidth 64)
  | .rdbase => some (s.regs.rdbase.setWidth 64)
  | .rdlen => some (s.regs.rdlen.setWidth 64)
  | .chbase => some (s.regs.chbase.setWidth 64)
  | .chstride => some (s.regs.chstride.setWidth 64)
  | .blen => some (s.regs.blen.setWidth 64)
  | .afmt => some (s.regs.afmt.setWidth 64)
  | .nch => some (s.regs.nch.setWidth 64)
  | .srate => some (s.regs.srate.setWidth 64)
  | .bps => some (s.regs.bps.setWidth 64)
  | .nsamp => some (s.regs.nsamp.setWidth 64)
  | .datasize => some (s.regs.datasize.setWidth 64)
  | .dataoff => some (s.regs.dataoff.setWidth 64)
  | .riffsz => some (s.regs.riffsz.setWidth 64)
  | .fmtsz => some (s.regs.fmtsz.setWidth 64)
  | .byterate => some (s.regs.byterate.setWidth 64)
  | .balign => some (s.regs.balign.setWidth 64)
  | .caRe => some s.regs.ca.re
  | .caIm => some s.regs.ca.im
  | .cbRe => some s.regs.cb.re
  | .cbIm => some s.regs.cb.im
  | .cwRe => some s.regs.cw.re
  | .cwIm => some s.regs.cw.im
  | .cpRe => some s.regs.cp.re
  | .cpIm => some s.regs.cp.im
  | .cqRe => some s.regs.cq.re
  | .cqIm => some s.regs.cq.im
  | .padlog2 => some (s.regs.padlog2.setWidth 64)
  | .padamt => some (s.regs.padamt.setWidth 64)

/-- What a host write of `d` to a register does (20_memory.md R73): it stores the low bits of `d`
(10_state.md R30); CMD fills the slot (R31), SRESET resets when bit 0 is 1 (R34), LOG2N, FSIZE and OVL
clear CFGV (R35, R36). None for a read-only register, whose write is refused. -/
def State.writeReg (s : State) (d : BitVec 64) : RegName → Option State
  | .cmd => some { s with pending := some (d.setWidth 32) }
  | .status => none
  | .errinfo => none
  | .sreset => some (if d.getLsbD 0 then s.blockReset else s)
  | .log2n => some (State.clearCfgv { s with regs := { s.regs with log2n := d.setWidth 5 } })
  | .fsize => some (State.clearCfgv { s with regs := { s.regs with fsize := d.setWidth 32 } })
  | .ovl => some (State.clearCfgv { s with regs := { s.regs with ovl := d.setWidth 32 } })
  | .ha => none
  | .hs => some { s with regs := { s.regs with hs := d.setWidth 32 } }
  | .again => none
  | .ibase => some { s with regs := { s.regs with ibase := d.setWidth 32 } }
  | .ilen => some { s with regs := { s.regs with ilen := d.setWidth 32 } }
  | .obase => some { s with regs := { s.regs with obase := d.setWidth 32 } }
  | .olen => some { s with regs := { s.regs with olen := d.setWidth 32 } }
  | .rsbase => some { s with regs := { s.regs with rsbase := d.setWidth 32 } }
  | .rslen => some { s with regs := { s.regs with rslen := d.setWidth 32 } }
  | .rdbase => some { s with regs := { s.regs with rdbase := d.setWidth 32 } }
  | .rdlen => some { s with regs := { s.regs with rdlen := d.setWidth 32 } }
  | .chbase => some { s with regs := { s.regs with chbase := d.setWidth 32 } }
  | .chstride => some { s with regs := { s.regs with chstride := d.setWidth 32 } }
  | .blen => some { s with regs := { s.regs with blen := d.setWidth 32 } }
  | .afmt => some { s with regs := { s.regs with afmt := d.setWidth 16 } }
  | .nch => some { s with regs := { s.regs with nch := d.setWidth 16 } }
  | .srate => some { s with regs := { s.regs with srate := d.setWidth 32 } }
  | .bps => some { s with regs := { s.regs with bps := d.setWidth 16 } }
  | .nsamp => some { s with regs := { s.regs with nsamp := d.setWidth 32 } }
  | .datasize => some { s with regs := { s.regs with datasize := d.setWidth 32 } }
  | .dataoff => some { s with regs := { s.regs with dataoff := d.setWidth 32 } }
  | .riffsz => none
  | .fmtsz => none
  | .byterate => none
  | .balign => none
  | .caRe => some { s with regs := { s.regs with ca := { s.regs.ca with re := d } } }
  | .caIm => some { s with regs := { s.regs with ca := { s.regs.ca with im := d } } }
  | .cbRe => some { s with regs := { s.regs with cb := { s.regs.cb with re := d } } }
  | .cbIm => some { s with regs := { s.regs with cb := { s.regs.cb with im := d } } }
  | .cwRe => some { s with regs := { s.regs with cw := { s.regs.cw with re := d } } }
  | .cwIm => some { s with regs := { s.regs with cw := { s.regs.cw with im := d } } }
  | .cpRe => none
  | .cpIm => none
  | .cqRe => none
  | .cqIm => none
  | .padlog2 => none
  | .padamt => none

/-! ## Address map -/

/-- A location of the address map (20_memory.md R70). -/
inductive Location where
  /-- a register -/
  | reg (r : RegName)
  /-- entry `k` of X0 (`hi = false`) or X1 (`hi = true`), real or imaginary part -/
  | bank (hi : Bool) (k : Nat) (im : Bool)
  /-- `WM[n]` -/
  | wm (n : Nat)
  /-- `PV[k]` -/
  | pv (k : Nat)
  /-- `CU[k]` -/
  | cu (k : Nat)
  /-- `RM[a]` -/
  | rm (a : Nat)
  /-- bytes `BM[b] .. BM[b+7]` -/
  | bm (b : Nat)
  /-- `TW[e]`, real or imaginary part -/
  | tw (e : Nat) (im : Bool)
deriving DecidableEq, Repr

/-- A location when the condition on its index holds. -/
def validWhen (ok : Prop) [Decidable ok] (l : Location) : Option Location :=
  if ok then some l else none

/-- The location an aligned byte address names, none where the address is not valid (20_memory.md
R70): the space is `haddr[31:28]`, the offset `haddr[27:0]`. -/
def locate (z : Sizes) (haddr : BitVec 32) : Option Location :=
  let off := haddr.toNat % 2 ^ 28
  let nmax := 2 ^ z.log2nMax
  let im := decide (off % 16 = 8)
  match haddr.toNat / 2 ^ 28 with
  | 0x0 => (RegName.ofNumber (off / 8)).map Location.reg
  | 0x1 => validWhen (off / 16 < nmax) (.bank false (off / 16) im)
  | 0x2 => validWhen (off / 16 < nmax) (.bank true (off / 16) im)
  | 0x3 => validWhen (off / 8 < nmax) (.wm (off / 8))
  | 0x4 => validWhen (off / 8 < nmax) (.pv (off / 8))
  | 0x5 => validWhen (off / 8 < nmax) (.cu (off / 8))
  | 0x6 => validWhen (off / 8 < z.rmWords) (.rm (off / 8))
  | 0x7 => validWhen (off + 8 ≤ z.bmBytes) (.bm off)
  | 0x8 => validWhen (off / 16 < nmax / 2) (.tw (off / 16) im)
  | _ => none

/-- Access rights by location (20_memory.md R71, 10_state.md R30). -/
def Location.access : Location → Access
  | .reg r => r.access
  | .wm _ => .readOnly
  | .tw _ _ => .readOnly
  | .bank _ _ _ => .readWrite
  | .pv _ => .readWrite
  | .cu _ => .readWrite
  | .rm _ => .readWrite
  | .bm _ => .readWrite

/-- The part of a complex value. -/
def Cplx.part (im : Bool) (z : Cplx) : F64 := if im then z.im else z.re

/-- Store one part of entry `k` of a bank. -/
def Bank.setPart (b : Bank) (k : Nat) (im : Bool) (v : F64) : Bank :=
  if im then { b with im := b.im.set k v } else { b with re := b.re.set k v }

/-- An accepted read (20_memory.md R73): a register zero-extended, or the 64 bits stored, for BM eight
bytes packed little-endian (R64). It changes no state. -/
def State.readLocation (s : State) : Location → Option (BitVec 64)
  | .reg r => s.readReg r
  | .bank hi k im => some (Cplx.part im ((if hi then s.x1 else s.x0).get k))
  | .wm n => some (s.wm.get n)
  | .pv k => some (s.pv.get k)
  | .cu k => some (s.cu.get k)
  | .rm a => some (s.rm.get a)
  | .bm b => some (BitVec.ofNat 64 (s.bm.readLE b 8))
  | .tw e im => some (Cplx.part im (twiddle s.sizes.log2nMax e))

/-- An accepted write (20_memory.md R73): the low bits of the data to a register with its side
effects, or the 64 bits to a memory, with no other effect. -/
def State.writeLocation (s : State) (d : BitVec 64) : Location → Option State
  | .reg r => s.writeReg d r
  | .bank hi k im =>
    some (if hi then { s with x1 := Bank.setPart s.x1 k im d }
      else { s with x0 := Bank.setPart s.x0 k im d })
  | .wm _ => none
  | .pv k => some { s with pv := s.pv.set k d }
  | .cu k => some { s with cu := s.cu.set k d }
  | .rm a => some { s with rm := s.rm.set a d }
  | .bm b => some { s with bm := s.bm.writeLE b 8 d.toNat }
  | .tw _ _ => none

/-! ## Refusals -/

/-- The direction of an access is against the rights of the location (20_memory.md R72 test 3). -/
def Location.forbids (l : Location) (write : Bool) : Bool :=
  if write then decide (l.access = .readOnly) else decide (l.access = .writeOnly)

/-- The accesses allowed while BUSY = 1: a read of STATUS, a read of ERRINFO, a write to SRESET
(20_memory.md R72 test 4). -/
def Location.allowedWhileBusy (l : Location) (write : Bool) : Bool :=
  if write then decide (l = .reg .sreset)
  else decide (l = .reg .status) || decide (l = .reg .errinfo)

/-- The five tests of 20_memory.md R72 in their order: the location of an access that is performed,
none for one that is refused. -/
def State.accepts (s : State) (haddr : BitVec 32) (write : Bool) : Option Location :=
  if haddr.toNat % 8 ≠ 0 then none
  else
    match locate s.sizes haddr with
    | none => none
    | some l =>
      if l.forbids write then none
      else if s.busy && !l.allowedWhileBusy write then none
      else if write && decide (l = .reg .cmd) && s.err then none
      else some l

/-- The answer to a read. -/
def State.portRead (s : State) (haddr : BitVec 32) : BusResponse :=
  match s.accepts haddr false with
  | none => .refused
  | some l =>
    match s.readLocation l with
    | none => .refused
    | some v => .data v

/-- The state after a write, and the answer to it. A refused write changes nothing. -/
def State.portWrite (s : State) (haddr : BitVec 32) (d : BitVec 64) : State × BusResponse :=
  match s.accepts haddr true with
  | none => (s, .refused)
  | some l =>
    match s.writeLocation d l with
    | none => (s, .refused)
    | some t => (t, .done)

/-! ## One step of the HOST agent -/

/-- One step of the host's script (30_encoding.md R100, R101; log entry 6). A `wait` reads STATUS and
stays where it is while BUSY is 1. The reset input has the effect of 70_reset_and_hazards.md R270 and
no answer on the port. -/
def State.hostStep (s : State) : State :=
  match s.script with
  | [] => s
  | .read haddr :: rest => { s with script := rest, resp := some (s.portRead haddr) }
  | .write haddr d :: rest =>
    { (s.portWrite haddr d).1 with script := rest, resp := some (s.portWrite haddr d).2 }
  | .wait :: rest =>
    { s with script := if s.busy then s.script else rest, resp := some (.data s.statusWord) }
  | .resetInput :: rest => { s.blockReset with script := rest }

/-! ## Script notation (30_encoding.md R100, R101) -/

/-- The byte address of register number `r` (20_memory.md R70). -/
def regAddr (r : Nat) : BitVec 32 := BitVec.ofNat 32 (8 * r)

/-- The byte address of word `i` of the space `sp` of 64-bit words (20_memory.md R70). -/
def wordAddr (sp i : Nat) : BitVec 32 := BitVec.ofNat 32 (sp * 2 ^ 28 + 8 * i)

/-- `cmd C`: the word to CMD. -/
def scriptCmd (w : BitVec 32) : List HostStep := [.write (regAddr 0x00) (w.setWidth 64)]

/-- `run C`: `cmd C`, then `wait`. -/
def scriptRun (w : BitVec 32) : List HostStep := scriptCmd w ++ [.wait]

/-- `wr NAME, v` for the register with number `r`. -/
def scriptWrReg (r : Nat) (v : BitVec 64) : List HostStep := [.write (regAddr r) v]

/-- `rd NAME` for the register with number `r`. -/
def scriptRdReg (r : Nat) : List HostStep := [.read (regAddr r)]

/-- `wr SPACE[i], v` for a space of 64-bit words. -/
def scriptWrWord (sp i : Nat) (v : BitVec 64) : List HostStep := [.write (wordAddr sp i) v]

/-- `wr X0[k], (re, im)` or `wr X1[k], (re, im)`: two writes, `.re` then `.im`. -/
def scriptWrBank (hi : Bool) (k : Nat) (z : Cplx) : List HostStep :=
  [.write (wordAddr (if hi then 2 else 1) (2 * k)) z.re,
   .write (wordAddr (if hi then 2 else 1) (2 * k + 1)) z.im]

/-- `fill SPACE[a .. a+n-1], v`. -/
def scriptFill (sp a : Nat) (v : BitVec 64) : Nat → List HostStep
  | 0 => []
  | n + 1 => scriptFill sp a v n ++ scriptWrWord sp (a + n) v

/-- `reset`: 1 to SRESET. -/
def scriptReset : List HostStep := scriptWrReg 0x03 1

end Sys2Proof.Machine
end

