-- ==== Sys2Proof/Machine/Engine.lean ====
section
/-!
DEFINITION. Scheduling of the two agents (10_state.md R20) and what happens to an illegal word
(60_exceptions.md R241). Step.lean joins them with `exec`.
-/

namespace Sys2Proof.Machine

/-- The agent the schedule names for this step; the ENGINE once the schedule has run out, so that a
pending command is completed after finitely many steps (10_state.md R20, log entry 7). -/
def State.scheduled (s : State) : Agent :=
  match s.sched with
  | [] => .engine
  | a :: _ => a

/-- The agent that moves: the scheduled one where it has a step, else the other where it has one. The
ENGINE has a step exactly when the slot is full, the HOST when its script is not at its end. -/
def State.mover (s : State) : Option Agent :=
  match s.scheduled with
  | .engine => if s.busy then some .engine else if s.script = [] then none else some .host
  | .host => if s.script = [] then (if s.busy then some .engine else none) else some .host

/-- The step's turn is taken from the schedule. -/
def State.passTurn (s : State) : State := { s with sched := s.sched.tail }

/-- The slot filled with `w`, and the turns of the HOST that would come before the ENGINE's dropped:
the state whose next step is the ENGINE's, on `w`. -/
def State.withPending (s : State) (w : BitVec 32) : State :=
  { s with
    pending := some w
    sched := s.sched.dropWhile (fun a => decide (a = .host)) }

end Sys2Proof.Machine
end

