-- ==== Sys2Proof/Machine/Step.lean ====
section
/-!
DEFINITION. The step relation of 10_state.md R20 as one function: an ENGINE step on the pending word,
a HOST step through the port, or nothing to do.
-/

namespace Sys2Proof.Machine

/-- The ENGINE step (10_state.md R20, 30_encoding.md R99): decode the pending word; an illegal one is
the fault entry with E_ILLEGAL (60_exceptions.md R241), a command is performed. -/
def engineStep (w : BitVec 32) (s : State) : Host.Outcome State Fault Refusal :=
  match decode w with
  | .illegal _ => .next (s.faultEntry .illegal)
  | .command i => exec i s

/-- One step of the machine (10_state.md R20). When neither agent has a step the machine is idle and
the state stays as it is (log entry 7). -/
def step (s : State) : Host.Outcome State Fault Refusal :=
  match s.mover with
  | none => .next s
  | some .host => .next s.passTurn.hostStep
  | some .engine =>
    match s.pending with
    | none => .next s
    | some w => engineStep w s.passTurn

/-- `s` with the command word `w` accepted into the slot and the ENGINE's turn next, so that the very
next step executes it (log entry 8). A command is one 32-bit word (30_encoding.md R90). -/
def State.withFetchWord (s : State) (nbits w : Nat) : State :=
  s.withPending (BitVec.ofNat 32 (w % 2 ^ nbits))

end Sys2Proof.Machine
end

