-- ==== Sys2Proof/Safety.lean ====
section
/-!
DEFINITION. The terms in which claims about the machine are stated: what can be read of a state, the
frame of a command, the invariants, and the accuracy properties of the configuration functions.
-/

namespace Sys2Proof.Machine

/-! ## Reading a state -/

/-- One entry of one of the memories of 10_state.md R22 to R26. -/
inductive Place where
  /-- entry `k` of X0 (`hi = false`) or X1 (`hi = true`), real or imaginary part -/
  | bank (hi : Bool) (k : Nat) (im : Bool)
  /-- `WM[n]` -/
  | wm (n : Nat)
  /-- `PV[k]` -/
  | pv (k : Nat)
  /-- `CU[k]` -/
  | cu (k : Nat)
  /-- `RM[a]` -/
  | rm (a : Nat)
  /-- `BM[b]` -/
  | bm (b : Nat)
deriving DecidableEq, Repr

/-- The model's read of one memory entry; a byte is zero-extended. -/
def State.entry (s : State) : Place → BitVec 64
  | .bank hi k im => Cplx.part im ((if hi then s.x1 else s.x0).get k)
  | .wm n => s.wm.get n
  | .pv k => s.pv.get k
  | .cu k => s.cu.get k
  | .rm a => s.rm.get a
  | .bm b => (s.bm.get b).setWidth 64

/-- The place is an entry below `n` of the bank that is inactive in `s`, which is where a whole-frame
command writes (10_state.md R22). -/
abbrev State.InactiveBelow (s : State) (n : Nat) (p : Place) : Prop :=
  ∃ k im, k < n ∧ p = .bank (!s.xsel) k im

/-- The place is an entry below `n` of either bank. -/
abbrev BankBelow (n : Nat) (p : Place) : Prop := ∃ hi k im, k < n ∧ p = .bank hi k im

/-- No register. -/
abbrev noReg (_ : RegName) : Prop := False

/-- No memory entry. -/
abbrev noPlace (_ : Place) : Prop := False

/-! ## Frames -/

/-- `t` differs from `s` in no register outside `R` (STATUS apart, whose bits are named one by one) and
in no memory entry outside `P`; the implementation and the agents' side are the same. -/
structure Untouched (s t : State) (R : RegName → Prop) (P : Place → Prop) : Prop where
  /-- every other register reads as before -/
  regs : ∀ r, r ≠ .status → ¬ R r → t.readReg r = s.readReg r
  /-- every other memory entry reads as before -/
  entries : ∀ p, ¬ P p → t.entry p = s.entry p
  /-- the implementation's sizes are the same -/
  sizes : t.sizes = s.sizes
  /-- the host's script is the same -/
  script : t.script = s.script
  /-- the schedule is the same -/
  sched : t.sched = s.sched
  /-- the port's latest answer is the same -/
  resp : t.resp = s.resp

/-- `t` is a state in which a command begun in `s` has completed: the slot is empty, no fault was
recorded, and nothing outside the named registers and entries has changed; CFGV and XSEL are named
apart. -/
structure Completed (s t : State) (R : RegName → Prop) (P : Place → Prop) : Prop where
  /-- the slot is empty -/
  slot : t.pending = none
  /-- ERR is as before -/
  err : t.err = s.err
  /-- ERRCODE is as before -/
  errCode : t.errCode = s.errCode
  /-- nothing else changed -/
  untouched : Untouched s t R P

/-- `t` is `s` after the fault entry of 60_exceptions.md R246 with code `e` on the pending word. -/
structure Faulted (s t : State) (e : ErrCode) : Prop where
  /-- the slot is empty -/
  slot : t.pending = none
  /-- ERR is set -/
  err : t.err = true
  /-- ERRCODE holds the code -/
  errCode : t.errCode = e.code
  /-- ERRINFO holds the word -/
  errinfo : ∀ w, s.pending = some w → t.regs.errinfo = w
  /-- CFGV is as before -/
  cfgv : t.cfgv = s.cfgv
  /-- XSEL is as before -/
  xsel : t.xsel = s.xsel
  /-- nothing else changed -/
  untouched : Untouched s t (· = .errinfo) noPlace

/-- `t` is `s` after the reset of 70_reset_and_hazards.md R270, as far as the block goes. -/
structure WasReset (s t : State) : Prop where
  /-- the slot is empty -/
  slot : t.pending = none
  /-- every register that can be read holds 0, the STATUS view among them -/
  regs : ∀ r, r ≠ .cmd → r ≠ .sreset → t.readReg r = some 0
  /-- every memory entry is as before -/
  entries : ∀ p, t.entry p = s.entry p
  /-- the implementation's sizes are the same -/
  sizes : t.sizes = s.sizes

/-- The commands of a list performed one after the other, each on the state the one before it left. -/
def execAll : List Instr → State → Host.Outcome State Fault Refusal
  | [], s => .next s
  | i :: is, s =>
    match exec i s with
    | .next t => execAll is t
    | .fault f => .fault f
    | .refused r => .refused r

/-! ## The port -/

/-- The byte address of a location: the space in bits 31:28, the offset below (20_memory.md R70). -/
def Location.address : Location → Nat
  | .reg r => 8 * r.number
  | .bank hi k im => (if hi then 2 else 1) * 2 ^ 28 + 16 * k + (if im then 8 else 0)
  | .wm n => 3 * 2 ^ 28 + 8 * n
  | .pv k => 4 * 2 ^ 28 + 8 * k
  | .cu k => 5 * 2 ^ 28 + 8 * k
  | .rm a => 6 * 2 ^ 28 + 8 * a
  | .bm b => 7 * 2 ^ 28 + b
  | .tw e im => 8 * 2 ^ 28 + 16 * e + (if im then 8 else 0)

/-- The location exists in an implementation of the given sizes and an aligned access reaches it
(20_memory.md R70, column "valid when"). -/
def Location.Valid (z : Sizes) : Location → Prop
  | .reg _ => True
  | .bank _ k _ => k < 2 ^ z.log2nMax
  | .wm n => n < 2 ^ z.log2nMax
  | .pv k => k < 2 ^ z.log2nMax
  | .cu k => k < 2 ^ z.log2nMax
  | .rm a => a < z.rmWords
  | .bm b => b % 8 = 0 ∧ b + 8 ≤ z.bmBytes
  | .tw e _ => e < 2 ^ z.log2nMax / 2

/-- The number a read of a register gives (10_state.md R30 to R43), zero-extended to 64 bits
(20_memory.md R73); nothing is read of the write-only CMD and SRESET. -/
def State.registerValue (s : State) : RegName → Nat
  | .cmd => 0
  | .status => s.statusWord.toNat
  | .errinfo => s.regs.errinfo.toNat
  | .sreset => 0
  | .log2n => s.regs.log2n.toNat
  | .fsize => s.regs.fsize.toNat
  | .ovl => s.regs.ovl.toNat
  | .ha => s.regs.ha.toNat
  | .hs => s.regs.hs.toNat
  | .again => s.regs.again.toNat
  | .ibase => s.regs.ibase.toNat
  | .ilen => s.regs.ilen.toNat
  | .obase => s.regs.obase.toNat
  | .olen => s.regs.olen.toNat
  | .rsbase => s.regs.rsbase.toNat
  | .rslen => s.regs.rslen.toNat
  | .rdbase => s.regs.rdbase.toNat
  | .rdlen => s.regs.rdlen.toNat
  | .chbase => s.regs.chbase.toNat
  | .chstride => s.regs.chstride.toNat
  | .blen => s.regs.blen.toNat
  | .afmt => s.regs.afmt.toNat
  | .nch => s.regs.nch.toNat
  | .srate => s.regs.srate.toNat
  | .bps => s.regs.bps.toNat
  | .nsamp => s.regs.nsamp.toNat
  | .datasize => s.regs.datasize.toNat
  | .dataoff => s.regs.dataoff.toNat
  | .riffsz => s.regs.riffsz.toNat
  | .fmtsz => s.regs.fmtsz.toNat
  | .byterate => s.regs.byterate.toNat
  | .balign => s.regs.balign.toNat
  | .caRe => s.regs.ca.re.toNat
  | .caIm => s.regs.ca.im.toNat
  | .cbRe => s.regs.cb.re.toNat
  | .cbIm => s.regs.cb.im.toNat
  | .cwRe => s.regs.cw.re.toNat
  | .cwIm => s.regs.cw.im.toNat
  | .cpRe => s.regs.cp.re.toNat
  | .cpIm => s.regs.cp.im.toNat
  | .cqRe => s.regs.cq.re.toNat
  | .cqIm => s.regs.cq.im.toNat
  | .padlog2 => s.regs.padlog2.toNat
  | .padamt => s.regs.padamt.toNat

/-- The number an accepted read of a location gives (20_memory.md R73, R64). -/
def State.valueAt (s : State) : Location → Nat
  | .reg r => s.registerValue r
  | .bank hi k im => (Cplx.part im ((if hi then s.x1 else s.x0).get k)).toNat
  | .wm n => (s.wm.get n).toNat
  | .pv k => (s.pv.get k).toNat
  | .cu k => (s.cu.get k).toNat
  | .rm a => (s.rm.get a).toNat
  | .bm b => ((List.range 8).map (fun i => (s.bm.get (b + i)).toNat * 256 ^ i)).sum
  | .tw e im => (Cplx.part im (twiddle s.sizes.log2nMax e)).toNat

/-- The memory entries a location consists of: one, or eight bytes; none for a register or the ROM. -/
def Location.Holds : Location → Place → Prop
  | .reg _, _ => False
  | .bank hi k im, p => p = .bank hi k im
  | .wm n, p => p = .wm n
  | .pv k, p => p = .pv k
  | .cu k, p => p = .cu k
  | .rm a, p => p = .rm a
  | .bm b, p => ∃ i, i < 8 ∧ p = .bm (b + i)
  | .tw _ _, _ => False

/-- The host access is one of those that 20_memory.md R72 refuses: its five tests. -/
def State.Refuses (s : State) (haddr : BitVec 32) (write : Bool) : Prop :=
  haddr.toNat % 8 ≠ 0 ∨
    (∀ l : Location, l.Valid s.sizes → l.address ≠ haddr.toNat) ∨
    (∃ l : Location, l.Valid s.sizes ∧ l.address = haddr.toNat ∧
      l.access = if write then .readOnly else .writeOnly) ∨
    (s.pending.isSome = true ∧
      ¬ (write = false ∧ haddr.toNat = 8 * RegName.status.number) ∧
      ¬ (write = false ∧ haddr.toNat = 8 * RegName.errinfo.number) ∧
      ¬ (write = true ∧ haddr.toNat = 8 * RegName.sreset.number)) ∨
    (write = true ∧ haddr.toNat = 8 * RegName.cmd.number ∧ s.err = true)

/-! ## Waveform files -/

/-- A descriptor that passes the check of 43_codec.md R181. -/
structure DescriptorOk (a b n : Nat) : Prop where
  /-- a supported format tag -/
  tag : a = 1 ∨ a = 3 ∨ a = 0xFFFE
  /-- a float depth -/
  float : a = 3 → b = 32 ∨ b = 64
  /-- an integer depth -/
  integer : a ≠ 3 → b = 8 ∨ b = 16 ∨ b = 24 ∨ b = 32
  /-- at least one channel -/
  channels : n ≠ 0

/-- Where the scan of an extensible file begins (43_codec.md R183 lines 13 to 16): `c0` is behind the
extension; a "fact" sub-chunk that stands there is skipped. -/
structure ScanStart (bm : Memory 8) (bl c : Nat) : Prop where
  /-- a "fact" sub-chunk is skipped by its own size -/
  fact : 38 + bm.readLE 36 2 + 8 ≤ bl → bm.tagAt (38 + bm.readLE 36 2) = tagFact →
    c = 38 + bm.readLE 36 2 + 8 + bm.readLE (38 + bm.readLE 36 2 + 4) 4
  /-- otherwise the scan begins right behind the extension -/
  other : ¬ (38 + bm.readLE 36 2 + 8 ≤ bl ∧ bm.tagAt (38 + bm.readLE 36 2) = tagFact) →
    c = 38 + bm.readLE 36 2

/-- The header of the data sub-chunk is found at `c` (43_codec.md R183 lines 10 to 23): at 36 in the
plain layouts, at the first match from the start of the scan in the extensible one. -/
structure DataHeaderAt (bm : Memory 8) (bl a c : Nat) : Prop where
  /-- the tag and the size are inside the file -/
  fits : c + 8 ≤ bl
  /-- the tag -/
  tag : bm.tagAt c = tagData
  /-- the fixed place -/
  plain : a ≠ 0xFFFE → c = 36
  /-- the first match -/
  scan : a = 0xFFFE → 38 ≤ bl ∧ ∃ start, ScanStart bm bl start ∧ start ≤ c ∧
    ∀ d, start ≤ d → d < c → bm.tagAt d ≠ tagData

/-- The three tags of the container header (43_codec.md R180). -/
structure ContainerOk (bm : Memory 8) : Prop where
  /-- ChunkID -/
  riff : bm.tagAt 0 = tagRIFF
  /-- Format -/
  wave : bm.tagAt 8 = tagWAVE
  /-- Subchunk1ID -/
  fmt : bm.tagAt 12 = tagFmt

/-! ## Invariants -/

/-- Every memory is in its canonical form. -/
structure State.Canonical (s : State) : Prop where
  /-- X0 -/
  x0 : s.x0.wf
  /-- X1 -/
  x1 : s.x1.wf
  /-- WM -/
  wm : s.wm.wf
  /-- PV -/
  pv : s.pv.wf
  /-- CU -/
  cu : s.cu.wf
  /-- RM -/
  rm : s.rm.wf
  /-- BM -/
  bm : s.bm.wf

/-- The implementation is a legal one (00_scope.md R5) and no memory lists an entry beyond its size. -/
structure State.Bounded (s : State) : Prop where
  /-- the constraints on the sizes -/
  legal : s.sizes.Legal
  /-- X0 -/
  x0 : s.x0.inside s.nmax
  /-- X1 -/
  x1 : s.x1.inside s.nmax
  /-- WM -/
  wm : s.wm.inside s.nmax
  /-- PV -/
  pv : s.pv.inside s.nmax
  /-- CU -/
  cu : s.cu.inside s.nmax
  /-- RM -/
  rm : s.rm.inside s.sizes.rmWords
  /-- BM -/
  bm : s.bm.inside s.sizes.bmBytes

/-- The fault record of 60_exceptions.md R246 and R252: while ERR is set no command is pending and
ERRCODE is one of the twelve codes; while it is clear ERRCODE and ERRINFO hold 0. -/
structure State.FaultRecord (s : State) : Prop where
  /-- no command is pending in the error state -/
  idle : s.err = true → s.pending = none
  /-- the code is one of R242 -/
  code : s.err = true → ∃ e : ErrCode, s.errCode = e.code
  /-- no code without a fault -/
  noCode : s.err = false → s.errCode = 0
  /-- no word without a fault (10_state.md R33) -/
  noWord : s.err = false → s.regs.errinfo = 0

/-- What CFGV = 1 promises to the vocoder commands (42_vocoder.md R162): the registers and the window
are those a `PVCFG` on FSIZE and OVL leaves. -/
structure State.Configured (s : State) : Prop where
  /-- the overlap factor is positive -/
  positive : 0 < s.overlap
  /-- the frame is longer than the overlap factor -/
  longer : s.overlap < (s.regs.fsize.toNat : Int)
  /-- the transform length is the frame size, a power of two -/
  length : s.regs.fsize.toNat = s.len
  /-- the frame fits the banks -/
  fits : s.lenFits
  /-- HA -/
  hop : (s.hopA : Int) = s.len / s.overlap
  /-- AGAIN -/
  gain : s.regs.again = fdiv fOne (fsqrt (fdiv (f64 s.overlap) fTwo))
  /-- WM -/
  window : ∀ n, n < s.len → s.wm.get n = windowWeight n s.len

/-! ## Rounding -/

/-- `r` are the magnitude bits of the exact magnitude `x`, in units of the smallest subnormal, rounded
to nearest, ties to even (40_numerics.md R110, R111), in a format with `fb` fraction bits whose infinity
has the magnitude bits `inf`. -/
structure NearestEven (fb inf : Nat) (x : ℝ) (r : Nat) : Prop where
  /-- never a NaN -/
  bound : r ≤ inf
  /-- infinity exactly from half a unit in the last place above the largest finite magnitude on -/
  overflow : r = inf ↔ (2 ^ (fb + 2) - 1) * 2 ^ (inf / 2 ^ fb - 3) ≤ x
  /-- no finite magnitude is nearer -/
  nearest : r < inf → ∀ m, m < inf → |(magUnits fb r : ℝ) - x| ≤ |(magUnits fb m : ℝ) - x|
  /-- of two that are equally near, the even one -/
  even : r < inf → ∀ m, m < inf → m ≠ r → |(magUnits fb r : ℝ) - x| = |(magUnits fb m : ℝ) - x| →
    r % 2 = 0

/-- `k` is the integer nearest to the value of `v`, ties to the even one (40_numerics.md R115). -/
structure NearestInt (v : F64) (k : Int) : Prop where
  /-- at most half away -/
  nearest : 2 * |fval v - k * 2 ^ 1074| ≤ 2 ^ 1074
  /-- even where it is exactly half away -/
  even : 2 * |fval v - k * 2 ^ 1074| = 2 ^ 1074 → k % 2 = 0

/-- The value of a pattern that is not a NaN, in units, with the infinities beyond every finite value
(40_numerics.md R120). -/
noncomputable def extendedValue (v : F64) : EReal :=
  if isInf v then (if fsign v then ⊥ else ⊤) else ((fval v : ℝ) : EReal)

/-! ## Accuracy of the configuration functions

The properties that bound an error (log entry 5). Values are in units of 2^-1074, so that the bound
`2^-52` reads `2^1022`. No definition of the machine uses them; a claim that needs one takes it as a
hypothesis (40_numerics.md R132, R133). -/

/-- COS-ACC at `x` (40_numerics.md R128). -/
def CosAcc (x : F64) : Prop :=
  isFinite x = true →
    |(fval (cfgCos x) : ℝ) - 2 ^ 1074 * Real.cos ((fval x : ℝ) / 2 ^ 1074)| ≤ 2 ^ 1022

/-- SIN-ACC at `x` (40_numerics.md R129). -/
def SinAcc (x : F64) : Prop :=
  isFinite x = true →
    |(fval (cfgSin x) : ℝ) - 2 ^ 1074 * Real.sin ((fval x : ℝ) / 2 ^ 1074)| ≤ 2 ^ 1022

/-- ARG-ACC at finite arguments with a non-zero imaginary part (40_numerics.md R130); with a zero one
ARG-AXIS gives the value. -/
def ArgAcc (re im : F64) : Prop :=
  isFinite re = true → isFinite im = true → isZero im = false →
    |(fval (cfgArg re im) : ℝ) - 2 ^ 1074 * Complex.arg ⟨(fval re : ℝ), (fval im : ℝ)⟩| ≤ 2 ^ 1023

/-- The modulus of two finite values as MAG-ACC takes it, `sqrt(re² + im²)` computed exactly, in units. -/
noncomputable def exactModulus (re im : F64) : ℝ := √((fval re : ℝ) ^ 2 + (fval im : ℝ) ^ 2)

/-- The value `v` is one MAG-ACC allows at finite arguments (40_numerics.md R131): within `2^-52`
relative of the exact modulus, or +∞ where that exceeds the largest finite value. -/
def MagWithin (re im v : F64) : Prop :=
  (isFinite v = true ∧ |(fval v : ℝ) - exactModulus re im| * 2 ^ 52 ≤ exactModulus re im) ∨
    (v = pack false infMag ∧ ((2 ^ 53 - 1) * 2 ^ 2045 : ℝ) < exactModulus re im)

/-- MAG-ACC at finite arguments (40_numerics.md R131), whatever their modulus. -/
def MagAcc (re im : F64) : Prop :=
  isFinite re = true → isFinite im = true → MagWithin re im (cfgMag re im)

/-- TW-ACC at entry `e` of the twiddle ROM of a core with LOG2N_MAX = `lmax` (40_numerics.md R127). -/
def TwAcc (lmax e : Nat) : Prop :=
  |(fval (twiddle lmax e).re : ℝ) - 2 ^ 1074 * Real.cos (2 * Real.pi * e / 2 ^ lmax)| ≤ 2 ^ 1021 ∧
    |(fval (twiddle lmax e).im : ℝ) + 2 ^ 1074 * Real.sin (2 * Real.pi * e / 2 ^ lmax)| ≤ 2 ^ 1021

/-- The free values are accurate at every argument and every used entry of the ROM. -/
structure Accurate (lmax : Nat) : Prop where
  /-- COS-ACC -/
  cos : ∀ x, CosAcc x
  /-- SIN-ACC -/
  sin : ∀ x, SinAcc x
  /-- ARG-ACC -/
  arg : ∀ re im, ArgAcc re im
  /-- MAG-ACC wherever some binary64 value meets it; below a modulus of `2^-1023` there are arguments
  at which none does, and no function could (log entry 5) -/
  mag : ∀ re im, (∃ v, MagWithin re im v) → MagAcc re im
  /-- TW-ACC -/
  tw : ∀ e, e < 2 ^ (lmax - 1) → TwAcc lmax e

end Sys2Proof.Machine
end

