-- ==== Sys2Proof/Certificates/Slice0/Obligations.lean ====
section
/-!
DEFINITION. The statements for the provers. OBLIGATIONS.json lists them with the rules of spec/ they
come from. Every statement quantifies over all states, so over every implementation and every memory
contents after power-on; a premise on the state names what it needs.
-/

open Sys2Proof Sys2Proof.Machine

/-! ## Command words -/

/-- 30_encoding.md R90 to R92: every field of a well-formed command survives the encoding. -/
def Obligations.DecodeOfEncode : Prop :=
  ∀ i : Instr, i.wellFormed = true → decode (encode i) = .command i

/-- 30_encoding.md R99: a legal word is determined by its command. -/
def Obligations.EncodeOfDecode : Prop :=
  ∀ (w : BitVec 32) (i : Instr), decode w = .command i → i.wellFormed = true ∧ encode i = w

/-- 30_encoding.md R94, R95: the decoder, written from the formats, selects exactly the rows of the
opcode map, which are disjoint. -/
def Obligations.DecodeFollowsOpcodeMap : Prop :=
  (∀ w, ∀ r ∈ opcodeMap, ∀ r' ∈ opcodeMap, r.Selects w → r'.Selects w → r = r') ∧
  (∀ w i, decode w = .command i → ∃ r ∈ opcodeMap, r.Selects w ∧ r.mnemonic = i.mnemonic) ∧
  (∀ w, ∀ r ∈ opcodeMap, r.Selects w → ∃ i, decode w = .command i ∧ i.mnemonic = r.mnemonic)

/-- 30_encoding.md R98: the words its examples give, and three words R95 calls illegal. -/
def Obligations.SampleCommandWords : Prop :=
  decode 0x13000002#32 = .command (.stage 2 false) ∧
  decode 0x13000102#32 = .command (.stage 2 true) ∧
  decode 0x22000005#32 = .command (.framew 5) ∧
  decode 0x170003E8#32 = .command (.npow2 1000) ∧
  decode 0x15000000#32 = .command .fft ∧
  decode 0x01000000#32 = .illegal .unassignedOpcode ∧
  decode 0x15000001#32 = .illegal .nonZeroReserved ∧
  decode 0x13000022#32 = .illegal .nonZeroReserved

/-! ## Steps -/

/-- 10_state.md R20, 30_encoding.md R99: when the ENGINE moves and the pending word decodes to `i`, the
step is `exec i`, with the turn taken from the schedule. The ENGINE moves unless the HOST is scheduled
and has an access to make. -/
def Obligations.StepRunsPendingCommand : Prop :=
  ∀ (s : State) (w : BitVec 32) (i : Instr),
    s.pending = some w → decode w = .command i → s.sched.head? ≠ some .host ∨ s.script = [] →
    step s = exec i { s with sched := s.sched.tail }

/-- 60_exceptions.md R241: the CMD write that delivers an illegal word is accepted, sets BUSY and leaves
ERR clear; the fault is raised by the ENGINE's step on the word, which is the fault entry with code
0x01. That the schedule lets the ENGINE move, and loses its head, is the model's (log entry 7). -/
def Obligations.StepFaultsOnIllegalWord : Prop :=
  ∀ (s : State) (w : BitVec 32), (∃ why, decode w = .illegal why) →
    (s.pending = none → s.err = false → ∀ d : BitVec 64, d.setWidth 32 = w →
      ∃ t, s.portWrite (BitVec.ofNat 32 (8 * RegName.cmd.number)) d = (t, .done) ∧
        t.pending = some w ∧ t.statusWord.getLsbD 0 = true ∧
        t.err = false ∧ t.statusWord.getLsbD 1 = false) ∧
    (s.pending = some w → s.sched.head? ≠ some .host ∨ s.script = [] →
      ∃ t, step s = .next t ∧ t.errCode = 0x01#8 ∧
        Faulted { s with sched := s.sched.tail } t .illegal)

/-- 10_state.md R20, 30_encoding.md R100: the HOST's step performs the next access of its script and
nothing else; with no access left and nothing pending the machine stays as it is. The script and the
schedule are the model's form of what R21 and R51 place outside the block (log entries 6 and 7). -/
def Obligations.StepPerformsHostAccess : Prop :=
  ∀ s : State, s.sched.head? = some .host ∨ s.pending = none →
    (s.script = [] → s.pending = none → step s = .next s) ∧
    (∀ a rest, s.script = .read a :: rest → step s = .next
      { s with sched := s.sched.tail, script := rest, resp := some (s.portRead a) }) ∧
    (∀ a d rest, s.script = .write a d :: rest → step s = .next
      { (s.portWrite a d).1 with
        sched := s.sched.tail, script := rest, resp := some (s.portWrite a d).2 }) ∧
    (∀ rest, s.script = .wait :: rest → step s = .next
      { s with
        sched := s.sched.tail
        script := if s.statusWord.getLsbD 0 then s.script else rest
        resp := some (.data s.statusWord) }) ∧
    (∀ rest, s.script = .resetInput :: rest → step s = .next
      { s.blockReset with sched := s.sched.tail, script := rest })

/-- No step ends the run: a fault and a refusal of the spec are next states. That they are is read from
60_exceptions.md R240 (log entry 10); the sizes stand in the state as constants by the model's choice
(log entry 1). -/
def Obligations.StepAlwaysGoesOn : Prop :=
  ∀ s : State, ∃ t, step s = .next t ∧ t.sizes = s.sizes

/-- 10_state.md R20: a pending command leaves the slot after at most one step more than the schedule
still lists. The bound is the model's: the spec only says that the ENGINE's step is eventually taken
(log entry 7). -/
def Obligations.PendingCommandEnds : Prop :=
  ∀ (s : State) (w : BitVec 32), s.pending = some w →
    ∃ k t, k ≤ s.sched.length + 1 ∧ Host.Core.run Sys2Proof.core k s = .next t ∧ t.pending = none

/-- 60_exceptions.md R246, R251: a command either records no fault, or is the fault entry and has had
no effect at all. -/
def Obligations.CommandFaultsArePrecise : Prop :=
  ∀ (i : Instr) (s t : State), exec i s = .next t →
    t.pending = none ∧
      ((t.err = s.err ∧ t.errCode = s.errCode ∧ t.regs.errinfo = s.regs.errinfo) ∨
        ∃ e, Faulted s t e)

/-- 60_exceptions.md R252: a step taken in the error state keeps the error state and the record of its
fault, unless it is a reset. -/
def Obligations.FaultsAreSticky : Prop :=
  ∀ s t : State, s.FaultRecord → s.err = true → step s = .next t →
    (t.err = true ∧ t.errCode = s.errCode ∧ t.regs.errinfo = s.regs.errinfo ∧ t.pending = none) ∨
      WasReset s t

/-! ## Invariants -/

/-- 60_exceptions.md R252: the fault record stays consistent under every step. -/
def Obligations.StepKeepsFaultRecord : Prop :=
  ∀ s t : State, s.FaultRecord → step s = .next t → t.FaultRecord

/-- Every step keeps every memory in its canonical form, so that equal memories are equal data. The
form is the model's (log entry 2). -/
def Obligations.StepKeepsCanonicalMemories : Prop :=
  ∀ s t : State, s.Canonical → step s = .next t → t.Canonical

/-- 44_system.md R212, 60_exceptions.md R245: no step makes a memory hold an entry beyond its size. -/
def Obligations.StepKeepsBounds : Prop :=
  ∀ s t : State, s.Bounded → (s.cfgv = true → s.Configured) → step s = .next t → t.Bounded

/-- 42_vocoder.md R162: whatever the host and the commands do, CFGV = 1 means that LOG2N, HA, AGAIN and
the window are those of a valid construction. -/
def Obligations.StepKeepsConfiguration : Prop :=
  ∀ s t : State, (s.cfgv = true → s.Configured) → step s = .next t → (t.cfgv = true → t.Configured)

/-- 10_state.md R50: after reset every register holds 0 and the slot is empty; and the invariants
hold. The memories of `State.reset` are the model's choice (log entry 2). -/
def Obligations.ResetMeetsInvariants : Prop :=
  (∀ r : RegName, r ≠ .cmd → r ≠ .sreset → State.reset.readReg r = some 0) ∧
  State.reset.pending = none ∧ State.reset.FaultRecord ∧ State.reset.Canonical ∧
  State.reset.Bounded ∧ (State.reset.cfgv = true → State.reset.Configured)

/-! ## The host port -/

/-- 20_memory.md R72, R73: an access is refused, with no change of state, exactly when one of the five
tests holds, and an accepted read gives the value of the location addressed, the read-only registers,
the window and the twiddle ROM among them. The entries of the ROM are finite, and two are exact (R127);
the others are free values (log entry 4). -/
def Obligations.PortRefusesExactly : Prop :=
  ∀ (s : State) (haddr : BitVec 32) (d : BitVec 64), s.sizes.Legal →
    (s.Refuses haddr true → s.portWrite haddr d = (s, .refused)) ∧
    (¬ s.Refuses haddr true → (s.portWrite haddr d).2 = .done) ∧
    (s.Refuses haddr false → s.portRead haddr = .refused) ∧
    (¬ s.Refuses haddr false → ∃ l : Location, l.Valid s.sizes ∧ l.address = haddr.toNat ∧
      s.portRead haddr = .data (BitVec.ofNat 64 (s.valueAt l))) ∧
    (∀ e im, isFinite (Cplx.part im (twiddle s.sizes.log2nMax e)) = true) ∧
    twiddle s.sizes.log2nMax 0 = ⟨0x3FF0000000000000#64, 0#64⟩ ∧
    twiddle s.sizes.log2nMax (2 ^ s.sizes.log2nMax / 4) = ⟨0#64, 0xBFF0000000000000#64⟩

/-- 20_memory.md R70: an aligned address names the one valid location that has this address. -/
def Obligations.AddressMapIsExact : Prop :=
  ∀ (z : Sizes) (haddr : BitVec 32) (l : Location), z.Legal → haddr.toNat % 8 = 0 →
    (locate z haddr = some l ↔ l.Valid z ∧ l.address = haddr.toNat)

/-- 20_memory.md R73, R64: a write to a memory location is accepted while the slot is empty, is read
back at once, and changes nothing but the entries of that location. -/
def Obligations.MemoryWriteReadsBack : Prop :=
  ∀ (s : State) (haddr : BitVec 32) (l : Location) (d : BitVec 64), s.sizes.Legal →
    s.pending = none → l.Valid s.sizes → l.address = haddr.toNat → l.access = .readWrite →
    (∀ r, l ≠ .reg r) →
    ∃ t, s.portWrite haddr d = (t, .done) ∧ t.portRead haddr = .data d ∧
      (∀ b, l = .bm b → ∀ i, i < 8 → t.bm.get (b + i) = d.extractLsb' (8 * i) 8) ∧
      Untouched s t noReg l.Holds ∧ t.pending = s.pending ∧ t.err = s.err ∧
      t.errCode = s.errCode ∧ t.cfgv = s.cfgv ∧ t.xsel = s.xsel

/-- 10_state.md R30, R35, R36, 20_memory.md R73: a write to a register with access RW keeps the low
bits, is read back zero-extended, and changes nothing else, but that LOG2N, FSIZE and OVL clear CFGV. -/
def Obligations.RegisterWriteReadsBack : Prop :=
  ∀ (s : State) (r : RegName) (d : BitVec 64), s.pending = none → r.access = .readWrite →
    let haddr := BitVec.ofNat 32 (8 * r.number)
    ∃ t, s.portWrite haddr d = (t, .done) ∧
      t.portRead haddr = .data (BitVec.ofNat 64 (d.toNat % 2 ^ r.width)) ∧
      Untouched s t (· = r) noPlace ∧ t.pending = none ∧ t.err = s.err ∧ t.errCode = s.errCode ∧
      t.xsel = s.xsel ∧
      t.cfgv = (s.cfgv && !decide (r = .log2n ∨ r = .fsize ∨ r = .ovl))

/-- 10_state.md R32: the bits of STATUS, in every state; a write to it is refused. -/
def Obligations.StatusBits : Prop :=
  ∀ s : State, ∃ v : BitVec 64,
    s.portRead (BitVec.ofNat 32 (8 * RegName.status.number)) = .data v ∧
    v.getLsbD 0 = s.pending.isSome ∧ v.getLsbD 1 = s.err ∧ v.getLsbD 2 = s.cfgv ∧
    v.getLsbD 3 = s.xsel ∧ (∀ i, 4 ≤ i → i < 8 → v.getLsbD i = false) ∧
    v.extractLsb' 8 8 = s.errCode ∧ (∀ i, 16 ≤ i → v.getLsbD i = false) ∧
    ∀ d, s.portWrite (BitVec.ofNat 32 (8 * RegName.status.number)) d = (s, .refused)

/-- 20_memory.md R74, 10_state.md R20: between a command's issue and its completion a step of the HOST
changes no register, flag or memory entry, unless it is a reset. -/
def Obligations.HostCannotDisturbCommand : Prop :=
  ∀ (s : State) (w : BitVec 32), s.pending = some w →
    let t := s.hostStep
    WasReset s t ∨
      (t.pending = some w ∧ t.err = s.err ∧ t.errCode = s.errCode ∧ t.cfgv = s.cfgv ∧
        t.xsel = s.xsel ∧ t.regs = s.regs ∧ ∀ p, t.entry p = s.entry p)

/-- 70_reset_and_hazards.md R270: both ways to reset, in every state. That the reset input is an event of
the host's script is the model's (log entry 9). -/
def Obligations.ResetHasItsEffect : Prop :=
  (∀ (s : State) (d : BitVec 64), d.getLsbD 0 = true →
    ∃ t, s.portWrite (BitVec.ofNat 32 (8 * RegName.sreset.number)) d = (t, .done) ∧
      WasReset s t) ∧
  (∀ (s : State) (rest : List HostStep), s.script = .resetInput :: rest → WasReset s s.hostStep)

/-- 10_state.md R34: SRESET, whatever BUSY and ERR are. -/
def Obligations.SresetRegister : Prop :=
  ∀ (s : State) (d : BitVec 64),
    let haddr := BitVec.ofNat 32 (8 * RegName.sreset.number)
    (d.getLsbD 0 = true → ∃ t, s.portWrite haddr d = (t, .done) ∧ WasReset s t) ∧
    (d.getLsbD 0 = false → s.portWrite haddr d = (s, .done)) ∧
    s.portRead haddr = .refused

/-- 10_state.md R31: CMD. -/
def Obligations.CmdRegister : Prop :=
  ∀ (s : State) (d : BitVec 64),
    let haddr := BitVec.ofNat 32 (8 * RegName.cmd.number)
    (s.pending = none → s.err = false →
      ∃ t, s.portWrite haddr d = (t, .done) ∧ t.pending = some (d.extractLsb' 0 32) ∧
        t.statusWord.getLsbD 0 = true ∧ Untouched s t noReg noPlace ∧ t.err = s.err ∧
        t.errCode = s.errCode ∧ t.cfgv = s.cfgv ∧ t.xsel = s.xsel) ∧
    (s.pending.isSome = true ∨ s.err = true → s.portWrite haddr d = (s, .refused)) ∧
    s.portRead haddr = .refused

/-! ## Numbers -/

/-- 40_numerics.md R110, R112, R118: the one rounding, in binary64 and in binary32, is to nearest, ties
to even; and it is what `fadd`, `fmul`, `fdiv`, `fsqrt` and `f64to32` do to the exact result of finite
operands, in units of the smallest subnormal, with the sign of the exact result. R114 to R116, R118:
`fmod`, `ffloor`, `fceil`, `frint`, `f64` and `f32to64` give their exact result, so nothing is rounded
there. R111: what every one of these operations gives for a NaN, an infinity, a zero divisor and a
negative radicand. -/
def Obligations.RoundingIsToNearestEven : Prop :=
  (∀ num den : Nat, 0 < den →
    NearestEven 52 infMag ((num : ℝ) / den) (roundMag 52 infMag num den) ∧
    NearestEven 23 infMag32 ((num : ℝ) / den) (roundMag 23 infMag32 num den)) ∧
  (∀ a b : F64, isFinite a = true → isFinite b = true →
    let sum : Int := fval a + fval b
    NearestEven 52 infMag |(sum : ℝ)| (fmag (fadd a b)) ∧
    fsign (fadd a b) = (if sum = 0 then fsign a && fsign b else decide (sum < 0)) ∧
    NearestEven 52 infMag ((funits a : ℝ) * funits b / 2 ^ 1074) (fmag (fmul a b)) ∧
    fsign (fmul a b) = (fsign a != fsign b) ∧
    (isZero b = false →
      NearestEven 52 infMag ((funits a : ℝ) * 2 ^ 1074 / funits b) (fmag (fdiv a b)) ∧
      fsign (fdiv a b) = (fsign a != fsign b) ∧
      fval (fmod a b) = (fval a).tmod (fval b) ∧ fsign (fmod a b) = fsign a)) ∧
  (∀ a : F64, isFinite a = true →
    (fsign a = false → NearestEven 52 infMag √((funits a : ℝ) * 2 ^ 1074) (fmag (fsqrt a)) ∧
      fsign (fsqrt a) = false) ∧
    NearestEven 23 infMag32 ((funits a : ℝ) / 2 ^ 925) ((f64to32 a).toNat % 2 ^ 31) ∧
    decide (2 ^ 31 ≤ (f64to32 a).toNat) = fsign a ∧
    fval (ffloor a) = fval a / 2 ^ 1074 * 2 ^ 1074 ∧ fsign (ffloor a) = fsign a ∧
    fval (fceil a) = -(-fval a / 2 ^ 1074) * 2 ^ 1074 ∧ fsign (fceil a) = fsign a ∧
    fsign (frint a) = fsign a ∧ ∃ k : Int, fval (frint a) = k * 2 ^ 1074 ∧ NearestInt a k) ∧
  (∀ n : Int, |n| ≤ 2 ^ 53 → fval (f64 n) = n * 2 ^ 1074 ∧ fsign (f64 n) = decide (n < 0)) ∧
  (∀ u : BitVec 32, u.toNat % 2 ^ 31 < infMag32 →
    funits (f32to64 u) = magUnits 23 (u.toNat % 2 ^ 31) * 2 ^ 925 ∧
    fsign (f32to64 u) = decide (2 ^ 31 ≤ u.toNat)) ∧
  (∀ a b : F64, isNaN a = true ∨ isNaN b = true →
    fadd a b = 0x7FF8000000000000#64 ∧ fsub a b = 0x7FF8000000000000#64 ∧
    fmul a b = 0x7FF8000000000000#64 ∧ fdiv a b = 0x7FF8000000000000#64 ∧
    fmod a b = 0x7FF8000000000000#64) ∧
  (∀ a : F64, isNaN a = true →
    fsqrt a = 0x7FF8000000000000#64 ∧ ffloor a = 0x7FF8000000000000#64 ∧
    fceil a = 0x7FF8000000000000#64 ∧ frint a = 0x7FF8000000000000#64 ∧
    f64to32 a = 0x7FC00000#32) ∧
  (∀ a b : F64, isInf a = true → isInf b = true →
    fadd a b = (if fsign a = fsign b then a else 0x7FF8000000000000#64) ∧
    fsub a b = (if fsign a = fsign b then 0x7FF8000000000000#64 else a) ∧
    isInf (fmul a b) = true ∧ fsign (fmul a b) = (fsign a != fsign b) ∧
    fdiv a b = 0x7FF8000000000000#64 ∧ fmod a b = 0x7FF8000000000000#64) ∧
  (∀ a b : F64, isInf a = true → isFinite b = true →
    fadd a b = a ∧ fadd b a = a ∧ fsub a b = a ∧ fsub b a = fneg a ∧
    (isZero b = true → fmul a b = 0x7FF8000000000000#64 ∧ fmul b a = 0x7FF8000000000000#64) ∧
    (isZero b = false → isInf (fmul a b) = true ∧ fsign (fmul a b) = (fsign a != fsign b) ∧
      fmul b a = fmul a b) ∧
    isInf (fdiv a b) = true ∧ fsign (fdiv a b) = (fsign a != fsign b) ∧
    isZero (fdiv b a) = true ∧ fsign (fdiv b a) = (fsign b != fsign a) ∧
    fmod a b = 0x7FF8000000000000#64 ∧ fmod b a = b) ∧
  (∀ a b : F64, isFinite a = true → isZero b = true →
    (isZero a = true → fdiv a b = 0x7FF8000000000000#64) ∧
    (isZero a = false → isInf (fdiv a b) = true ∧ fsign (fdiv a b) = (fsign a != fsign b)) ∧
    fmod a b = 0x7FF8000000000000#64) ∧
  (∀ a : F64, (isZero a = true → fsqrt a = a) ∧
    (isNaN a = false → isZero a = false → fsign a = true → fsqrt a = 0x7FF8000000000000#64) ∧
    (isInf a = true → ffloor a = a ∧ fceil a = a ∧ frint a = a ∧
      (fsign a = false → fsqrt a = a) ∧
      f64to32 a = if fsign a then 0xFF800000#32 else 0x7F800000#32)) ∧
  (∀ u : BitVec 32, infMag32 < u.toNat % 2 ^ 31 → f32to64 u = 0x7FF8000000000000#64) ∧
  f32to64 0x7F800000#32 = 0x7FF0000000000000#64 ∧ f32to64 0xFF800000#32 = 0xFFF0000000000000#64

/-- 40_numerics.md R112, R124: addition, multiplication and complex multiplication are commutative bit
for bit, and subtraction is addition of the negation; R113: the negation and the magnitude; R120: the
comparisons are those of the values, false whenever an operand is a NaN, with −0.0 equal to +0.0. -/
def Obligations.ArithmeticCommutes : Prop :=
  (∀ a b : F64, fadd a b = fadd b a) ∧ (∀ a b : F64, fmul a b = fmul b a) ∧
  (∀ a b : Cplx, cmul a b = cmul b a) ∧
  (∀ a b : F64, isNaN a = false → isNaN b = false → fsub a b = fadd a (fneg b)) ∧
  (∀ a : F64, (isNaN a = true → fneg a = 0x7FF8000000000000#64 ∧ fabs a = 0x7FF8000000000000#64) ∧
    (isNaN a = false → fneg a = a ^^^ 0x8000000000000000#64 ∧
      fabs a = a &&& 0x7FFFFFFFFFFFFFFF#64)) ∧
  (∀ a b : F64, isNaN a = true ∨ isNaN b = true →
    flt a b = false ∧ fle a b = false ∧ feq a b = false) ∧
  (∀ a b : F64, isNaN a = false → isNaN b = false →
    (flt a b = true ↔ extendedValue a < extendedValue b) ∧
    (fle a b = true ↔ extendedValue a ≤ extendedValue b) ∧
    (feq a b = true ↔ extendedValue a = extendedValue b))

/-- 40_numerics.md R128, R129: the exact named properties of the cosine and the sine, whatever the free
values are (log entry 3). -/
def Obligations.CosineAndSineProperties : Prop :=
  ∀ x : F64,
    (isFinite x = false → cfgCos x = canonNaN ∧ cfgSin x = canonNaN) ∧
    (isZero x = true → cfgCos x = fOne ∧ cfgSin x = x) ∧
    (isFinite x = true → fle fNegOne (cfgCos x) = true ∧ fle (cfgCos x) fOne = true ∧
      fle fNegOne (cfgSin x) = true ∧ fle (cfgSin x) fOne = true) ∧
    cfgCos (fneg x) = cfgCos x ∧ cfgSin (fneg x) = fneg (cfgSin x) ∧ cfgCos fPi = fNegOne

/-- 40_numerics.md R130, R131: the exact named properties of the angle and the modulus, every case of
ARG-AXIS among them, whatever the free values are (log entry 3). -/
def Obligations.AngleAndModulusProperties : Prop :=
  ∀ re im : F64,
    (isNaN re = true ∨ isNaN im = true → cfgArg re im = canonNaN) ∧
    (isNaN re = false → isNaN im = false →
      fle (fneg fPi) (cfgArg re im) = true ∧ fle (cfgArg re im) fPi = true) ∧
    (isZero im = true → isNaN re = false → fsign re = false → cfgArg re im = pack (fsign im) 0) ∧
    (isZero im = true → isNaN re = false → fsign re = true →
      cfgArg re im = if fsign im then fneg fPi else fPi) ∧
    (isZero re = true → isNaN im = false → isZero im = false →
      cfgArg re im = if fsign im then fneg (fdiv fPi fTwo) else fdiv fPi fTwo) ∧
    (isInf re = true → isFinite im = true →
      cfgArg re im = if fsign re then (if fsign im then fneg fPi else fPi) else pack (fsign im) 0) ∧
    (isFinite re = true → isInf im = true →
      cfgArg re im = if fsign im then fneg (fdiv fPi fTwo) else fdiv fPi fTwo) ∧
    (isInf re = true → isInf im = true →
      let magnitude := if fsign re then fmul 0x4008000000000000#64 (fdiv fPi 0x4010000000000000#64)
        else fdiv fPi 0x4010000000000000#64
      cfgArg re im = if fsign im then fneg magnitude else magnitude) ∧
    (isInf re = true ∨ isInf im = true → cfgMag re im = pack false infMag) ∧
    (isInf re = false → isInf im = false → isNaN re = true ∨ isNaN im = true →
      cfgMag re im = canonNaN) ∧
    (isZero im = true → isNaN re = false → cfgMag re im = fabs re) ∧
    (isZero re = true → isNaN im = false → cfgMag re im = fabs im) ∧
    cfgMag im re = cfgMag re im ∧ cfgMag (fneg re) im = cfgMag re im ∧
    (isNaN re = false → isNaN im = false →
      isNaN (cfgMag re im) = false ∧ fsign (cfgMag re im) = false)

/-- 42_vocoder.md R161 properties (a), (b) and (c): the window of every frame length `PVCFG` accepts is
symmetric and between 0 and 1, and, except for the length 16, zero at both ends. At length 16 the
formula's angle is one unit in the last place off PI, so property (a) does not follow there (log
entry 17). -/
def Obligations.WindowShape : Prop :=
  ∀ l i : Nat, 1 ≤ l → l ≤ 24 → i < 2 ^ l →
    (l ≠ 4 → windowWeight 0 (2 ^ l) = fZero ∧ windowWeight (2 ^ l - 1) (2 ^ l) = fZero) ∧
    windowWeight i (2 ^ l) = windowWeight (2 ^ l - 1 - i) (2 ^ l) ∧
    fle fZero (windowWeight i (2 ^ l)) = true ∧ fle (windowWeight i (2 ^ l)) fOne = true

/-! ## System and transform commands -/

/-- 44_system.md R210: `NOP` empties the slot and does nothing else. -/
def Obligations.NopCompletes : Prop :=
  ∀ s : State, ∃ t, exec .nop s = .next t ∧ Completed s t noReg noPlace ∧ t.cfgv = s.cfgv ∧
    t.xsel = s.xsel

/-- 41_transform.md R141, 40_numerics.md R124: `CMUL`, with the corner cases of R141. For the one with
an infinity the formula and 95_test_vectors.md V-N2 are followed, against the rule's note (log entry
18). -/
def Obligations.CmulCompletes : Prop :=
  (∀ s : State, ∃ t, exec .cmul s = .next t ∧
    Completed s t (fun r => r = .cpRe ∨ r = .cpIm) noPlace ∧ t.cfgv = s.cfgv ∧ t.xsel = s.xsel ∧
    t.readReg .cpRe = some (fsub (fmul s.regs.ca.re s.regs.cb.re) (fmul s.regs.ca.im s.regs.cb.im)) ∧
    t.readReg .cpIm = some (fadd (fmul s.regs.ca.re s.regs.cb.im) (fmul s.regs.ca.im s.regs.cb.re)) ∧
    (isNaN s.regs.ca.re = true ∨ isNaN s.regs.ca.im = true ∨ isNaN s.regs.cb.re = true ∨
      isNaN s.regs.cb.im = true →
      t.readReg .cpRe = some canonNaN ∧ t.readReg .cpIm = some canonNaN)) ∧
  cmul ⟨0x7FF0000000000000#64, 0#64⟩ ⟨0#64, 0x3FF0000000000000#64⟩ =
    ⟨canonNaN, 0x7FF0000000000000#64⟩ ∧
  cmul ⟨0x3FF0000000000000#64, 0#64⟩ ⟨0xBFF0000000000000#64, 0#64⟩ = ⟨0xBFF0000000000000#64, 0#64⟩ ∧
  cmul ⟨0x3FF0000000000000#64, 0x4000000000000000#64⟩ ⟨0x4008000000000000#64, 0x4010000000000000#64⟩
    = ⟨0xC014000000000000#64, 0x4024000000000000#64⟩

/-- 41_transform.md R142, R140: `BFLY`, and its example with a twiddle of length 8. -/
def Obligations.BflyCompletes : Prop :=
  (∀ s : State, ∃ t, exec .bfly s = .next t ∧
    Completed s t (fun r => r = .cpRe ∨ r = .cpIm ∨ r = .cqRe ∨ r = .cqIm) noPlace ∧
    t.cfgv = s.cfgv ∧ t.xsel = s.xsel ∧
    let p := cmul s.regs.cw s.regs.cb
    t.readReg .cpRe = some (fadd s.regs.ca.re p.re) ∧
    t.readReg .cpIm = some (fadd s.regs.ca.im p.im) ∧
    t.readReg .cqRe = some (fsub s.regs.ca.re p.re) ∧
    t.readReg .cqIm = some (fsub s.regs.ca.im p.im)) ∧
  butterfly ⟨0x3FF8000000000000#64, 0xC000000000000000#64⟩
    ⟨0x3FE0000000000000#64, 0x3FD0000000000000#64⟩
    ⟨0x3FE6A09E667F3BCD#64, 0xBFE6A09E667F3BCD#64⟩ =
    (⟨0x40003E1DB337DB36#64, 0xC0016A09E667F3BD#64⟩, ⟨0x3FEF078933209326#64, 0xBFFD2BEC33301886#64⟩)

/-- 41_transform.md R152, R144: the faults of the transform commands, in their order. -/
def Obligations.TransformFaults : Prop :=
  ∀ (s : State) (st : Nat) (inv : Bool),
    (s.sizes.log2nMax < s.regs.log2n.toNat →
      ∀ i, i = .bitrev ∨ i = .stage st inv ∨ i = .xscale ∨ i = .fft ∨ i = .ifft →
        ∃ t, exec i s = .next t ∧ Faulted s t .config) ∧
    (s.regs.log2n.toNat ≤ s.sizes.log2nMax → s.regs.log2n.toNat ≤ st →
      ∃ t, exec (.stage st inv) s = .next t ∧ Faulted s t .operand)

/-- 41_transform.md R143: `BITREV`. -/
def Obligations.BitrevCompletes : Prop :=
  ∀ s : State, s.lenFits →
    ∃ t, exec .bitrev s = .next t ∧ Completed s t noReg (s.InactiveBelow s.len) ∧
      t.cfgv = s.cfgv ∧ t.xsel = !s.xsel ∧
      ∀ i, i < s.len → t.active.get i = s.active.get (rev i s.len2) ∧ rev i s.len2 < s.len ∧
        ∀ b, b < s.len2 → (rev i s.len2).testBit b = i.testBit (s.len2 - 1 - b)

/-- 41_transform.md R143: two `BITREV` in a row restore the frame, in the original bank. -/
def Obligations.BitrevTwiceRestores : Prop :=
  ∀ s : State, s.lenFits →
    ∃ t u, exec .bitrev s = .next t ∧ exec .bitrev t = .next u ∧ u.xsel = s.xsel ∧
      ∀ i, i < s.len → u.active.get i = s.active.get i

/-- 41_transform.md R144: `STAGE`, group by group: the butterfly of group `g` at position `j` combines
the lower index `g·2^(s+1) + j` and the index `2^s` above it with `TWN(L, j·2^(L−s−1))`. -/
def Obligations.StageCompletes : Prop :=
  ∀ (s : State) (st : Nat) (inv : Bool), s.lenFits → st < s.len2 →
    ∃ t, exec (.stage st inv) s = .next t ∧ Completed s t noReg (s.InactiveBelow s.len) ∧
      t.cfgv = s.cfgv ∧ t.xsel = !s.xsel ∧
      ∀ g j, g < 2 ^ (s.len2 - st - 1) → j < 2 ^ st →
        let k := g * 2 ^ (st + 1) + j
        let w := twiddle s.sizes.log2nMax
          (j * 2 ^ (s.len2 - st - 1) * 2 ^ (s.sizes.log2nMax - s.len2))
        let p := cmul (if inv then ⟨w.re, fneg w.im⟩ else w) (s.active.get (k + 2 ^ st))
        t.active.get k = ⟨fadd (s.active.get k).re p.re, fadd (s.active.get k).im p.im⟩ ∧
        t.active.get (k + 2 ^ st) = ⟨fsub (s.active.get k).re p.re, fsub (s.active.get k).im p.im⟩

/-- 41_transform.md R145: `XSCALE`. -/
def Obligations.XscaleCompletes : Prop :=
  ∀ s : State, s.lenFits →
    ∃ t, exec .xscale s = .next t ∧ Completed s t noReg (s.InactiveBelow s.len) ∧
      t.cfgv = s.cfgv ∧ t.xsel = !s.xsel ∧
      ∀ k, k < s.len → t.active.get k =
        ⟨fdiv (s.active.get k).re (f64 (2 ^ s.regs.log2n.toNat)),
          fdiv (s.active.get k).im (f64 (2 ^ s.regs.log2n.toNat))⟩

/-- 41_transform.md R146: `FFT` has exactly the effect of `BITREV` and the `L` stages, inverts XSEL
`L + 1` times, and touches nothing but the first `N` entries of the banks. -/
def Obligations.FftIsItsPasses : Prop :=
  ∀ s : State, s.lenFits →
    ∃ t, exec .fft s = .next t ∧ Completed s t noReg (BankBelow s.len) ∧ t.cfgv = s.cfgv ∧
      t.xsel = (s.xsel ^^ decide ((s.len2 + 1) % 2 = 1)) ∧
      execAll (.bitrev :: (List.range s.len2).map (fun st => .stage st false)) s = .next t

/-- 41_transform.md R147: `IFFT` has exactly the effect of `BITREV`, the `L` inverse stages and
`XSCALE`, inverts XSEL `L + 2` times, and touches nothing but the first `N` entries of the banks. -/
def Obligations.IfftIsItsPasses : Prop :=
  ∀ s : State, s.lenFits →
    ∃ t, exec .ifft s = .next t ∧ Completed s t noReg (BankBelow s.len) ∧ t.cfgv = s.cfgv ∧
      t.xsel = (s.xsel ^^ decide ((s.len2 + 2) % 2 = 1)) ∧
      execAll (.bitrev :: (List.range s.len2).map (fun st => .stage st true) ++ [.xscale]) s = .next t

/-- 41_transform.md R148: `NPOW2` reports the smallest sufficient power of two, for every length its
operand can hold, and touches nothing else; and its word. -/
def Obligations.Npow2Completes : Prop :=
  ∀ (s : State) (n : Nat), n < 2 ^ 24 →
    ∃ t, exec (.npow2 n) s = .next t ∧
      Completed s t (fun r => r = .padlog2 ∨ r = .padamt) noPlace ∧ t.cfgv = s.cfgv ∧
      t.xsel = s.xsel ∧ n ≤ 2 ^ t.regs.padlog2.toNat ∧
      (∀ k, n ≤ 2 ^ k → t.regs.padlog2.toNat ≤ k) ∧
      t.regs.padamt.toNat + n = 2 ^ t.regs.padlog2.toNat ∧
      encode (.npow2 n) = 0x17000000#32 ||| BitVec.ofNat 32 n

/-! ## Vocoder commands -/

/-- 42_vocoder.md R160: `PVCFG` on a valid construction. -/
def Obligations.PvcfgCompletes : Prop :=
  ∀ (s : State) (l : Nat), 0 < s.regs.ovl.toInt → s.regs.ovl.toInt < (s.regs.fsize.toNat : Int) →
    s.regs.fsize.toNat = 2 ^ l → l ≤ s.sizes.log2nMax →
    ∃ t, exec .pvcfg s = .next t ∧
      Completed s t (fun r => r = .log2n ∨ r = .ha ∨ r = .again) (fun p => ∃ n, n < 2 ^ l ∧ p = .wm n) ∧
      t.cfgv = true ∧ t.xsel = s.xsel ∧ t.regs.log2n.toNat = l ∧
      (t.regs.ha.toNat : Int) = 2 ^ l / s.regs.ovl.toInt ∧
      t.regs.again = fdiv 0x3FF0000000000000#64
        (fsqrt (fdiv (f64 s.regs.ovl.toInt) 0x4000000000000000#64)) ∧
      ∀ i, i < 2 ^ l → t.wm.get i =
        fadd fHalf (fmul fHalf (cfgCos
          (fdiv (fmul fPi (f64 (2 * (i : Int) + 1 - 2 ^ l))) (f64 (2 ^ l - 1)))))

/-- 42_vocoder.md R160, 60_exceptions.md R244: `PVCFG` on every other construction. -/
def Obligations.PvcfgRejects : Prop :=
  ∀ s : State,
    s.regs.ovl.toInt ≤ 0 ∨ (∀ l, s.regs.fsize.toNat ≠ 2 ^ l) ∨
      (s.regs.fsize.toNat : Int) ≤ s.regs.ovl.toInt ∨ 2 ^ s.sizes.log2nMax < s.regs.fsize.toNat →
    ∃ t, exec .pvcfg s = .next t ∧ Faulted s t .config

/-- 42_vocoder.md R163: `PHRST`, and the two host reads of its example. -/
def Obligations.PhrstCompletes : Prop :=
  ∀ s : State, ∃ t, exec .phrst s = .next t ∧
    Completed s t noReg (fun p => ∃ k, k < s.nmax ∧ (p = .pv k ∨ p = .cu k)) ∧ t.cfgv = s.cfgv ∧
    t.xsel = s.xsel ∧ (∀ k, k < s.nmax → t.pv.get k = 0#64 ∧ t.cu.get k = 0#64) ∧
    (s.sizes.Legal →
      t.portRead 0x40000008#32 = .data 0#64 ∧ t.portRead 0x50000000#32 = .data 0#64)

/-- 42_vocoder.md R162, R164, R166, R167: the faults of `FRAMEW`, `PHASE`, `OLA` and `RESAMP`, in their
order. -/
def Obligations.VocoderFaults : Prop :=
  ∀ (s : State) (n : Nat),
    (s.cfgv = false → ∀ i, i = .framew n ∨ i = .phase ∨ i = .ola n →
      ∃ t, exec i s = .next t ∧ Faulted s t .config) ∧
    (s.cfgv = true →
      (s.sizes.rmWords < s.regs.ibase.toNat + s.regs.ilen.toNat ∨
        s.regs.ilen.toNat < n * s.regs.ha.toNat + 2 ^ s.regs.log2n.toNat →
        ∃ t, exec (.framew n) s = .next t ∧ Faulted s t .range) ∧
      (s.sizes.rmWords < s.regs.obase.toNat + s.regs.olen.toNat →
        ∃ t, exec (.ola n) s = .next t ∧ Faulted s t .range)) ∧
    (s.sizes.rmWords < s.regs.rsbase.toNat + s.regs.rslen.toNat ∨
      s.sizes.rmWords < s.regs.rdbase.toNat + s.regs.rdlen.toNat ∨
      (0 < s.regs.rdlen.toNat ∧ s.regs.rslen.toNat = 0) →
      ∃ t, exec .resamp s = .next t ∧ Faulted s t .range)

/-- 42_vocoder.md R164: `FRAMEW`. -/
def Obligations.FramewCompletes : Prop :=
  ∀ (s : State) (i : Nat), s.cfgv = true →
    s.regs.ibase.toNat + s.regs.ilen.toNat ≤ s.sizes.rmWords →
    i * s.regs.ha.toNat + s.len ≤ s.regs.ilen.toNat →
    ∃ t, exec (.framew i) s = .next t ∧ Completed s t noReg (s.InactiveBelow s.len) ∧
      t.cfgv = true ∧ t.xsel = !s.xsel ∧
      ∀ n, n < s.len → t.active.get n =
        ⟨fmul (fmul (s.rm.get (s.regs.ibase.toNat + i * s.regs.ha.toNat + n)) (s.wm.get n))
          s.regs.again, 0#64⟩

/-- 42_vocoder.md R165, 40_numerics.md R126: `PHASE`, bin by bin, with the steps of WRAP. -/
def Obligations.PhaseCompletes : Prop :=
  ∀ s : State, s.cfgv = true →
    ∃ t, exec .phase s = .next t ∧
      Completed s t noReg (fun p => s.InactiveBelow s.len p ∨
        ∃ k, k < s.len ∧ (p = .pv k ∨ p = .cu k)) ∧
      t.cfgv = true ∧ t.xsel = !s.xsel ∧
      ∀ k, k < s.len →
        let x := s.active.get k
        let mag := cfgMag x.re x.im
        let ph := cfgArg x.re x.im
        let tk := fmul fTwoPi (f64 k)
        let ex := fdiv (fmul tk (f64 s.regs.ha.toNat)) (f64 s.len)
        let dev := fsub (fsub ph (s.pv.get k)) ex
        let turns := fceil (fdiv (fneg dev) 0x401921FB54442D18#64)
        let d1 := if flt dev 0#64 then fadd dev (fmul turns 0x401921FB54442D18#64) else dev
        let d := fsub (fmod (fadd d1 0x400921FB54442D18#64) 0x401921FB54442D18#64)
          0x400921FB54442D18#64
        let tf := fadd (fdiv tk (f64 s.len)) (fdiv d (f64 s.regs.ha.toNat))
        let cu := fadd (s.cu.get k) (fmul tf (f64 s.regs.hs.toNat))
        t.pv.get k = ph ∧ t.cu.get k = cu ∧
        t.active.get k = ⟨fmul mag (cfgCos cu), fmul mag (cfgSin cu)⟩

/-- 42_vocoder.md R166: `OLA` adds the entries of the frame that lie below OLEN, drops the others, and
leaves every other word alone. -/
def Obligations.OlaCompletes : Prop :=
  ∀ (s : State) (i : Nat), s.cfgv = true →
    s.regs.obase.toNat + s.regs.olen.toNat ≤ s.sizes.rmWords →
    ∃ t, exec (.ola i) s = .next t ∧
      Completed s t noReg (fun p => ∃ n, n < s.len ∧ i * s.regs.hs.toNat + n < s.regs.olen.toNat ∧
        p = .rm (s.regs.obase.toNat + (i * s.regs.hs.toNat + n))) ∧
      t.cfgv = true ∧ t.xsel = s.xsel ∧
      ∀ n, n < s.len → i * s.regs.hs.toNat + n < s.regs.olen.toNat →
        let a := s.regs.obase.toNat + (i * s.regs.hs.toNat + n)
        t.rm.get a = fadd (s.rm.get a) (fmul (s.active.get n).re (s.wm.get n))

/-- 42_vocoder.md R167: `RESAMP`, iteration by iteration: `m i` is the contents of RM before iteration
`i`, so that a source region that overlaps the destination is covered. -/
def Obligations.ResampCompletes : Prop :=
  ∀ s : State, s.regs.rsbase.toNat + s.regs.rslen.toNat ≤ s.sizes.rmWords →
    s.regs.rdbase.toNat + s.regs.rdlen.toNat ≤ s.sizes.rmWords →
    (0 < s.regs.rdlen.toNat → 0 < s.regs.rslen.toNat) →
    let sb := s.regs.rsbase.toNat
    let sl := s.regs.rslen.toNat
    let db := s.regs.rdbase.toNat
    let dl := s.regs.rdlen.toNat
    ∃ t, exec .resamp s = .next t ∧
      Completed s t noReg (fun p => ∃ i, i < dl ∧ p = .rm (db + i)) ∧ t.cfgv = s.cfgv ∧
      t.xsel = s.xsel ∧
      ∃ m : Nat → Nat → F64, (∀ a, m 0 a = s.rm.get a) ∧ (∀ a, m dl a = t.rm.get a) ∧
        ∀ i, i < dl →
          let p := fmul (fdiv (f64 i) (f64 dl)) (f64 sl)
          let fr := fsub p (ffloor p)
          let f := min (fval (ffloor p) / 2 ^ 1074).toNat (sl - 1)
          let c := min (fval (fceil p) / 2 ^ 1074).toNat (sl - 1)
          m (i + 1) (db + i) = fadd (fmul (m i (sb + f)) (fsub fOne fr)) (fmul (m i (sb + c)) fr) ∧
          ∀ a, a ≠ db + i → m (i + 1) a = m i a

/-! ## Codec commands -/

/-- 43_codec.md R183, R184: `WAVHDR` on a file whose header is good and whose data sub-chunk is at `c`,
plain or extensible. -/
def Obligations.WavhdrCompletes : Prop :=
  ∀ (s : State) (c : Nat),
    let bl := s.regs.blen.toNat
    let a := s.bm.readLE 20 2
    let b := s.bm.readLE 34 2
    let n := s.bm.readLE 22 2
    let dsz := s.bm.readLE (c + 4) 4
    let ns := dsz / n / (b / 8)
    bl ≤ s.sizes.bmBytes → 36 ≤ bl → ContainerOk s.bm → DescriptorOk a b n →
    DataHeaderAt s.bm bl a c → c + 8 + ns * n * (b / 8) ≤ bl →
    ∃ t, exec .wavhdr s = .next t ∧
      Completed s t (fun r => r = .afmt ∨ r = .nch ∨ r = .srate ∨ r = .bps ∨ r = .nsamp ∨
        r = .datasize ∨ r = .dataoff ∨ r = .riffsz ∨ r = .fmtsz ∨ r = .byterate ∨ r = .balign)
        noPlace ∧
      t.cfgv = s.cfgv ∧ t.xsel = s.xsel ∧
      t.regs.afmt.toNat = a ∧ t.regs.nch.toNat = n ∧ t.regs.bps.toNat = b ∧
      t.regs.srate.toNat = s.bm.readLE 24 4 ∧ t.regs.nsamp.toNat = ns ∧
      t.regs.datasize.toNat = dsz ∧ t.regs.dataoff.toNat = c + 8 ∧
      t.regs.riffsz.toNat = s.bm.readLE 4 4 ∧ t.regs.fmtsz.toNat = s.bm.readLE 16 4 ∧
      t.regs.byterate.toNat = s.bm.readLE 28 4 ∧ t.regs.balign.toNat = s.bm.readLE 32 2

/-- 43_codec.md R183, 60_exceptions.md R251: every way a header can be bad, and the code of each; the
first failing check decides. -/
def Obligations.WavhdrFaults : Prop :=
  ∀ s : State,
    let bl := s.regs.blen.toNat
    let a := s.bm.readLE 20 2
    let b := s.bm.readLE 34 2
    let n := s.bm.readLE 22 2
    let fails (e : ErrCode) : Prop := ∃ t, exec .wavhdr s = .next t ∧ Faulted s t e
    (s.sizes.bmBytes < bl → fails .range) ∧
    (bl ≤ s.sizes.bmBytes →
      (bl < 36 → fails .trunc) ∧
      (36 ≤ bl →
        (s.bm.tagAt 0 ≠ tagRIFF → fails .tagRiff) ∧
        (s.bm.tagAt 0 = tagRIFF → s.bm.tagAt 8 ≠ tagWAVE → fails .tagWave) ∧
        (s.bm.tagAt 0 = tagRIFF → s.bm.tagAt 8 = tagWAVE → s.bm.tagAt 12 ≠ tagFmt → fails .tagFmt) ∧
        (ContainerOk s.bm →
          (¬ (a = 1 ∨ a = 3 ∨ a = 0xFFFE) → fails .afmt) ∧
          (a = 3 → ¬ (b = 32 ∨ b = 64) → fails .bits) ∧
          (a = 1 ∨ a = 0xFFFE → ¬ (b = 8 ∨ b = 16 ∨ b = 24 ∨ b = 32) → fails .bits) ∧
          (DescriptorOk a b 1 → n = 0 → fails .chan) ∧
          (DescriptorOk a b n →
            (a ≠ 0xFFFE → bl < 44 → fails .trunc) ∧
            (a ≠ 0xFFFE → 44 ≤ bl → s.bm.tagAt 36 ≠ tagData → fails .tagData) ∧
            (a = 0xFFFE → bl < 38 → fails .trunc) ∧
            (a = 0xFFFE → 38 ≤ bl → (∀ c, ¬ DataHeaderAt s.bm bl a c) → fails .tagData) ∧
            (∀ c, DataHeaderAt s.bm bl a c →
              bl < c + 8 + s.bm.readLE (c + 4) 4 / n / (b / 8) * n * (b / 8) → fails .trunc)))))

/-- 43_codec.md R185: the formulas of the integer depths as signed values, and the values the rule
gives. -/
def Obligations.NormalisationOfSamples : Prop :=
  (∀ a, a ≠ 3 →
    (∀ u : BitVec 8, normSample u.toNat a 8 = fsub (fmul (fdiv (f64 u.toNat) f255) fTwo) fOne) ∧
    (∀ u : BitVec 16, normSample u.toNat a 16 = fdiv (f64 u.toInt) f32768) ∧
    (∀ u : BitVec 24, normSample u.toNat a 24 = fdiv (f64 u.toInt) fTwo31) ∧
    (∀ u : BitVec 32, normSample u.toNat a 32 = fdiv (f64 u.toInt) fTwo31)) ∧
  (∀ u : BitVec 32, normSample u.toNat 3 32 = f32to64 u) ∧
  (∀ u : BitVec 64, normSample u.toNat 3 64 = u) ∧
  normSample 0x00 1 8 = fNegOne ∧ normSample 0xFF 1 8 = fOne ∧
  normSample 0x80 1 8 = 0x3F70101010101000#64 ∧ normSample 0x8000 1 16 = fNegOne ∧
  normSample 0x800000 1 24 = 0xBF70000000000000#64 ∧
  normSample 0x7FFFFF 1 24 = 0x3F6FFFFFC0000000#64 ∧
  normSample 0x80000000 1 32 = fNegOne ∧ normSample 0x7FFFFFFF 1 32 = 0x3FEFFFFFFFC00000#64

/-- 43_codec.md R191: the encoding formula of every format, for every sample, a NaN taken as +0.0 by the
integer formats; 40_numerics.md R117: `toint` rounds to nearest, ties to even, and saturates at both
ends; the table of 95_test_vectors.md V-C9. R196: so encoding the decoded value of a raw sample gives the
raw sample back, for every sample of every integer depth, every binary32 sample that is not a NaN, and
every binary64 sample. -/
def Obligations.SampleRoundTrip : Prop :=
  (∀ (v : F64) (a : Nat), a ≠ 3 →
    let s := if isNaN v then 0#64 else v
    let code (k : Nat) (x : F64) (lo hi : Int) : Nat := (BitVec.ofInt k (toint x lo hi)).toNat
    denormSample v a 8 = code 8
      (fmul (fdiv (fadd s 0x3FF0000000000000#64) 0x4000000000000000#64) 0x406FE00000000000#64)
      0 255 ∧
    denormSample v a 16 = code 16 (fmul s 0x40E0000000000000#64) (-32768) 32767 ∧
    denormSample v a 24 = code 24 (fmul s 0x41E0000000000000#64) (-8388608) 8388607 ∧
    denormSample v a 32 = code 32 (fmul s 0x41E0000000000000#64) (-2147483648) 2147483647) ∧
  (∀ v : F64, denormSample v 3 32 = (f64to32 v).toNat ∧ denormSample v 3 64 = v.toNat) ∧
  (∀ (v : F64) (lo hi : Int), lo ≤ hi →
    (isNaN v = true → toint v lo hi = toint 0#64 lo hi) ∧
    (isInf v = true → toint v lo hi = if fsign v then lo else hi) ∧
    (isFinite v = true → ∃ k : Int, NearestInt v k ∧ toint v lo hi = max lo (min hi k))) ∧
  (∀ r ∈ ([(0x3FF0000000000000#64, 0xFF, 0x7FFF, 0x7FFFFF, 0x7FFFFFFF, 0x3F800000),
      (0xBFF0000000000000#64, 0x00, 0x8000, 0x800000, 0x80000000, 0xBF800000),
      (0x3FE0000000000000#64, 0xBF, 0x4000, 0x7FFFFF, 0x40000000, 0x3F000000),
      (0xBFE0000000000000#64, 0x40, 0xC000, 0x800000, 0xC0000000, 0xBF000000),
      (0x0000000000000000#64, 0x80, 0x0000, 0x000000, 0x00000000, 0x00000000),
      (0x8000000000000000#64, 0x80, 0x0000, 0x000000, 0x00000000, 0x80000000),
      (0x3FEFFFFDE7210BE9#64, 0xFF, 0x7FFF, 0x7FFFFF, 0x7FFFF79D, 0x3F7FFFEF),
      (0x4000000000000000#64, 0xFF, 0x7FFF, 0x7FFFFF, 0x7FFFFFFF, 0x40000000),
      (0xC000000000000000#64, 0x00, 0x8000, 0x800000, 0x80000000, 0xC0000000),
      (0x7FF0000000000000#64, 0xFF, 0x7FFF, 0x7FFFFF, 0x7FFFFFFF, 0x7F800000),
      (0xFFF0000000000000#64, 0x00, 0x8000, 0x800000, 0x80000000, 0xFF800000),
      (0x7FF8000000000000#64, 0x80, 0x0000, 0x000000, 0x00000000, 0x7FC00000),
      (0x3EF0000000000000#64, 0x80, 0x0000, 0x008000, 0x00008000, 0x37800000),
      (0x3F08000000000000#64, 0x80, 0x0002, 0x018000, 0x00018000, 0x38400000),
      (0x3F14000000000000#64, 0x80, 0x0002, 0x028000, 0x00028000, 0x38A00000),
      (0xBEF0000000000000#64, 0x7F, 0x0000, 0xFF8000, 0xFFFF8000, 0xB7800000),
      (0x3F70101010101010#64, 0x80, 0x0081, 0x7FFFFF, 0x00808081, 0x3B808081),
      (0x3F70000000000000#64, 0x80, 0x0080, 0x7FFFFF, 0x00800000, 0x3B800000),
      (0xBF70000000000000#64, 0x7F, 0xFF80, 0x800000, 0xFF800000, 0xBB800000),
      (0x3F60000000000000#64, 0x80, 0x0040, 0x400000, 0x00400000, 0x3B000000),
      (0x3DDB7CDFD9D7BDBB#64, 0x80, 0x0000, 0x000000, 0x00000000, 0x2EDBE6FF)] :
      List (F64 × Nat × Nat × Nat × Nat × Nat)),
    (denormSample r.1 1 8, denormSample r.1 1 16, denormSample r.1 1 24, denormSample r.1 1 32,
      denormSample r.1 3 32) = r.2) ∧
  (∀ a b u : Nat, a ≠ 3 → b = 8 ∨ b = 16 ∨ b = 24 ∨ b = 32 → u < 2 ^ b →
    denormSample (normSample u a b) a b = u) ∧
  (∀ u : BitVec 32, u.toNat % 2 ^ 31 ≤ infMag32 → denormSample (normSample u.toNat 3 32) 3 32 = u.toNat) ∧
  (∀ u : BitVec 64, denormSample (normSample u.toNat 3 64) 3 64 = u.toNat)

/-- 43_codec.md R181, R251: the descriptor check of `PCMDEC`, `WAVHDRW` and `PCMENC` comes first, in the
order format, depth, channels. -/
def Obligations.DescriptorFaults : Prop :=
  ∀ (s : State) (i : Instr), i = .pcmdec ∨ i = .wavhdrw ∨ i = .pcmenc →
    let a := s.regs.afmt.toNat
    let b := s.regs.bps.toNat
    let n := s.regs.nch.toNat
    let fails (e : ErrCode) : Prop := ∃ t, exec i s = .next t ∧ Faulted s t e
    (¬ (a = 1 ∨ a = 3 ∨ a = 0xFFFE) → fails .afmt) ∧
    (a = 3 → ¬ (b = 32 ∨ b = 64) → fails .bits) ∧
    (a = 1 ∨ a = 0xFFFE → ¬ (b = 8 ∨ b = 16 ∨ b = 24 ∨ b = 32) → fails .bits) ∧
    (DescriptorOk a b 1 → n = 0 → fails .chan)

/-- 43_codec.md R186, R190, R192: the faults that follow a good descriptor, in their order. -/
def Obligations.CodecRangeFaults : Prop :=
  ∀ s : State,
    let n := s.regs.nch.toNat
    let ns := s.regs.nsamp.toNat
    let by' := s.regs.bps.toNat / 8
    let stride := s.regs.chstride.toNat
    let stop := s.regs.dataoff.toNat + ns * n * by'
    let fails (i : Instr) (e : ErrCode) : Prop := ∃ t, exec i s = .next t ∧ Faulted s t e
    let buffersBad := (1 < n ∧ stride < ns) ∨
      s.sizes.rmWords < s.regs.chbase.toNat + (n - 1) * stride + ns
    DescriptorOk s.regs.afmt.toNat s.regs.bps.toNat n →
    (s.sizes.bmBytes < s.regs.blen.toNat → fails .pcmdec .range) ∧
    (s.regs.blen.toNat ≤ s.sizes.bmBytes → s.regs.blen.toNat < stop → fails .pcmdec .trunc) ∧
    (s.regs.blen.toNat ≤ s.sizes.bmBytes → stop ≤ s.regs.blen.toNat → buffersBad →
      fails .pcmdec .range) ∧
    (s.sizes.bmBytes < stop ∨ buffersBad → fails .pcmenc .range) ∧
    (2 ^ 32 ≤ 36 + ns * n * by' ∨ s.sizes.bmBytes < 44 ∨ 2 ^ 32 ≤ s.regs.srate.toNat * n * by' ∨
      2 ^ 16 ≤ n * by' → fails .wavhdrw .range)

/-- 43_codec.md R186: `PCMDEC`, sample by sample. -/
def Obligations.PcmdecCompletes : Prop :=
  ∀ s : State,
    let a := s.regs.afmt.toNat
    let b := s.regs.bps.toNat
    let n := s.regs.nch.toNat
    let ns := s.regs.nsamp.toNat
    let off := s.regs.dataoff.toNat
    let stride := s.regs.chstride.toNat
    let base := s.regs.chbase.toNat
    DescriptorOk a b n → s.regs.blen.toNat ≤ s.sizes.bmBytes →
    off + ns * n * (b / 8) ≤ s.regs.blen.toNat → (1 < n → ns ≤ stride) →
    base + (n - 1) * stride + ns ≤ s.sizes.rmWords →
    ∃ t, exec .pcmdec s = .next t ∧
      Completed s t noReg (fun p => ∃ c k, c < n ∧ k < ns ∧ p = .rm (base + c * stride + k)) ∧
      t.cfgv = s.cfgv ∧ t.xsel = s.xsel ∧
      ∀ c k, c < n → k < ns → t.rm.get (base + c * stride + k) =
        normSample (s.bm.readLE (off + (k * n + c) * (b / 8)) (b / 8)) a b

/-- 43_codec.md R192: `PCMENC`, byte by byte. -/
def Obligations.PcmencCompletes : Prop :=
  ∀ s : State,
    let a := s.regs.afmt.toNat
    let b := s.regs.bps.toNat
    let n := s.regs.nch.toNat
    let ns := s.regs.nsamp.toNat
    let off := s.regs.dataoff.toNat
    let stride := s.regs.chstride.toNat
    let base := s.regs.chbase.toNat
    s.sizes.Legal → DescriptorOk a b n → off + ns * n * (b / 8) ≤ s.sizes.bmBytes →
    (1 < n → ns ≤ stride) → base + (n - 1) * stride + ns ≤ s.sizes.rmWords →
    ∃ t, exec .pcmenc s = .next t ∧
      Completed s t (· = .blen)
        (fun p => ∃ j, j < ns * n * (b / 8) ∧ p = .bm (off + j)) ∧
      t.cfgv = s.cfgv ∧ t.xsel = s.xsel ∧ t.regs.blen.toNat = off + ns * n * (b / 8) ∧
      ∀ c k j, c < n → k < ns → j < b / 8 →
        (t.bm.get (off + (k * n + c) * (b / 8) + j)).toNat =
          denormSample (s.rm.get (base + c * stride + k)) a b / 256 ^ j % 256

/-- 43_codec.md R190: `WAVHDRW`: the fields of the header it writes, and the registers. -/
def Obligations.WavhdrwCompletes : Prop :=
  ∀ s : State,
    let a := s.regs.afmt.toNat
    let b := s.regs.bps.toNat
    let n := s.regs.nch.toNat
    let dsz := s.regs.nsamp.toNat * n * (b / 8)
    let brate := s.regs.srate.toNat * n * (b / 8)
    DescriptorOk a b n → 36 + dsz < 2 ^ 32 → 44 ≤ s.sizes.bmBytes → brate < 2 ^ 32 →
    n * (b / 8) < 2 ^ 16 →
    ∃ t, exec .wavhdrw s = .next t ∧
      Completed s t (fun r => r = .riffsz ∨ r = .fmtsz ∨ r = .byterate ∨ r = .balign ∨
        r = .datasize ∨ r = .dataoff ∨ r = .blen) (fun p => ∃ j, j < 44 ∧ p = .bm j) ∧
      t.cfgv = s.cfgv ∧ t.xsel = s.xsel ∧
      t.bm.tagAt 0 = tagRIFF ∧ t.bm.readLE 4 4 = 36 + dsz ∧ t.bm.tagAt 8 = tagWAVE ∧
      t.bm.tagAt 12 = tagFmt ∧ t.bm.readLE 16 4 = 16 ∧
      t.bm.readLE 20 2 = (if a = 3 then 3 else 1) ∧ t.bm.readLE 22 2 = n ∧
      t.bm.readLE 24 4 = s.regs.srate.toNat ∧ t.bm.readLE 28 4 = brate ∧
      t.bm.readLE 32 2 = n * (b / 8) ∧ t.bm.readLE 34 2 = b ∧ t.bm.tagAt 36 = tagData ∧
      t.bm.readLE 40 4 = dsz ∧
      t.regs.riffsz.toNat = 36 + dsz ∧ t.regs.fmtsz.toNat = 16 ∧ t.regs.byterate.toNat = brate ∧
      t.regs.balign.toNat = n * (b / 8) ∧ t.regs.datasize.toNat = dsz ∧
      t.regs.dataoff.toNat = 44 ∧ t.regs.blen.toNat = 44

/-- 43_codec.md R190, R183, R192: a file written by `WAVHDRW` and `PCMENC` is parsed by `WAVHDR` back
to the descriptor it was written from; an extensible descriptor comes back as integer PCM. -/
def Obligations.WrittenFileParsesBack : Prop :=
  ∀ s : State,
    let a := s.regs.afmt.toNat
    let b := s.regs.bps.toNat
    let n := s.regs.nch.toNat
    let ns := s.regs.nsamp.toNat
    let stride := s.regs.chstride.toNat
    let dsz := ns * n * (b / 8)
    s.sizes.Legal → DescriptorOk a b n → 44 + dsz ≤ s.sizes.bmBytes →
    s.regs.srate.toNat * n * (b / 8) < 2 ^ 32 → n * (b / 8) < 2 ^ 16 →
    (1 < n → ns ≤ stride) → s.regs.chbase.toNat + (n - 1) * stride + ns ≤ s.sizes.rmWords →
    ∃ t, execAll [.wavhdrw, .pcmenc, .wavhdr] s = .next t ∧ t.err = s.err ∧
      t.regs.afmt.toNat = (if a = 3 then 3 else 1) ∧ t.regs.nch = s.regs.nch ∧
      t.regs.bps = s.regs.bps ∧ t.regs.srate = s.regs.srate ∧ t.regs.nsamp = s.regs.nsamp ∧
      t.regs.dataoff.toNat = 44 ∧ t.regs.datasize.toNat = dsz ∧
      t.regs.blen.toNat = 44 + dsz

/-- 45_sequences.md R230: the codec commands do not touch the banks, the window and the phase state;
the transform and vocoder commands do not touch BM and the descriptor registers. -/
def Obligations.UnitsAreIsolated : Prop :=
  ∀ (i : Instr) (s t : State), exec i s = .next t →
    (0x30 ≤ i.opcode →
      t.xsel = s.xsel ∧ t.cfgv = s.cfgv ∧
      ∀ p, (∀ a, p ≠ .rm a) → (∀ b, p ≠ .bm b) → t.entry p = s.entry p) ∧
    (i.opcode < 0x30 →
      (∀ b, t.entry (.bm b) = s.entry (.bm b)) ∧
      ∀ r : RegName, r = .afmt ∨ r = .nch ∨ r = .srate ∨ r = .bps ∨ r = .nsamp →
        t.readReg r = s.readReg r)
end

