-- ==== Sys2Proof/Laws/Numerics.lean ====
section
/-!
SUPPORT. The parts of a binary64 pattern, and rounding (40_numerics.md R110 to R112): where the
rounded magnitude lies, and when nothing is rounded.
-/

namespace Sys2Proof.Machine

/-! ## Patterns -/

theorem fmag_lt (a : F64) : fmag a < 2 ^ 63 := Nat.mod_lt _ (by norm_num)

theorem toNat_pack {s : Bool} {m : Nat} (h : m < 2 ^ 63) :
    (pack s m).toNat = (if s then 2 ^ 63 else 0) + m := by
  rw [pack, BitVec.toNat_ofNat, Nat.mod_eq_of_lt]
  cases s
  · simp only [Bool.false_eq_true, if_false]; omega
  · simp only [if_true]; omega

@[simp] theorem fsign_pack {s : Bool} {m : Nat} (h : m < 2 ^ 63) : fsign (pack s m) = s := by
  rw [fsign, toNat_pack h]
  cases s
  · simp only [Bool.false_eq_true, if_false, decide_eq_false_iff_not]; omega
  · simp only [if_true, decide_eq_true_eq]; omega

@[simp] theorem fmag_pack {s : Bool} {m : Nat} (h : m < 2 ^ 63) : fmag (pack s m) = m := by
  rw [fmag, toNat_pack h]
  cases s
  · simp only [Bool.false_eq_true, if_false]; omega
  · simp only [if_true]; omega

/-- A pattern is its sign and its magnitude. -/
theorem pack_fsign_fmag (a : F64) : pack (fsign a) (fmag a) = a := by
  apply BitVec.eq_of_toNat_eq
  have := a.isLt
  rw [toNat_pack (fmag_lt a), fsign, fmag]
  by_cases h : 2 ^ 63 ≤ a.toNat
  · simp only [h, decide_true, if_true]; omega
  · simp only [h, decide_false, Bool.false_eq_true, if_false]; omega

theorem ext_pattern {a b : F64} (hs : fsign a = fsign b) (hm : fmag a = fmag b) : a = b := by
  rw [← pack_fsign_fmag a, ← pack_fsign_fmag b, hs, hm]

theorem infMag_eq : infMag = 2047 * 2 ^ 52 := by norm_num [infMag]

theorem infMag_lt : infMag < 2 ^ 63 := by norm_num [infMag]

theorem infMag32_eq : infMag32 = 255 * 2 ^ 23 := by norm_num [infMag32]

/-! ## Nearest integer -/

/-- The defining property of rounding a quotient to the nearest integer, ties to even. -/
theorem rneDiv_spec (num den : Nat) (hd : 0 < den) :
    2 * num ≤ 2 * (rneDiv num den * den) + den ∧ 2 * (rneDiv num den * den) ≤ 2 * num + den ∧
      (2 * num = 2 * (rneDiv num den * den) + den → rneDiv num den % 2 = 0) ∧
      (2 * (rneDiv num den * den) = 2 * num + den → rneDiv num den % 2 = 0) := by
  have h := Nat.div_add_mod num den
  have hr := Nat.mod_lt num hd
  unfold rneDiv
  simp only
  generalize num / den = q at *
  generalize num % den = r at *
  subst h
  have e : den * q = q * den := Nat.mul_comm _ _
  have e2 : (q + 1) * den = q * den + den := Nat.succ_mul _ _
  split
  · rename_i hc
    rw [e2, e]
    refine ⟨by omega, by omega, fun ht => by omega, fun ht => ?_⟩
    rcases hc with hc | hc <;> omega
  · rename_i hc
    rw [e]
    refine ⟨by omega, by omega, fun ht => ?_, fun ht => by omega⟩
    by_contra ho
    exact hc (.inr ⟨by omega, by omega⟩)

theorem rneDiv_mul (k den : Nat) (hd : 0 < den) : rneDiv (k * den) den = k := by
  unfold rneDiv
  simp only [Nat.mul_div_cancel _ hd, Nat.mul_mod_left]
  rw [if_neg (by omega)]

theorem rneDiv_mono {a b den : Nat} (hd : 0 < den) (h : a ≤ b) : rneDiv a den ≤ rneDiv b den := by
  obtain ⟨a1, a2, a3, a4⟩ := rneDiv_spec a den hd
  obtain ⟨b1, b2, b3, b4⟩ := rneDiv_spec b den hd
  by_contra hlt
  have hlt : rneDiv b den + 1 ≤ rneDiv a den := by omega
  have := Nat.mul_le_mul_right den hlt
  rw [Nat.succ_mul] at this
  have e1 : 2 * (rneDiv a den * den) = 2 * a + den := by omega
  have e2 : 2 * b = 2 * (rneDiv b den * den) + den := by omega
  have := a4 e1
  have := b3 e2
  have e3 : rneDiv a den * den = (rneDiv b den + 1) * den := by rw [Nat.succ_mul]; omega
  have := Nat.eq_of_mul_eq_mul_right hd e3
  omega

/-! ## The grid of a binade

For a format with any number `fb` of fraction bits: binary64 has 52, binary32 has 23. -/

section Format

variable {fb inf : Nat}

/-- The magnitude `sh · 2^fb + t` is `t` steps of `2^sh` units: the grid on which `roundMag` works. -/
theorem magUnits_grid {sh t : Nat} (h1 : sh = 0 ∨ 2 ^ fb ≤ t) (h2 : t ≤ 2 ^ (fb + 1)) :
    magUnits fb (sh * 2 ^ fb + t) = t * 2 ^ sh := by
  have hp := Nat.two_pow_pos fb
  have hq (k r : Nat) (hr : r < 2 ^ fb) : (k * 2 ^ fb + r) / 2 ^ fb = k ∧
      (k * 2 ^ fb + r) % 2 ^ fb = r := by
    constructor
    · rw [Nat.mul_comm, Nat.mul_add_div hp, Nat.div_eq_of_lt hr, Nat.add_zero]
    · rw [Nat.mul_comm, Nat.mul_add_mod, Nat.mod_eq_of_lt hr]
  unfold magUnits
  by_cases ht : t < 2 ^ fb
  · obtain rfl : sh = 0 := by omega
    rw [(hq 0 t ht).1, if_pos rfl]; simp
  · by_cases ht2 : t = 2 ^ (fb + 1)
    · subst ht2
      have e : sh * 2 ^ fb + 2 ^ (fb + 1) = (sh + 2) * 2 ^ fb + 0 := by rw [pow_succ]; ring
      rw [e, (hq _ 0 hp).1, (hq _ 0 hp).2, if_neg (by omega), show sh + 2 - 1 = sh + 1 by omega]
      ring
    · have hlt : t - 2 ^ fb < 2 ^ fb := by rw [pow_succ] at h2 ht2; omega
      have e : sh * 2 ^ fb + t = (sh + 1) * 2 ^ fb + (t - 2 ^ fb) := by rw [Nat.succ_mul]; omega
      rw [e, (hq _ _ hlt).1, (hq _ _ hlt).2, if_neg (by omega), show sh + 1 - 1 = sh by omega,
        show 2 ^ fb + (t - 2 ^ fb) = t by omega]

/-- Every magnitude is a grid point. -/
theorem exists_grid (fb m : Nat) :
    ∃ sh t, m = sh * 2 ^ fb + t ∧ (sh = 0 ∨ 2 ^ fb ≤ t) ∧ t < 2 ^ (fb + 1) ∧
      magUnits fb m = t * 2 ^ sh := by
  have hp := Nat.two_pow_pos fb
  have hm := Nat.div_add_mod m (2 ^ fb)
  have hr := Nat.mod_lt m hp
  obtain ⟨sh, t, h1, h2, h3⟩ : ∃ sh t, m = sh * 2 ^ fb + t ∧ (sh = 0 ∨ 2 ^ fb ≤ t) ∧
      t < 2 ^ (fb + 1) := by
    rw [pow_succ]
    rcases Nat.eq_zero_or_pos (m / 2 ^ fb) with h | h
    · rw [h] at hm; exact ⟨0, m, by simp, .inl rfl, by omega⟩
    · obtain ⟨k, hk⟩ := Nat.exists_eq_succ_of_ne_zero (Nat.pos_iff_ne_zero.1 h)
      rw [hk, Nat.mul_comm, Nat.succ_mul] at hm
      exact ⟨k, 2 ^ fb + m % 2 ^ fb, by omega, .inr (by omega), by omega⟩
  exact ⟨sh, t, h1, h2, h3, h1 ▸ magUnits_grid h2 h3.le⟩

/-- The units of consecutive magnitudes differ by at least one. -/
theorem magUnits_succ_le (m : Nat) : magUnits fb m + 1 ≤ magUnits fb (m + 1) := by
  obtain ⟨sh, t, rfl, h1, h2, h3⟩ := exists_grid fb m
  rw [h3, Nat.add_assoc, magUnits_grid (t := t + 1) (by omega) (by omega), Nat.succ_mul]
  have := Nat.two_pow_pos sh
  omega

theorem magUnits_lt_of_lt {m n : Nat} (h : m < n) : magUnits fb m < magUnits fb n := by
  induction n with
  | zero => omega
  | succ n ih =>
    have := magUnits_succ_le (fb := fb) n
    rcases Nat.lt_succ_iff_lt_or_eq.1 h with h | rfl
    · have := ih h; omega
    · omega

theorem magUnits_le_iff {m n : Nat} : magUnits fb m ≤ magUnits fb n ↔ m ≤ n := by
  constructor
  · intro h; by_contra hn; have := magUnits_lt_of_lt (fb := fb) (not_le.1 hn); omega
  · intro h
    rcases Nat.lt_or_eq_of_le h with h | rfl
    · exact (magUnits_lt_of_lt h).le
    · exact le_rfl

theorem magUnits_inj {m n : Nat} (h : magUnits fb m = magUnits fb n) : m = n :=
  le_antisymm (magUnits_le_iff.1 h.le) (magUnits_le_iff.1 h.ge)

/-! ## Rounding a quotient -/

/-- The binade of `num / den` when it is rounded: the place `sh` of the last kept bit. -/
theorem roundMag_binade (fb num den : Nat) (hd : 0 < den) :
    ((num / den).log2 - fb = 0 ∨ 2 ^ fb * 2 ^ ((num / den).log2 - fb) * den ≤ num) ∧
      num < 2 ^ (fb + 1) * 2 ^ ((num / den).log2 - fb) * den := by
  generalize hsh : (num / den).log2 - fb = sh
  constructor
  · by_cases h0 : sh = 0
    · exact .inl h0
    · right
      have hq : num / den ≠ 0 := by
        intro h; rw [h, Nat.log2_zero] at hsh; omega
      have := Nat.log2_self_le hq
      rw [show (num / den).log2 = fb + sh by omega, pow_add] at this
      exact (Nat.le_div_iff_mul_le hd).1 this
  · refine (Nat.div_lt_iff_lt_mul hd).1 (lt_of_lt_of_le Nat.lt_log2_self ?_)
    rw [← pow_add]
    exact Nat.pow_le_pow_right (by norm_num) (by omega)

/-- Rounding on the grid of a binade stays inside the binade. -/
theorem rneDiv_binade {num den sh : Nat} (hd : 0 < den)
    (hlow : sh = 0 ∨ 2 ^ fb * 2 ^ sh * den ≤ num) (hnum : num < 2 ^ (fb + 1) * 2 ^ sh * den) :
    rneDiv num (den * 2 ^ sh) ≤ 2 ^ (fb + 1) ∧ (sh = 0 ∨ 2 ^ fb ≤ rneDiv num (den * 2 ^ sh)) := by
  have hdp : 0 < den * 2 ^ sh := Nat.mul_pos hd (Nat.two_pow_pos sh)
  have e (k : Nat) : k * 2 ^ sh * den = k * (den * 2 ^ sh) := by ring
  rw [e] at hlow hnum
  constructor
  · have := rneDiv_mono hdp hnum.le
    rwa [rneDiv_mul _ _ hdp] at this
  · refine hlow.imp_right fun h => ?_
    have := rneDiv_mono hdp h
    rwa [rneDiv_mul _ _ hdp] at this

/-- The grid on which `num / den` is rounded, and the grid point chosen. -/
theorem roundMag_grid (fb inf num den : Nat) (hd : 0 < den) :
    ∃ sh t, roundMag fb inf num den = min (sh * 2 ^ fb + t) inf ∧
      t = rneDiv num (den * 2 ^ sh) ∧ t ≤ 2 ^ (fb + 1) ∧ (sh = 0 ∨ 2 ^ fb ≤ t) ∧
      (sh = 0 ∨ 2 ^ fb * 2 ^ sh * den ≤ num) ∧ num < 2 ^ (fb + 1) * 2 ^ sh * den := by
  obtain ⟨h1, h2⟩ := roundMag_binade fb num den hd
  obtain ⟨h3, h4⟩ := rneDiv_binade hd h1 h2
  exact ⟨(num / den).log2 - fb, _, rfl, rfl, h3, h4, h1, h2⟩

theorem roundMag_le (num den : Nat) : roundMag fb inf num den ≤ inf := Nat.min_le_right _ _

/-- A representable quotient is not changed by rounding. -/
theorem roundMag_exact {m den : Nat} (hd : 0 < den) (hm : m ≤ inf) :
    roundMag fb inf (magUnits fb m * den) den = m := by
  obtain ⟨sh, t, h1, h2, h3⟩ : ∃ sh t, m = sh * 2 ^ fb + t ∧ magUnits fb m = t * 2 ^ sh ∧
      (magUnits fb m).log2 - fb = sh := by
    obtain ⟨sh, t, h1, h2, h3, h4⟩ := exists_grid fb m
    refine ⟨sh, t, h1, h4, ?_⟩
    rw [h4]
    rcases Nat.eq_zero_or_pos t with rfl | ht
    · rcases h2 with rfl | h2
      · simp
      · have := Nat.two_pow_pos fb; omega
    · have hlt : t * 2 ^ sh < 2 ^ (fb + 1 + sh) := by
        rw [pow_add]; exact Nat.mul_lt_mul_of_pos_right h3 (Nat.two_pow_pos _)
      have hne : t * 2 ^ sh ≠ 0 := (Nat.mul_pos ht (Nat.two_pow_pos _)).ne'
      have hlog := (Nat.log2_lt hne).2 hlt
      rcases h2 with rfl | h2
      · omega
      · have : 2 ^ (fb + sh) ≤ t * 2 ^ sh := by
          rw [pow_add]; exact Nat.mul_le_mul_right _ h2
        have := (Nat.le_log2 hne).2 this
        omega
  unfold roundMag
  simp only
  rw [Nat.mul_div_cancel _ hd, h3, h2,
    show t * 2 ^ sh * den = t * (den * 2 ^ sh) by ring,
    rneDiv_mul _ _ (Nat.mul_pos hd (Nat.two_pow_pos _)), ← h1, Nat.min_eq_left hm]

/-- Rounding is monotone. -/
theorem roundMag_mono {a b den : Nat} (hd : 0 < den) (h : a ≤ b) :
    roundMag fb inf a den ≤ roundMag fb inf b den := by
  unfold roundMag
  simp only
  refine min_le_min_right _ ?_
  have hl : (a / den).log2 ≤ (b / den).log2 := by
    have hq : a / den ≤ b / den := Nat.div_le_div_right h
    rcases Nat.eq_zero_or_pos (a / den) with h0 | h0
    · rw [h0, Nat.log2_zero]; omega
    · exact (Nat.le_log2 (by omega)).2 (le_trans (Nat.log2_self_le (by omega)) hq)
  obtain ⟨a1, a2⟩ := roundMag_binade fb a den hd
  obtain ⟨b1, b2⟩ := roundMag_binade fb b den hd
  have ca := (rneDiv_binade hd a1 a2).1
  have cb := (rneDiv_binade hd b1 b2).2
  rcases Nat.lt_or_eq_of_le (show (a / den).log2 - fb ≤ (b / den).log2 - fb by omega) with h1 | h1
  · have c3 := Nat.mul_le_mul_right (2 ^ fb) h1
    rw [Nat.succ_mul] at c3
    rw [pow_succ] at ca
    omega
  · rw [h1]
    exact Nat.add_le_add_left
      (rneDiv_mono (Nat.mul_pos hd (Nat.two_pow_pos _)) h) _

end Format

theorem roundMag_lt (num den : Nat) : roundMag 52 infMag num den < 2 ^ 63 :=
  lt_of_le_of_lt (roundMag_le _ _) infMag_lt

/-! ## Rounded patterns -/

@[simp] theorem fsign_round64 (s : Bool) (n d : Nat) : fsign (round64 s n d) = s := by
  unfold round64; exact fsign_pack (roundMag_lt n d)

@[simp] theorem fmag_round64 (s : Bool) (n d : Nat) :
    fmag (round64 s n d) = roundMag 52 infMag n d := by
  unfold round64; exact fmag_pack (roundMag_lt n d)

/-- A rounded value is never a NaN. -/
@[simp] theorem isNaN_round64 (s : Bool) (n d : Nat) : isNaN (round64 s n d) = false := by
  simp only [isNaN, fmag_round64, decide_eq_false_iff_not, not_lt]; exact roundMag_le n d

/-- A finite value rounded from its own units is itself. -/
theorem round64_exact {a : F64} (h : isNaN a = false) {d : Nat} (hd : 0 < d) :
    round64 (fsign a) (funits a * d) d = a := by
  apply ext_pattern
  · simp
  · rw [fmag_round64, funits, roundMag_exact hd]
    simpa [isNaN] using h

/-! ## Negation and magnitude -/

theorem fmag_fneg {x : F64} (h : isNaN x = false) : fmag (fneg x) = fmag x := by
  simp [fneg, h, fmag_pack (fmag_lt x)]

theorem fsign_fneg {x : F64} (h : isNaN x = false) : fsign (fneg x) = !fsign x := by
  simp [fneg, h, fsign_pack (fmag_lt x)]

@[simp] theorem isNaN_fneg (x : F64) : isNaN (fneg x) = isNaN x := by
  by_cases h : isNaN x = true
  · simp only [fneg, h, if_true]; decide +kernel
  · simp only [isNaN, fmag_fneg (eq_false_of_ne_true h)]

theorem isNaN_of_isFinite {x : F64} (h : isFinite x = true) : isNaN x = false := by
  simp only [isFinite, isNaN, decide_eq_true_eq, decide_eq_false_iff_not] at *; omega

@[simp] theorem isFinite_fneg (x : F64) : isFinite (fneg x) = isFinite x := by
  by_cases h : isNaN x = true
  · have hf : isFinite x = false := by
      by_contra hc; rw [isNaN_of_isFinite (by simpa using hc)] at h; cases h
    rw [hf]; simp only [fneg, h, if_true]; decide +kernel
  · simp only [isFinite, fmag_fneg (eq_false_of_ne_true h)]

theorem fneg_fneg {x : F64} (h : isNaN x = false) : fneg (fneg x) = x := by
  have h2 : isNaN (fneg x) = false := by rw [isNaN_fneg, h]
  apply ext_pattern
  · rw [fsign_fneg h2, fsign_fneg h, Bool.not_not]
  · rw [fmag_fneg h2, fmag_fneg h]

@[simp] theorem fabs_fneg (x : F64) : fabs (fneg x) = fabs x := by
  unfold fabs
  rw [isNaN_fneg]
  by_cases h : isNaN x = true
  · simp [h]
  · simp [h, fmag_fneg (eq_false_of_ne_true h)]

theorem fkey_fneg {x : F64} (h : isNaN x = false) : fkey (fneg x) = -fkey x := by
  rw [fkey, fkey, fmag_fneg h, fsign_fneg h]; cases fsign x <;> simp

/-- A free value kept inside a range lies in it. -/
theorem within_mem {lo hi : F64} (h : fle lo fZero = true) (h' : fle fZero hi = true) (v : F64) :
    fle lo (within lo hi v) = true ∧ fle (within lo hi v) hi = true := by
  unfold within
  split
  · simp_all
  · exact ⟨h, h'⟩

end Sys2Proof.Machine
end

