-- ==== Sys2Proof/Laws/Rounding.lean ====
section
/-!
SUPPORT. Rounding against the neighbours of the result (40_numerics.md R110 to R112), which values are
representable, and the integer square root under `fsqrt`.
-/

namespace Sys2Proof.Machine

section Format

variable {fb inf : Nat}

/-! ## Neighbours -/

/-- A magnitude on the right side of the midpoints to its two neighbours is nearest to `x` among all
magnitudes, and is even where another one is as near. -/
theorem nearest_of_neighbours {x : ℝ} {r : Nat}
    (below : ∀ k, r = k + 1 → (magUnits fb k : ℝ) + magUnits fb r ≤ 2 * x ∧
      ((magUnits fb k : ℝ) + magUnits fb r = 2 * x → r % 2 = 0))
    (above : 2 * x ≤ (magUnits fb r : ℝ) + magUnits fb (r + 1) ∧
      (2 * x = (magUnits fb r : ℝ) + magUnits fb (r + 1) → r % 2 = 0)) (m : Nat) :
    |(magUnits fb r : ℝ) - x| ≤ |(magUnits fb m : ℝ) - x| ∧
      (m ≠ r → |(magUnits fb r : ℝ) - x| = |(magUnits fb m : ℝ) - x| → r % 2 = 0) := by
  rcases lt_trichotomy m r with h | rfl | h
  · obtain ⟨k, rfl⟩ : ∃ k, r = k + 1 := ⟨r - 1, by omega⟩
    obtain ⟨g1, g2⟩ := below k rfl
    have hm : (magUnits fb m : ℝ) ≤ magUnits fb k := by
      exact_mod_cast magUnits_le_iff.2 (by omega)
    have hk : (magUnits fb k : ℝ) < magUnits fb (k + 1) := by
      exact_mod_cast magUnits_lt_of_lt (by omega)
    have e : |(magUnits fb m : ℝ) - x| = x - magUnits fb m := by
      rw [abs_of_nonpos] <;> linarith
    rw [e]
    refine ⟨abs_le.2 ⟨by linarith, by linarith⟩, fun _ he => g2 ?_⟩
    rcases abs_cases ((magUnits fb (k + 1) : ℝ) - x) with h | h <;> linarith
  · exact ⟨le_rfl, fun h => absurd rfl h⟩
  · obtain ⟨g1, g2⟩ := above
    have hm : (magUnits fb (r + 1) : ℝ) ≤ magUnits fb m := by
      exact_mod_cast magUnits_le_iff.2 (by omega)
    have hk : (magUnits fb r : ℝ) < magUnits fb (r + 1) := by
      exact_mod_cast magUnits_lt_of_lt (by omega)
    have e : |(magUnits fb m : ℝ) - x| = magUnits fb m - x := by
      rw [abs_of_nonneg]; linarith
    rw [e]
    refine ⟨abs_le.2 ⟨by linarith, by linarith⟩, fun _ he => g2 ?_⟩
    rcases abs_cases ((magUnits fb r : ℝ) - x) with h | h <;> linarith

/-- A rounded quotient that is not infinite lies on the right side of the midpoints to its
neighbours. -/
theorem roundMag_neighbours (hfb : 1 ≤ fb) {num den r : Nat} (hd : 0 < den)
    (hr : roundMag fb inf num den = r) (hlt : r < inf) :
    (∀ k, r = k + 1 → (magUnits fb k + magUnits fb r) * den ≤ 2 * num ∧
      ((magUnits fb k + magUnits fb r) * den = 2 * num → r % 2 = 0)) ∧
    2 * num ≤ (magUnits fb r + magUnits fb (r + 1)) * den ∧
    (2 * num = (magUnits fb r + magUnits fb (r + 1)) * den → r % 2 = 0) := by
  obtain ⟨sh, t, hr', ht, h1, h2, h3, -⟩ := roundMag_grid fb inf num den hd
  have hD : 0 < den * 2 ^ sh := Nat.mul_pos hd (Nat.two_pow_pos _)
  obtain ⟨a1, a2, a3, a4⟩ := rneDiv_spec num (den * 2 ^ sh) hD
  rw [← ht] at a1 a2 a3 a4
  obtain rfl : r = sh * 2 ^ fb + t := by omega
  clear hr hr' hlt ht
  have hu : magUnits fb (sh * 2 ^ fb + t) = t * 2 ^ sh := magUnits_grid h2 h1
  have hpar : t % 2 = 0 → (sh * 2 ^ fb + t) % 2 = 0 := by
    obtain ⟨c, hc⟩ : 2 ∣ 2 ^ fb := dvd_pow_self 2 (by omega)
    rw [hc, show sh * (2 * c) + t = t + 2 * (sh * c) by ring]; omega
  rw [hu]
  refine ⟨fun k hk => ?_, ?_⟩
  · by_cases hb : sh = 0 ∨ 2 ^ fb + 1 ≤ t
    · obtain ⟨t, rfl⟩ : ∃ t', t = t' + 1 := by
        refine ⟨t - 1, ?_⟩
        rcases hb with rfl | hb <;> omega
      have ek : k = sh * 2 ^ fb + t := by omega
      have hk' : magUnits fb k = t * 2 ^ sh := by rw [ek]; exact magUnits_grid (by omega) (by omega)
      have e3 : (t * 2 ^ sh + (t + 1) * 2 ^ sh) * den + den * 2 ^ sh
          = 2 * ((t + 1) * (den * 2 ^ sh)) := by ring
      rw [hk']
      exact ⟨by omega, fun he => hpar (a4 (by omega))⟩
    · have e : t = 2 ^ fb := by omega
      rcases h3 with h3 | h3
      · omega
      · rw [← e] at h3
        have hlt := Nat.mul_lt_mul_of_pos_right
          (magUnits_lt_of_lt (fb := fb) (show k < sh * 2 ^ fb + t by omega)) hd
        rw [hu] at hlt
        rw [Nat.add_mul]
        constructor <;> omega
  · have hm1 : (t + 1) * 2 ^ sh ≤ magUnits fb (sh * 2 ^ fb + t + 1) := by
      by_cases htop : t = 2 ^ (fb + 1)
      · have e2 : sh * 2 ^ fb + t + 1 = (sh + 1) * 2 ^ fb + (2 ^ fb + 1) := by
          rw [htop, pow_succ, Nat.succ_mul]; omega
        rw [e2, magUnits_grid (by omega) (by have := Nat.two_pow_pos fb; rw [pow_succ]; omega),
          htop, pow_succ, pow_succ,
          show (2 ^ fb + 1) * (2 ^ sh * 2) = (2 ^ fb * 2 + 2) * 2 ^ sh by ring]
        exact Nat.mul_le_mul_right _ (by omega)
      · rw [Nat.add_assoc, magUnits_grid (sh := sh) (t := t + 1) (by omega) (by omega)]
    have hm2 := Nat.mul_le_mul_right den hm1
    rw [Nat.add_mul, show t * 2 ^ sh * den = t * (den * 2 ^ sh) by ring]
    rw [show (t + 1) * 2 ^ sh * den = (t + 1) * (den * 2 ^ sh) by ring, Nat.succ_mul] at hm2
    exact ⟨by omega, fun he => hpar (a3 (by omega))⟩

/-- A quotient rounds to infinity exactly from half a unit in the last place above the largest finite
magnitude on; `E` is the exponent field of infinity. -/
theorem roundMag_eq_inf {E : Nat} (hE : 3 ≤ E) (hinf : inf = E * 2 ^ fb) (num den : Nat)
    (hd : 0 < den) :
    roundMag fb inf num den = inf ↔ (2 ^ (fb + 2) - 1) * 2 ^ (E - 3) * den ≤ num := by
  obtain ⟨sh, t, hr, ht, h1, h2, h3, h4⟩ := roundMag_grid fb inf num den hd
  have hP := Nat.two_pow_pos fb
  have hD : 0 < den * 2 ^ sh := Nat.mul_pos hd (Nat.two_pow_pos _)
  obtain ⟨a1, a2, a3, -⟩ := rneDiv_spec num (den * 2 ^ sh) hD
  rw [← ht] at a1 a2 a3
  have key : roundMag fb inf num den = inf ↔ E * 2 ^ fb ≤ sh * 2 ^ fb + t := by rw [hr, hinf]; omega
  rw [key]
  obtain ⟨E, rfl⟩ : ∃ F, E = F + 3 := ⟨E - 3, by omega⟩
  simp only [Nat.add_sub_cancel]
  have p1 : 2 ^ (fb + 1) = 2 * 2 ^ fb := by ring
  have p2 : 2 ^ (fb + 2) = 4 * 2 ^ fb := by ring
  rw [p1] at h1 h4
  rw [p2]
  clear hr key hinf ht
  have hle : (4 * 2 ^ fb - 1) * 2 ^ E * den = 4 * 2 ^ fb * (2 ^ E * den) - 2 ^ E * den := by
    rw [mul_assoc, Nat.sub_mul, one_mul]
  rw [hle]
  have hX : 0 < 2 ^ E * den := Nat.mul_pos (Nat.two_pow_pos _) hd
  rcases Nat.lt_trichotomy sh (E + 1) with hs | rfl | hs
  · have c1 : ¬ (E + 3) * 2 ^ fb ≤ sh * 2 ^ fb + t := by
      have := Nat.mul_le_mul_right (2 ^ fb) (show sh ≤ E by omega)
      rw [Nat.add_mul]; omega
    refine iff_of_false c1 (fun h => ?_)
    have := Nat.mul_le_mul_right den (Nat.mul_le_mul_left (2 * 2 ^ fb)
      (Nat.pow_le_pow_right (show 0 < 2 by norm_num) (show sh ≤ E by omega)))
    rw [mul_assoc (2 * 2 ^ fb) (2 ^ E)] at this
    have h9 : 4 * 2 ^ fb * (2 ^ E * den) = 2 * (2 * 2 ^ fb * (2 ^ E * den)) := by ring
    have h10 : 2 ^ E * den ≤ 2 * 2 ^ fb * (2 ^ E * den) := Nat.le_mul_of_pos_left _ (by omega)
    omega
  · have e : den * 2 ^ (E + 1) = 2 * (2 ^ E * den) := by ring
    rw [e] at a1 a2 a3
    rw [show (E + 3) * 2 ^ fb ≤ (E + 1) * 2 ^ fb + t ↔ 2 * 2 ^ fb ≤ t by
      rw [show (E + 3) * 2 ^ fb = (E + 1) * 2 ^ fb + 2 * 2 ^ fb by ring]; omega]
    generalize 2 ^ E * den = X at *
    constructor
    · intro h
      obtain rfl : t = 2 * 2 ^ fb := by omega
      have : 4 * 2 ^ fb * X = 2 * (2 ^ fb * 2 * X) := by ring
      have : 2 * (2 * 2 ^ fb * (2 * X)) = 2 * (2 * (2 ^ fb * 2 * X)) := by ring
      omega
    · intro h
      by_contra hc
      have h6 := Nat.mul_le_mul_right (2 * X) (show t + 1 ≤ 2 * 2 ^ fb by omega)
      rw [Nat.add_mul] at h6
      have h7 : 4 * 2 ^ fb * X = 2 * 2 ^ fb * (2 * X) := by ring
      have h9 := a3 (show 2 * num = 2 * (t * (2 * X)) + 2 * X by omega)
      have h10 := Nat.mul_le_mul_right (2 * X) (show t + 2 ≤ 2 * 2 ^ fb by omega)
      rw [Nat.add_mul] at h10
      omega
  · have c1 : (E + 3) * 2 ^ fb ≤ sh * 2 ^ fb + t := by
      have := Nat.mul_le_mul_right (2 ^ fb) (show E + 2 ≤ sh by omega)
      rcases h2 with h2 | h2
      · omega
      · rw [Nat.add_mul] at *; omega
    refine iff_of_true c1 ?_
    rcases h3 with h3 | h3
    · omega
    · have := Nat.mul_le_mul_right den (Nat.mul_le_mul_left (2 ^ fb)
        (Nat.pow_le_pow_right (show 0 < 2 by norm_num) (show E + 2 ≤ sh by omega)))
      rw [show 2 ^ fb * 2 ^ (E + 2) * den = 4 * 2 ^ fb * (2 ^ E * den) by ring] at this
      omega

/-! ## Which values are representable -/

/-- An integer of at most `fb + 1` bits times a power of two is the value of a magnitude. -/
theorem exists_magUnits : ∀ {s t : Nat}, t < 2 ^ (fb + 1) → ∃ k, magUnits fb k = t * 2 ^ s
  | s, t, ht => by
    induction s generalizing t with
    | zero => exact ⟨0 * 2 ^ fb + t, magUnits_grid (.inl rfl) ht.le⟩
    | succ s ih =>
      by_cases h : t < 2 ^ fb
      · obtain ⟨k, hk⟩ := ih (t := 2 * t) (by rw [pow_succ]; omega)
        exact ⟨k, by rw [hk]; ring⟩
      · exact ⟨(s + 1) * 2 ^ fb + t, magUnits_grid (.inr (by omega)) ht.le⟩

/-- The remainder of two magnitudes is representable (40_numerics.md R114). -/
theorem exists_magUnits_mod {m n : Nat} (hn : 0 < magUnits fb n) :
    ∃ k, magUnits fb k = magUnits fb m % magUnits fb n := by
  obtain ⟨sa, ta, -, -, ha, ea⟩ := exists_grid fb m
  obtain ⟨sb, tb, -, -, hb, eb⟩ := exists_grid fb n
  rw [eb] at hn
  rw [ea, eb]
  have hb0 : 0 < tb := Nat.pos_of_mul_pos_right hn
  rcases Nat.le_total sb sa with h | h
  · obtain ⟨d, rfl⟩ := Nat.exists_eq_add_of_le h
    obtain ⟨k, hk⟩ := exists_magUnits (fb := fb) (s := sb) (lt_trans (Nat.mod_lt (ta * 2 ^ d) hb0) hb)
    refine ⟨k, ?_⟩
    rw [hk, ← Nat.mul_mod_mul_right, show ta * 2 ^ d * 2 ^ sb = ta * 2 ^ (sb + d) by
      rw [pow_add]; ring]
  · obtain ⟨d, rfl⟩ := Nat.exists_eq_add_of_le h
    obtain ⟨k, hk⟩ := exists_magUnits (fb := fb) (s := sa)
      (lt_of_le_of_lt (Nat.mod_le ta (tb * 2 ^ d)) ha)
    refine ⟨k, ?_⟩
    rw [hk, ← Nat.mul_mod_mul_right, show tb * 2 ^ d * 2 ^ sa = tb * 2 ^ (sa + d) by
      rw [pow_add]; ring]

/-- A large value is a multiple of a power of two. -/
theorem dvd_magUnits {k j : Nat} (h : 2 ^ (fb + j) ≤ magUnits fb k) : 2 ^ j ∣ magUnits fb k := by
  obtain ⟨sh, t, -, -, h3, h4⟩ := exists_grid fb k
  rw [h4] at h ⊢
  have : 2 ^ (fb + j) < 2 ^ (fb + 1 + sh) := by
    rw [pow_add 2 (fb + 1)]
    exact lt_of_le_of_lt h (Nat.mul_lt_mul_of_pos_right h3 (Nat.two_pow_pos _))
  have := (Nat.pow_lt_pow_iff_right (a := 2) (by norm_num)).1 this
  exact Dvd.dvd.mul_left (pow_dvd_pow _ (by omega)) _

end Format

/-! ## Finite values -/

theorem fmag_of_isFinite {a : F64} (h : isFinite a = true) : fmag a < infMag := by
  simpa [isFinite] using h

theorem isInf_of_isFinite {a : F64} (h : isFinite a = true) : isInf a = false := by
  have := fmag_of_isFinite h
  simp only [isInf, decide_eq_false_iff_not]; omega

theorem funits_pos {a : F64} (h : isZero a = false) : 0 < funits a := by
  have : 0 < fmag a := by simp [isZero] at h; omega
  have := magUnits_lt_of_lt (fb := 52) this
  unfold funits; omega

/-- The units of infinity's magnitude bits; the exponent is a variable so that nothing evaluates it. -/
theorem magUnits_infMag : ∃ f, f = 2046 ∧ magUnits 52 infMag = 2 ^ 52 * 2 ^ f := by
  refine ⟨2046, rfl, ?_⟩
  rw [infMag_eq, show 2047 * 2 ^ 52 = 2046 * 2 ^ 52 + 2 ^ 52 by norm_num]
  exact magUnits_grid (by norm_num) (by norm_num)

/-- Rounding keeps a representable number of units. -/
theorem funits_round64 {s : Bool} {n k : Nat} (hk : magUnits 52 k = n) (hn : k ≤ infMag) :
    funits (round64 s n 1) = n := by
  subst hk
  rw [funits, fmag_round64]
  have := roundMag_exact (fb := 52) (den := 1) (by norm_num) hn
  rw [mul_one] at this
  rw [this]

theorem fval_eq {a : F64} {s : Bool} {n : Nat} (h1 : fsign a = s) (h2 : funits a = n) :
    fval a = if s then -(n : Int) else n := by rw [fval, h1, h2]

/-! ## Integral values -/

/-- An integer of at most 53 bits times a power of two is representable, and finite. -/
theorem exists_magUnits_int {q e : Nat} (h : q ≤ 2 ^ 53) (he : e + 1 ≤ 2046) :
    ∃ k, k ≤ infMag ∧ magUnits 52 k = q * 2 ^ e := by
  have bd : ∀ k, magUnits 52 k = q * 2 ^ e → k ≤ infMag := by
    intro k hk
    obtain ⟨f, hf, h2⟩ := magUnits_infMag
    rw [← magUnits_le_iff (fb := 52), hk, h2]
    have := Nat.pow_le_pow_right (show 0 < 2 by norm_num) (hf ▸ he : e + 1 ≤ f)
    rw [pow_succ] at this
    calc q * 2 ^ e ≤ 2 ^ 53 * 2 ^ e := Nat.mul_le_mul_right _ h
      _ = 2 ^ 52 * (2 ^ e * 2) := by ring
      _ ≤ _ := Nat.mul_le_mul_left _ this
  by_cases hq : q < 2 ^ 53
  · obtain ⟨k, hk⟩ := exists_magUnits (fb := 52) (s := e) hq
    exact ⟨k, bd k hk, hk⟩
  · have hq2 : q = 2 ^ 53 := le_antisymm h (not_lt.1 hq)
    have : magUnits 52 (e * 2 ^ 52 + 2 ^ 53) = 2 ^ 53 * 2 ^ e :=
      magUnits_grid (.inr (by norm_num)) (by norm_num)
    rw [← hq2] at this
    exact ⟨_, bd _ this, this⟩

/-- A value is a multiple of `2^e` units, or less than `2^52` times as large. -/
theorem funits_mod_or_div (a : F64) (e : Nat) : funits a % 2 ^ e = 0 ∨ funits a / 2 ^ e < 2 ^ 52 := by
  obtain ⟨sh, t, -, -, h3, h4⟩ := exists_grid 52 (fmag a)
  rw [funits, h4]
  by_cases h : e ≤ sh
  · left; obtain ⟨d, rfl⟩ := Nat.exists_eq_add_of_le h
    rw [pow_add, show t * (2 ^ e * 2 ^ d) = 2 ^ e * (t * 2 ^ d) by ring, Nat.mul_mod_right]
  · right
    rw [Nat.div_lt_iff_lt_mul (Nat.two_pow_pos _)]
    have := Nat.pow_le_pow_right (show 0 < 2 by norm_num) (show sh + 1 ≤ e by omega)
    rw [pow_add] at this
    calc t * 2 ^ sh < 2 ^ 53 * 2 ^ sh := Nat.mul_lt_mul_of_pos_right h3 (Nat.two_pow_pos _)
      _ = 2 ^ 52 * (2 ^ sh * 2 ^ 1) := by ring
      _ ≤ _ := Nat.mul_le_mul_left _ this

/-- A finite value is integral, or small (40_numerics.md R115). -/
theorem integral_or_small (a : F64) : funits a % oneUnits = 0 ∨ funits a / oneUnits < 2 ^ 52 :=
  funits_mod_or_div a 1074

/-- An integer of at most 53 bits is packed exactly (40_numerics.md R116). -/
theorem packInt_small {q : Nat} (h : q ≤ 2 ^ 53) (s : Bool) :
    fsign (packInt s q) = s ∧ funits (packInt s q) = q * oneUnits := by
  obtain ⟨k, h1, h2⟩ : ∃ k, k ≤ infMag ∧ magUnits 52 k = q * oneUnits :=
    exists_magUnits_int h (by norm_num)
  rw [packInt]; exact ⟨by simp, funits_round64 h2 h1⟩

/-- The integer below or above a finite value is packed exactly (40_numerics.md R115). -/
theorem packInt_near {a : F64} (ha : isFinite a = true) {q : Nat}
    (hq : q = funits a / oneUnits ∨ (funits a % oneUnits ≠ 0 ∧ q = funits a / oneUnits + 1))
    (s : Bool) : fsign (packInt s q) = s ∧ funits (packInt s q) = q * oneUnits := by
  rcases integral_or_small a with h | h
  · have : q * oneUnits = funits a := by
      rcases hq with rfl | ⟨h2, -⟩
      · exact Nat.div_mul_cancel (Nat.dvd_of_mod_eq_zero h)
      · exact absurd h h2
    rw [packInt]; exact ⟨by simp, funits_round64 this.symm (fmag_of_isFinite ha).le⟩
  · exact packInt_small (by rcases hq with h | ⟨-, h⟩ <;> omega) s

/-! ## The square root -/

theorem isqrtBits_spec (n : Nat) : ∀ k r, r * r ≤ n → n < (r + 2 ^ k) * (r + 2 ^ k) →
    isqrtBits n k r * isqrtBits n k r ≤ n ∧ n < (isqrtBits n k r + 1) * (isqrtBits n k r + 1)
  | 0, r, h1, h2 => by simpa [isqrtBits] using ⟨h1, h2⟩
  | k + 1, r, h1, h2 => by
    unfold isqrtBits
    rw [pow_succ] at h2
    split
    · rename_i h
      exact isqrtBits_spec n k _ h (by rwa [show r + 2 ^ k + 2 ^ k = r + 2 ^ k * 2 by ring])
    · exact isqrtBits_spec n k r h1 (by omega)

/-- The integer square root, rounded down. -/
theorem isqrt_spec (n : Nat) : isqrt n * isqrt n ≤ n ∧ n < (isqrt n + 1) * (isqrt n + 1) := by
  refine isqrtBits_spec n _ 0 (by omega) (lt_of_lt_of_le Nat.lt_log2_self ?_)
  rw [Nat.zero_add, ← pow_add]
  exact Nat.pow_le_pow_right (by norm_num) (by omega)

/-- The half integer `fsqrt` takes for the root lies on the same side of every integer as the root. -/
theorem isqrt_halves (m M : Nat) :
    let halves := if isqrt m * isqrt m = m then 2 * isqrt m else 2 * isqrt m + 1
    (2 * M ≤ halves ↔ (M : ℝ) ≤ √(m : ℝ)) ∧ (2 * M = halves ↔ (M : ℝ) = √(m : ℝ)) := by
  obtain ⟨h1, h2⟩ := isqrt_spec m
  simp only
  generalize isqrt m = q at *
  have e1 : (M : ℝ) ≤ √(m : ℝ) ↔ M * M ≤ m := by
    rw [Real.le_sqrt (Nat.cast_nonneg M) (Nat.cast_nonneg m), sq]; exact_mod_cast Iff.rfl
  have e2 : (M : ℝ) = √(m : ℝ) ↔ M * M = m := by
    rw [eq_comm, Real.sqrt_eq_iff_mul_self_eq (Nat.cast_nonneg m) (Nat.cast_nonneg M), eq_comm]
    exact_mod_cast Iff.rfl
  have e3 : M * M ≤ m ↔ M ≤ q := by
    constructor
    · intro h; by_contra hc
      have := Nat.mul_le_mul (show q + 1 ≤ M by omega) (show q + 1 ≤ M by omega); omega
    · intro h; have := Nat.mul_le_mul h h; omega
  rw [e1, e2, e3]
  constructor
  · split <;> omega
  · constructor
    · intro h; split at h
      · obtain rfl : M = q := by omega
        assumption
      · omega
    · intro h
      have : M = q := by
        apply le_antisymm (e3.1 h.le)
        by_contra hc
        have := Nat.mul_le_mul (show M + 1 ≤ q by omega) (show M + 1 ≤ q by omega)
        have : (M + 1) * (M + 1) = M * M + 2 * M + 1 := by ring
        omega
      subst this; rw [if_pos h]

theorem funits_lt {a : F64} (h : isFinite a = true) : ∃ f, f = 2098 ∧ funits a < 2 ^ f := by
  obtain ⟨f, hf, e⟩ := magUnits_infMag
  have := magUnits_lt_of_lt (fb := 52) (fmag_of_isFinite h)
  rw [e, ← pow_add] at this
  exact ⟨52 + f, by rw [hf], this⟩

/-- `fsqrt` of a finite positive value: the power of four `4^h` taken out, and the rest `m`. -/
theorem fsqrt_parts {a : F64} (ha : isFinite a = true) (hz : isZero a = false)
    (hs : fsign a = false) :
    ∃ h m, funits a * oneUnits = m * 4 ^ h ∧ 2 ^ 126 ≤ m ∧ h ≤ 1600 ∧
      fsqrt a = round64 false
        ((if isqrt m * isqrt m = m then 2 * isqrt m else 2 * isqrt m + 1) * 2 ^ h) 2 := by
  obtain ⟨f, hf, hlt⟩ := funits_lt ha
  have hpos := funits_pos hz
  obtain ⟨g, hg, hone⟩ : ∃ g, g = 1074 ∧ oneUnits = 2 ^ g := ⟨1074, rfl, rfl⟩
  obtain ⟨sh, t, h4, h3⟩ : ∃ sh t, funits a = t * 2 ^ sh ∧ t < 2 ^ 53 := by
    obtain ⟨sh, t, -, -, h3, h4⟩ := exists_grid 52 (fmag a); exact ⟨sh, t, h4, h3⟩
  have hn : funits a * oneUnits ≠ 0 :=
    Nat.mul_ne_zero hpos.ne' (by rw [hone]; exact (Nat.two_pow_pos _).ne')
  have hl1 : (funits a * oneUnits).log2 < f + g := by
    rw [Nat.log2_lt hn, pow_add, hone]; exact Nat.mul_lt_mul_of_pos_right hlt (Nat.two_pow_pos _)
  have hl2 : g ≤ (funits a * oneUnits).log2 := by
    rw [Nat.le_log2 hn, hone]; exact Nat.le_mul_of_pos_left _ hpos
  have hl3 : (funits a * oneUnits).log2 < 53 + (sh + g) := by
    rw [Nat.log2_lt hn, pow_add, h4, mul_assoc, hone, ← pow_add]
    exact Nat.mul_lt_mul_of_pos_right h3 (Nat.two_pow_pos _)
  have hlow := Nat.log2_self_le hn
  have e4 (k : Nat) : (4 : Nat) ^ k = 2 ^ (2 * k) := by rw [pow_mul]; norm_num
  have hd : 4 ^ (((funits a * oneUnits).log2 - 126) / 2) ∣ funits a * oneUnits := by
    rw [e4]
    generalize (funits a * oneUnits).log2 = l at *
    rw [h4, hone, mul_assoc, ← pow_add]
    exact Dvd.dvd.mul_left (pow_dvd_pow _ (by omega)) _
  refine ⟨((funits a * oneUnits).log2 - 126) / 2, funits a * oneUnits /
    4 ^ (((funits a * oneUnits).log2 - 126) / 2), (Nat.div_mul_cancel hd).symm, ?_, by omega, ?_⟩
  · rw [Nat.le_div_iff_mul_le (Nat.pow_pos (by norm_num)), e4, ← pow_add]
    exact le_trans (Nat.pow_le_pow_right (by norm_num) (by omega)) hlow
  · rw [fsqrt]
    simp only [isNaN_of_isFinite ha, hz, hs, isInf_of_isFinite ha, Bool.false_eq_true, if_false]

end Sys2Proof.Machine
end

