-- ==== Sys2Proof/Laws/Accuracy.lean ====
section
/-!
SUPPORT. Where MAG-ACC (40_numerics.md R131) can be met: some binary64 value lies close enough for every
modulus from `2^-1023` on, and none does for the smallest one off the axes (log entry 5).
-/

namespace Sys2Proof.Machine

theorem fval_pack {k : Nat} (hk : k < infMag) : fval (pack false k) = magUnits 52 k := by
  have := lt_trans hk infMag_lt
  rw [fval, fsign_pack this, funits, fmag_pack this]; rfl

/-- A real number from `2^51` units on lies between powers of two, so that `2^e` units are half a unit
in the last place or less of it. -/
theorem exists_binade {x : ℝ} (hx : (2 : ℝ) ^ 51 ≤ x) :
    ∃ e : Nat, (e = 0 ∨ (2 : ℝ) ^ (52 + e) ≤ x) ∧ x < 2 ^ (53 + e) := by
  obtain ⟨n, h1, h2⟩ := exists_nat_pow_near (x := x) (y := (2 : ℝ))
    (le_trans (by norm_num) hx) (by norm_num)
  by_cases h : 52 ≤ n
  · obtain ⟨e, rfl⟩ := Nat.exists_eq_add_of_le h
    exact ⟨e, .inr h1, by rwa [show 53 + e = 52 + e + 1 by omega]⟩
  · refine ⟨0, .inl rfl, lt_of_lt_of_le h2 (pow_le_pow_right₀ (by norm_num) (by omega))⟩

/-- MAG-ACC can be met wherever the exact modulus is at least `2^-1023`. -/
theorem exists_magWithin {re im : F64} (hx : (2 : ℝ) ^ 51 ≤ exactModulus re im) :
    ∃ v, MagWithin re im v := by
  unfold MagWithin
  generalize exactModulus re im = x at *
  by_cases hbig : ((2 ^ 53 - 1) * 2 ^ 2045 : ℝ) < x
  · exact ⟨_, .inr ⟨rfl, hbig⟩⟩
  rw [not_lt] at hbig
  obtain ⟨e, he, hlt⟩ := exists_binade hx
  have hp : (0 : ℝ) < 2 ^ e := by positivity
  have hx0 : 0 ≤ x := le_trans (by positivity) hx
  obtain ⟨t, ht⟩ : ∃ t : Nat, t = ⌊x / 2 ^ e + 1 / 2⌋₊ := ⟨_, rfl⟩
  have t1 : (t : ℝ) ≤ x / 2 ^ e + 1 / 2 := by rw [ht]; exact Nat.floor_le (by positivity)
  have t2 : x / 2 ^ e + 1 / 2 < (t : ℝ) + 1 := by rw [ht]; exact Nat.lt_floor_add_one _
  have hq : x / 2 ^ e < 2 ^ 53 := by rw [div_lt_iff₀ hp, ← pow_add]; exact hlt
  have ht53 : t ≤ 2 ^ 53 := by
    have : (t : ℝ) < 2 ^ 53 + 1 := by linarith
    have : t < 2 ^ 53 + 1 := by exact_mod_cast this
    omega
  have ht52 : e = 0 ∨ 2 ^ 52 ≤ t := by
    refine he.imp_right fun h => ?_
    have h' : (2 : ℝ) ^ 52 ≤ x / 2 ^ e := by rw [le_div_iff₀ hp, ← pow_add]; exact h
    have : (2 : ℝ) ^ 52 - 1 < t := by linarith
    have : (2 : ℝ) ^ 52 < (t : ℝ) + 1 := by linarith
    have : 2 ^ 52 < t + 1 := by exact_mod_cast this
    omega
  have hu : magUnits 52 (e * 2 ^ 52 + t) = t * 2 ^ e := magUnits_grid ht52 ht53
  have hfin : e * 2 ^ 52 + t < infMag := by
    obtain ⟨g, hg⟩ : ∃ g : Nat, g = 2045 := ⟨_, rfl⟩
    rw [← hg] at hbig
    rw [infMag_eq]
    rcases Nat.lt_trichotomy e g with h | h | h
    · omega
    · have : x / 2 ^ e ≤ 2 ^ 53 - 1 := by rw [div_le_iff₀ hp, h]; exact hbig
      have : (t : ℝ) < 2 ^ 53 := by linarith
      have : t < 2 ^ 53 := by exact_mod_cast this
      omega
    · exfalso
      rcases he with he | he
      · omega
      · have h1 : (2 : ℝ) ^ (52 + (g + 1)) ≤ 2 ^ (52 + e) :=
          pow_le_pow_right₀ (by norm_num) (by omega)
        have h2 : (2 : ℝ) ^ (52 + (g + 1)) = 2 ^ 53 * 2 ^ g := by ring
        have h3 : (0 : ℝ) < 2 ^ g := by positivity
        linarith
  refine ⟨pack false (e * 2 ^ 52 + t), .inl ⟨?_, ?_⟩⟩
  · simp only [isFinite, fmag_pack (lt_trans hfin infMag_lt), hfin, decide_true]
  · rw [fval_pack hfin, hu]
    have habs : |((((t * 2 ^ e : Nat) : Int) : ℝ)) - x| ≤ 2 ^ e / 2 := by
      have hxe : x = x / 2 ^ e * 2 ^ e := by field_simp
      push_cast
      rw [hxe, ← sub_mul, abs_mul, abs_of_pos hp]
      have : |(t : ℝ) - x / 2 ^ e| ≤ 1 / 2 := abs_le.2 ⟨by linarith, by linarith⟩
      nlinarith
    have hlow : (2 : ℝ) ^ e / 2 * 2 ^ 52 ≤ x := by
      rcases he with rfl | he
      · linarith
      · rw [pow_add] at he; linarith
    calc _ ≤ (2 : ℝ) ^ e / 2 * 2 ^ 52 := mul_le_mul_of_nonneg_right habs (by positivity)
      _ ≤ x := hlow

/-- At the smallest modulus off the axes, the square root of 2 units, no binary64 value meets MAG-ACC. -/
theorem not_exists_magWithin : ¬ ∃ v, MagWithin 1#64 1#64 v := by
  have hm : exactModulus 1#64 1#64 = √2 := by
    have : fval 1#64 = 1 := by decide +kernel
    rw [exactModulus, this]; norm_num
  have h1 : (1.4 : ℝ) < √2 := Real.lt_sqrt_of_sq_lt (by norm_num)
  have h2 : √2 < (1.5 : ℝ) := by rw [Real.sqrt_lt' (by norm_num)]; norm_num
  rintro ⟨v, h⟩
  rw [MagWithin, hm] at h
  rcases h with ⟨-, h⟩ | ⟨-, h⟩
  · have h3 : |(fval v : ℝ) - √2| < 0.4 := by
      have : |(fval v : ℝ) - √2| * 2 ^ 52 < 0.4 * 2 ^ 52 := lt_of_le_of_lt h (by linarith)
      exact lt_of_mul_lt_mul_right this (by positivity)
    obtain ⟨h4, h5⟩ := abs_lt.1 h3
    have a1 : (1 : ℝ) < fval v := by linarith
    have a2 : (fval v : ℝ) < 2 := by linarith
    have b1 : 1 < fval v := by exact_mod_cast a1
    have b2 : fval v < 2 := by exact_mod_cast a2
    omega
  · obtain ⟨g, hg⟩ : ∃ g : Nat, g = 2045 := ⟨_, rfl⟩
    rw [← hg] at h
    have : (1 : ℝ) ≤ 2 ^ g := one_le_pow₀ (by norm_num)
    nlinarith

end Sys2Proof.Machine
end

