-- ==== Sys2Proof/Laws/Memory.lean ====
section
/-!
SUPPORT. What the memory operations of Machine/Ops.lean do: one read lemma, one canonical-form lemma
and one bounds lemma per operation.
-/

namespace Sys2Proof

variable {w : Nat}

/-! ## Reads of parts of a list -/

theorem Memory.get_of_forall_ne {m : Memory w} {a : Nat} (h : ∀ c ∈ m, c.1 ≠ a) : m.get a = 0 := by
  induction m with
  | nil => rfl
  | cons c m ih =>
    simp only [Memory.get, h c (by simp), if_false]
    exact ih fun d hd => h d (by simp [hd])

theorem Memory.get_append_left {m n : Memory w} {a : Nat} (h : ∀ c ∈ n, c.1 ≠ a) :
    Memory.get (m ++ n) a = m.get a := by
  induction m with
  | nil => simpa [Memory.get] using Memory.get_of_forall_ne h
  | cons c m ih => simp only [List.cons_append, Memory.get, ih]

theorem Memory.get_append_right {m n : Memory w} {a : Nat} (h : ∀ c ∈ m, c.1 ≠ a) :
    Memory.get (m ++ n) a = n.get a := by
  induction m with
  | nil => rfl
  | cons c m ih =>
    simp only [List.cons_append, Memory.get, h c (by simp), if_false]
    exact ih fun d hd => h d (by simp [hd])

theorem Memory.get_filter {m : Memory w} {p : Nat → Bool} {a : Nat} (h : p a = true) :
    Memory.get (m.filter fun c => p c.1) a = m.get a := by
  induction m with
  | nil => rfl
  | cons c m ih =>
    by_cases hc : p c.1 = true
    · simp only [List.filter_cons, hc, if_true, Memory.get, ih]
    · have : c.1 ≠ a := fun e => hc (e ▸ h)
      simp only [List.filter_cons, hc, Memory.get, this, if_false]
      exact ih

/-! ## Cells -/

theorem Memory.mem_cells {f : Nat → BitVec w} {base total k : Nat} {c : Nat × BitVec w}
    (hk : k ≤ total) (h : c ∈ Memory.cells f base total k) :
    base + (total - k) ≤ c.1 ∧ c.1 < base + total ∧ c.2 ≠ 0 := by
  induction k with
  | zero => simp [Memory.cells] at h
  | succ k ih =>
    simp only [Memory.cells] at h
    split at h
    · obtain ⟨h1, h2, h3⟩ := ih (by omega) h
      exact ⟨by omega, h2, h3⟩
    · rename_i hv
      rcases List.mem_cons.1 h with rfl | h
      · exact ⟨le_rfl, by simp only; omega, hv⟩
      · obtain ⟨h1, h2, h3⟩ := ih (by omega) h
        exact ⟨by omega, h2, h3⟩

theorem Memory.get_cells {f : Nat → BitVec w} {base total k i : Nat} (hk : k ≤ total)
    (h1 : total - k ≤ i) (h2 : i < total) :
    Memory.get (Memory.cells f base total k) (base + i) = f i := by
  induction k with
  | zero => omega
  | succ k ih =>
    simp only [Memory.cells]
    by_cases hi : i = total - (k + 1)
    · subst hi
      split
      · rename_i hv
        rw [hv]
        exact Memory.get_of_forall_ne fun c hc => by
          have := Memory.mem_cells (by omega) hc; omega
      · simp [Memory.get]
    · split
      · exact ih (by omega) (by omega)
      · rw [Memory.get, if_neg (by simp only; omega)]
        exact ih (by omega) (by omega)

theorem Memory.wf_cells {f : Nat → BitVec w} {base total k : Nat} (hk : k ≤ total) :
    (Memory.cells f base total k).wf := by
  refine ⟨?_, fun c hc => (Memory.mem_cells hk hc).2.2⟩
  induction k with
  | zero => simp [Memory.cells]
  | succ k ih =>
    simp only [Memory.cells]
    split
    · exact ih (by omega)
    · refine List.pairwise_cons.2 ⟨fun c hc => ?_, ih (by omega)⟩
      have := Memory.mem_cells (by omega) hc
      simp only; omega

/-! ## The write of a range -/

/-- Reading after a range was written: the written value inside the range, the old one outside. -/
theorem Memory.get_splice (m : Memory w) (base n : Nat) (f : Nat → BitVec w) (a : Nat) :
    (m.splice base n f).get a = if base ≤ a ∧ a < base + n then f (a - base) else m.get a := by
  have hlow : ∀ c ∈ m.filter (fun c => decide (c.1 < base)), c.1 < base := fun c hc => by
    simpa using (List.mem_filter.1 hc).2
  have hhigh : ∀ c ∈ m.filter (fun c => decide (base + n ≤ c.1)), base + n ≤ c.1 := fun c hc => by
    simpa using (List.mem_filter.1 hc).2
  have hmid : ∀ c ∈ Memory.cells f base n n, base ≤ c.1 ∧ c.1 < base + n := fun c hc => by
    have := Memory.mem_cells le_rfl hc; omega
  unfold Memory.splice
  split
  · rename_i h
    rw [Memory.get_append_left fun c hc => by have := hhigh c hc; omega,
      Memory.get_append_right fun c hc => by have := hlow c hc; omega]
    have := Memory.get_cells (f := f) (base := base) (total := n) (k := n) (i := a - base) le_rfl
      (by omega) (by omega)
    rwa [show base + (a - base) = a by omega] at this
  · rename_i h
    by_cases ha : a < base
    · rw [List.append_assoc, Memory.get_append_left fun c hc => by
        rcases List.mem_append.1 hc with hc | hc
        · have := hmid c hc; omega
        · have := hhigh c hc; omega]
      exact Memory.get_filter (p := fun x => decide (x < base)) (by simpa using ha)
    · rw [Memory.get_append_right fun c hc => by
        rcases List.mem_append.1 hc with hc | hc
        · have := hlow c hc; omega
        · have := hmid c hc; omega]
      exact Memory.get_filter (p := fun x => decide (base + n ≤ x)) (by simp; omega)

theorem Memory.get_splice_inside {m : Memory w} {base n : Nat} {f : Nat → BitVec w} {i : Nat}
    (h : i < n) : (m.splice base n f).get (base + i) = f i := by
  rw [Memory.get_splice, if_pos ⟨by omega, by omega⟩, Nat.add_sub_cancel_left]

theorem Memory.get_splice_outside {m : Memory w} {base n : Nat} {f : Nat → BitVec w} {a : Nat}
    (h : ¬ (base ≤ a ∧ a < base + n)) : (m.splice base n f).get a = m.get a := by
  rw [Memory.get_splice, if_neg h]

/-- Writing a range keeps the canonical form. -/
theorem Memory.wf_splice {m : Memory w} (hm : m.wf) (base n : Nat) (f : Nat → BitVec w) :
    (m.splice base n f).wf := by
  have hlow : ∀ c ∈ m.filter (fun c => decide (c.1 < base)), c.1 < base := fun c hc => by
    simpa using (List.mem_filter.1 hc).2
  have hhigh : ∀ c ∈ m.filter (fun c => decide (base + n ≤ c.1)), base + n ≤ c.1 := fun c hc => by
    simpa using (List.mem_filter.1 hc).2
  have hmid : ∀ c ∈ Memory.cells f base n n, base ≤ c.1 ∧ c.1 < base + n := fun c hc => by
    have := Memory.mem_cells le_rfl hc; omega
  refine ⟨?_, fun c hc => ?_⟩
  · unfold Memory.splice
    refine List.pairwise_append.2 ⟨List.pairwise_append.2 ⟨hm.1.filter _, (Memory.wf_cells le_rfl).1,
      fun c hc d hd => ?_⟩, hm.1.filter _, fun c hc d hd => ?_⟩
    · have := hlow c hc; have := hmid d hd; omega
    · have := hhigh d hd
      rcases List.mem_append.1 hc with hc | hc
      · have := hlow c hc; omega
      · have := hmid c hc; omega
  · unfold Memory.splice at hc
    rcases List.mem_append.1 hc with hc | hc
    · rcases List.mem_append.1 hc with hc | hc
      · exact hm.2 c (List.mem_filter.1 hc).1
      · exact (Memory.mem_cells le_rfl hc).2.2
    · exact hm.2 c (List.mem_filter.1 hc).1

/-- Writing a range inside the bounds keeps a memory inside them. -/
theorem Memory.inside_splice {m : Memory w} {b : Nat} (hm : m.inside b) {base n : Nat}
    (h : n = 0 ∨ base + n ≤ b) (f : Nat → BitVec w) : (m.splice base n f).inside b := by
  intro c hc
  unfold Memory.splice at hc
  rcases List.mem_append.1 hc with hc | hc
  · rcases List.mem_append.1 hc with hc | hc
    · exact hm c (List.mem_filter.1 hc).1
    · have := Memory.mem_cells le_rfl hc; omega
  · exact hm c (List.mem_filter.1 hc).1

/-! ## The write of one entry -/

theorem Memory.get_set (m : Memory w) (a b : Nat) (v : BitVec w) :
    (m.set a v).get b = if b = a then v else m.get b := by
  rw [Memory.set, Memory.get_splice]
  congr 1
  exact propext ⟨fun h => by omega, fun h => by omega⟩

theorem Memory.wf_set {m : Memory w} (hm : m.wf) (a : Nat) (v : BitVec w) : (m.set a v).wf :=
  Memory.wf_splice hm ..

theorem Memory.inside_set {m : Memory w} {n : Nat} (hm : m.inside n) {a : Nat} (ha : a < n)
    (v : BitVec w) : (m.set a v).inside n :=
  Memory.inside_splice hm (Or.inr ha) _

/-! ## Little-endian fields -/

theorem Memory.get_writeLE (m : Memory 8) (addr n v a : Nat) :
    (m.writeLE addr n v).get a =
      if addr ≤ a ∧ a < addr + n then BitVec.ofNat 8 (v / 256 ^ (a - addr)) else m.get a :=
  Memory.get_splice ..

theorem Memory.wf_writeLE {m : Memory 8} (hm : m.wf) (addr n v : Nat) : (m.writeLE addr n v).wf :=
  Memory.wf_splice hm ..

theorem Memory.get_writeTag (m : Memory 8) (o a : Nat) (t : Tag) :
    (m.writeTag o t).get a = if o ≤ a ∧ a < o + 4 then t.byte (a - o) else m.get a :=
  Memory.get_splice ..

theorem Memory.wf_writeTag {m : Memory 8} (hm : m.wf) (o : Nat) (t : Tag) : (m.writeTag o t).wf :=
  Memory.wf_splice hm ..

/-- A field's value depends on its bytes alone. -/
theorem Memory.readLE_congr {m m' : Memory 8} {addr n : Nat}
    (h : ∀ a, addr ≤ a → a < addr + n → m.get a = m'.get a) : m.readLE addr n = m'.readLE addr n := by
  induction n generalizing addr with
  | zero => rfl
  | succ n ih =>
    simp only [Memory.readLE]
    rw [h addr le_rfl (by omega), ih fun a h1 h2 => h a (by omega) (by omega)]

/-- The little-endian number of `n` bytes as the sum of its digits (20_memory.md R64). -/
theorem Memory.readLE_eq_sum (m : Memory 8) : ∀ n addr, m.readLE addr n =
    ((List.range n).map (fun i => (m.get (addr + i)).toNat * 256 ^ i)).sum
  | 0, _ => rfl
  | n + 1, addr => by
    rw [Memory.readLE, Memory.readLE_eq_sum m n, List.range_succ_eq_map, List.map_cons,
      List.sum_cons, List.map_map, ← List.sum_map_mul_left]
    simp only [Function.comp_def, pow_zero, mul_one, Nat.add_zero, pow_succ]
    congr 2
    refine List.map_congr_left fun i _ => ?_
    rw [show addr + 1 + i = addr + (i + 1) by omega]; ring

/-- A field of `n` bytes is below `256^n`. -/
theorem Memory.readLE_lt (m : Memory 8) (addr n : Nat) : m.readLE addr n < 256 ^ n := by
  induction n generalizing addr with
  | zero => simp [Memory.readLE]
  | succ n ih =>
    have h1 := (m.get addr).isLt
    have h2 := ih (addr + 1)
    rw [Memory.readLE, pow_succ]
    omega

/-- Byte `i` of a field that was read. -/
theorem Memory.readLE_div (m : Memory 8) (addr n i : Nat) (hi : i < n) :
    BitVec.ofNat 8 (m.readLE addr n / 256 ^ i) = m.get (addr + i) := by
  induction n generalizing addr i with
  | zero => omega
  | succ n ih =>
    have hb := (m.get addr).isLt
    cases i with
    | zero =>
      apply BitVec.eq_of_toNat_eq
      simp only [Memory.readLE, BitVec.toNat_ofNat, pow_zero, Nat.div_one, Nat.add_zero]
      omega
    | succ i =>
      rw [Memory.readLE, pow_succ', ← Nat.div_div_eq_div_mul,
        show ((m.get addr).toNat + 256 * m.readLE (addr + 1) n) / 256 = m.readLE (addr + 1) n by omega,
        ih (addr + 1) i (by omega)]
      congr 1; omega

/-- Reading back a field that was written. -/
theorem Memory.readLE_of_get {m : Memory 8} {addr n v : Nat}
    (h : ∀ i, i < n → m.get (addr + i) = BitVec.ofNat 8 (v / 256 ^ i)) :
    m.readLE addr n = v % 256 ^ n := by
  induction n generalizing addr v with
  | zero => simp [Memory.readLE, Nat.mod_one]
  | succ n ih =>
    have h0 := h 0 (by omega)
    have hrec := ih (addr := addr + 1) (v := v / 256) fun i hi => by
      rw [Nat.div_div_eq_div_mul, ← pow_succ', ← h (i + 1) (by omega)]
      congr 1; omega
    rw [Memory.readLE, hrec, pow_succ', Nat.mod_mul]
    simp only [Nat.add_zero, pow_zero, Nat.div_one] at h0
    rw [h0, BitVec.toNat_ofNat]

theorem Memory.readLE_writeLE (m : Memory 8) (addr n v : Nat) :
    (m.writeLE addr n v).readLE addr n = v % 256 ^ n :=
  Memory.readLE_of_get fun i hi => by
    rw [Memory.get_writeLE, if_pos ⟨by omega, by omega⟩, Nat.add_sub_cancel_left]

/-! ## Canonical form makes equal contents equal data -/

theorem Memory.get_eq_zero_of_lt_head {m : Memory w} {a : Nat} (h : ∀ c ∈ m, a < c.1) :
    m.get a = 0 :=
  Memory.get_of_forall_ne fun c hc => by have := h c hc; omega

/-- Two memories in canonical form that read the same everywhere are the same list. -/
theorem Memory.ext_of_wf {m n : Memory w} (hm : m.wf) (hn : n.wf) (h : ∀ a, m.get a = n.get a) :
    m = n := by
  induction m generalizing n with
  | nil =>
    cases n with
    | nil => rfl
    | cons d n =>
      have := h d.1
      simp only [Memory.get, if_true] at this
      exact absurd this.symm (hn.2 d (by simp))
  | cons c m ih =>
    cases n with
    | nil =>
      have := h c.1
      simp only [Memory.get, if_true] at this
      exact absurd this (hm.2 c (by simp))
    | cons d n =>
      have hm' := List.pairwise_cons.1 hm.1
      have hn' := List.pairwise_cons.1 hn.1
      have hc := h c.1
      have hd := h d.1
      simp only [Memory.get, if_true] at hc hd
      have hcd : c.1 = d.1 := by
        rcases Nat.lt_trichotomy c.1 d.1 with hlt | heq | hgt
        · rw [if_neg (by omega), Memory.get_eq_zero_of_lt_head fun e he => by
            have := hn'.1 e he; omega] at hc
          exact absurd hc (hm.2 c (by simp))
        · exact heq
        · rw [if_neg (by omega), Memory.get_eq_zero_of_lt_head fun e he => by
            have := hm'.1 e he; omega] at hd
          exact absurd hd.symm (hn.2 d (by simp))
      rw [if_pos hcd.symm] at hc
      have hcd2 : c = d := Prod.ext hcd hc
      subst hcd2
      congr 1
      refine ih ⟨hm'.2, fun e he => hm.2 e (by simp [he])⟩ ⟨hn'.2, fun e he => hn.2 e (by simp [he])⟩ ?_
      intro a
      have ha := h a
      simp only [Memory.get] at ha
      by_cases hac : c.1 = a
      · subst hac
        rw [Memory.get_eq_zero_of_lt_head hm'.1, Memory.get_eq_zero_of_lt_head hn'.1]
      · rwa [if_neg hac, if_neg hac] at ha

/-! ## Banks -/

theorem Bank.get_fill (b : Bank) (n : Nat) (f : Nat → Cplx) (k : Nat) :
    (b.fill n f).get k = if k < n then f k else b.get k := by
  simp only [Bank.get, Bank.fill, Memory.get_splice, Nat.zero_add, Nat.zero_le, true_and, Nat.sub_zero]
  split <;> rfl

theorem Bank.wf_fill {b : Bank} (hb : b.wf) (n : Nat) (f : Nat → Cplx) : (b.fill n f).wf :=
  ⟨Memory.wf_splice hb.1 .., Memory.wf_splice hb.2 ..⟩

theorem Bank.inside_fill {b : Bank} {m : Nat} (hb : b.inside m) {n : Nat} (hn : n ≤ m)
    (f : Nat → Cplx) : (b.fill n f).inside m :=
  ⟨Memory.inside_splice hb.1 (Or.inr (by omega)) _, Memory.inside_splice hb.2 (Or.inr (by omega)) _⟩

/-! ## Loops -/

/-- What every iteration keeps, the loop keeps. -/
theorem forUp_induction {α : Type} {P : Nat → α → Prop} {n : Nat} {f : Nat → α → α} {x : α}
    (h0 : P 0 x) (hs : ∀ i y, i < n → P i y → P (i + 1) (f i y)) : P n (forUp n f x) := by
  induction n with
  | zero => exact h0
  | succ n ih => exact hs n _ (by omega) (ih fun i y hi => hs i y (by omega))

end Sys2Proof
end

