-- ==== Sys2Proof/Laws/State.lean ====
section
/-!
SUPPORT. One lemma per field per update of the state, so that no later proof unfolds a record update,
and what one pass does to the active and the inactive bank.
-/

namespace Sys2Proof.Machine

/-! ## `State.complete` -/

@[simp] theorem State.complete_sizes (s : State) : (s.complete).sizes = s.sizes := rfl
@[simp] theorem State.complete_pending (s : State) : (s.complete).pending = none := rfl
@[simp] theorem State.complete_err (s : State) : (s.complete).err = s.err := rfl
@[simp] theorem State.complete_errCode (s : State) : (s.complete).errCode = s.errCode := rfl
@[simp] theorem State.complete_cfgv (s : State) : (s.complete).cfgv = s.cfgv := rfl
@[simp] theorem State.complete_xsel (s : State) : (s.complete).xsel = s.xsel := rfl
@[simp] theorem State.complete_regs (s : State) : (s.complete).regs = s.regs := rfl
@[simp] theorem State.complete_x0 (s : State) : (s.complete).x0 = s.x0 := rfl
@[simp] theorem State.complete_x1 (s : State) : (s.complete).x1 = s.x1 := rfl
@[simp] theorem State.complete_wm (s : State) : (s.complete).wm = s.wm := rfl
@[simp] theorem State.complete_pv (s : State) : (s.complete).pv = s.pv := rfl
@[simp] theorem State.complete_cu (s : State) : (s.complete).cu = s.cu := rfl
@[simp] theorem State.complete_rm (s : State) : (s.complete).rm = s.rm := rfl
@[simp] theorem State.complete_bm (s : State) : (s.complete).bm = s.bm := rfl
@[simp] theorem State.complete_script (s : State) : (s.complete).script = s.script := rfl
@[simp] theorem State.complete_sched (s : State) : (s.complete).sched = s.sched := rfl
@[simp] theorem State.complete_resp (s : State) : (s.complete).resp = s.resp := rfl

/-! ## `State.faultEntry` -/

@[simp] theorem State.faultEntry_sizes (s : State) (e : ErrCode) :
    (s.faultEntry e).sizes = s.sizes := rfl
@[simp] theorem State.faultEntry_pending (s : State) (e : ErrCode) :
    (s.faultEntry e).pending = none := rfl
@[simp] theorem State.faultEntry_err (s : State) (e : ErrCode) : (s.faultEntry e).err = true := rfl
@[simp] theorem State.faultEntry_errCode (s : State) (e : ErrCode) :
    (s.faultEntry e).errCode = e.code := rfl
@[simp] theorem State.faultEntry_cfgv (s : State) (e : ErrCode) :
    (s.faultEntry e).cfgv = s.cfgv := rfl
@[simp] theorem State.faultEntry_xsel (s : State) (e : ErrCode) :
    (s.faultEntry e).xsel = s.xsel := rfl
@[simp] theorem State.faultEntry_regs (s : State) (e : ErrCode) :
    (s.faultEntry e).regs = { s.regs with errinfo := s.pending.getD s.regs.errinfo } := rfl
@[simp] theorem State.faultEntry_x0 (s : State) (e : ErrCode) : (s.faultEntry e).x0 = s.x0 := rfl
@[simp] theorem State.faultEntry_x1 (s : State) (e : ErrCode) : (s.faultEntry e).x1 = s.x1 := rfl
@[simp] theorem State.faultEntry_wm (s : State) (e : ErrCode) : (s.faultEntry e).wm = s.wm := rfl
@[simp] theorem State.faultEntry_pv (s : State) (e : ErrCode) : (s.faultEntry e).pv = s.pv := rfl
@[simp] theorem State.faultEntry_cu (s : State) (e : ErrCode) : (s.faultEntry e).cu = s.cu := rfl
@[simp] theorem State.faultEntry_rm (s : State) (e : ErrCode) : (s.faultEntry e).rm = s.rm := rfl
@[simp] theorem State.faultEntry_bm (s : State) (e : ErrCode) : (s.faultEntry e).bm = s.bm := rfl
@[simp] theorem State.faultEntry_script (s : State) (e : ErrCode) :
    (s.faultEntry e).script = s.script := rfl
@[simp] theorem State.faultEntry_sched (s : State) (e : ErrCode) :
    (s.faultEntry e).sched = s.sched := rfl
@[simp] theorem State.faultEntry_resp (s : State) (e : ErrCode) :
    (s.faultEntry e).resp = s.resp := rfl

/-! ## `State.blockReset` -/

@[simp] theorem State.blockReset_sizes (s : State) : (s.blockReset).sizes = s.sizes := rfl
@[simp] theorem State.blockReset_pending (s : State) : (s.blockReset).pending = none := rfl
@[simp] theorem State.blockReset_err (s : State) : (s.blockReset).err = false := rfl
@[simp] theorem State.blockReset_errCode (s : State) : (s.blockReset).errCode = 0 := rfl
@[simp] theorem State.blockReset_cfgv (s : State) : (s.blockReset).cfgv = false := rfl
@[simp] theorem State.blockReset_xsel (s : State) : (s.blockReset).xsel = false := rfl
@[simp] theorem State.blockReset_regs (s : State) : (s.blockReset).regs = Regs.zero := rfl
@[simp] theorem State.blockReset_x0 (s : State) : (s.blockReset).x0 = s.x0 := rfl
@[simp] theorem State.blockReset_x1 (s : State) : (s.blockReset).x1 = s.x1 := rfl
@[simp] theorem State.blockReset_wm (s : State) : (s.blockReset).wm = s.wm := rfl
@[simp] theorem State.blockReset_pv (s : State) : (s.blockReset).pv = s.pv := rfl
@[simp] theorem State.blockReset_cu (s : State) : (s.blockReset).cu = s.cu := rfl
@[simp] theorem State.blockReset_rm (s : State) : (s.blockReset).rm = s.rm := rfl
@[simp] theorem State.blockReset_bm (s : State) : (s.blockReset).bm = s.bm := rfl
@[simp] theorem State.blockReset_script (s : State) : (s.blockReset).script = s.script := rfl
@[simp] theorem State.blockReset_sched (s : State) : (s.blockReset).sched = s.sched := rfl
@[simp] theorem State.blockReset_resp (s : State) : (s.blockReset).resp = s.resp := rfl

/-! ## `State.setCfgv` -/

@[simp] theorem State.setCfgv_sizes (s : State) : (s.setCfgv).sizes = s.sizes := rfl
@[simp] theorem State.setCfgv_pending (s : State) : (s.setCfgv).pending = s.pending := rfl
@[simp] theorem State.setCfgv_err (s : State) : (s.setCfgv).err = s.err := rfl
@[simp] theorem State.setCfgv_errCode (s : State) : (s.setCfgv).errCode = s.errCode := rfl
@[simp] theorem State.setCfgv_cfgv (s : State) : (s.setCfgv).cfgv = true := rfl
@[simp] theorem State.setCfgv_xsel (s : State) : (s.setCfgv).xsel = s.xsel := rfl
@[simp] theorem State.setCfgv_regs (s : State) : (s.setCfgv).regs = s.regs := rfl
@[simp] theorem State.setCfgv_x0 (s : State) : (s.setCfgv).x0 = s.x0 := rfl
@[simp] theorem State.setCfgv_x1 (s : State) : (s.setCfgv).x1 = s.x1 := rfl
@[simp] theorem State.setCfgv_wm (s : State) : (s.setCfgv).wm = s.wm := rfl
@[simp] theorem State.setCfgv_pv (s : State) : (s.setCfgv).pv = s.pv := rfl
@[simp] theorem State.setCfgv_cu (s : State) : (s.setCfgv).cu = s.cu := rfl
@[simp] theorem State.setCfgv_rm (s : State) : (s.setCfgv).rm = s.rm := rfl
@[simp] theorem State.setCfgv_bm (s : State) : (s.setCfgv).bm = s.bm := rfl
@[simp] theorem State.setCfgv_script (s : State) : (s.setCfgv).script = s.script := rfl
@[simp] theorem State.setCfgv_sched (s : State) : (s.setCfgv).sched = s.sched := rfl
@[simp] theorem State.setCfgv_resp (s : State) : (s.setCfgv).resp = s.resp := rfl

/-! ## `State.clearCfgv` -/

@[simp] theorem State.clearCfgv_sizes (s : State) : (s.clearCfgv).sizes = s.sizes := rfl
@[simp] theorem State.clearCfgv_pending (s : State) : (s.clearCfgv).pending = s.pending := rfl
@[simp] theorem State.clearCfgv_err (s : State) : (s.clearCfgv).err = s.err := rfl
@[simp] theorem State.clearCfgv_errCode (s : State) : (s.clearCfgv).errCode = s.errCode := rfl
@[simp] theorem State.clearCfgv_cfgv (s : State) : (s.clearCfgv).cfgv = false := rfl
@[simp] theorem State.clearCfgv_xsel (s : State) : (s.clearCfgv).xsel = s.xsel := rfl
@[simp] theorem State.clearCfgv_regs (s : State) : (s.clearCfgv).regs = s.regs := rfl
@[simp] theorem State.clearCfgv_x0 (s : State) : (s.clearCfgv).x0 = s.x0 := rfl
@[simp] theorem State.clearCfgv_x1 (s : State) : (s.clearCfgv).x1 = s.x1 := rfl
@[simp] theorem State.clearCfgv_wm (s : State) : (s.clearCfgv).wm = s.wm := rfl
@[simp] theorem State.clearCfgv_pv (s : State) : (s.clearCfgv).pv = s.pv := rfl
@[simp] theorem State.clearCfgv_cu (s : State) : (s.clearCfgv).cu = s.cu := rfl
@[simp] theorem State.clearCfgv_rm (s : State) : (s.clearCfgv).rm = s.rm := rfl
@[simp] theorem State.clearCfgv_bm (s : State) : (s.clearCfgv).bm = s.bm := rfl
@[simp] theorem State.clearCfgv_script (s : State) : (s.clearCfgv).script = s.script := rfl
@[simp] theorem State.clearCfgv_sched (s : State) : (s.clearCfgv).sched = s.sched := rfl
@[simp] theorem State.clearCfgv_resp (s : State) : (s.clearCfgv).resp = s.resp := rfl

/-! ## `State.passTurn` -/

@[simp] theorem State.passTurn_sizes (s : State) : (s.passTurn).sizes = s.sizes := rfl
@[simp] theorem State.passTurn_pending (s : State) : (s.passTurn).pending = s.pending := rfl
@[simp] theorem State.passTurn_err (s : State) : (s.passTurn).err = s.err := rfl
@[simp] theorem State.passTurn_errCode (s : State) : (s.passTurn).errCode = s.errCode := rfl
@[simp] theorem State.passTurn_cfgv (s : State) : (s.passTurn).cfgv = s.cfgv := rfl
@[simp] theorem State.passTurn_xsel (s : State) : (s.passTurn).xsel = s.xsel := rfl
@[simp] theorem State.passTurn_regs (s : State) : (s.passTurn).regs = s.regs := rfl
@[simp] theorem State.passTurn_x0 (s : State) : (s.passTurn).x0 = s.x0 := rfl
@[simp] theorem State.passTurn_x1 (s : State) : (s.passTurn).x1 = s.x1 := rfl
@[simp] theorem State.passTurn_wm (s : State) : (s.passTurn).wm = s.wm := rfl
@[simp] theorem State.passTurn_pv (s : State) : (s.passTurn).pv = s.pv := rfl
@[simp] theorem State.passTurn_cu (s : State) : (s.passTurn).cu = s.cu := rfl
@[simp] theorem State.passTurn_rm (s : State) : (s.passTurn).rm = s.rm := rfl
@[simp] theorem State.passTurn_bm (s : State) : (s.passTurn).bm = s.bm := rfl
@[simp] theorem State.passTurn_script (s : State) : (s.passTurn).script = s.script := rfl
@[simp] theorem State.passTurn_sched (s : State) : (s.passTurn).sched = s.sched.tail := rfl
@[simp] theorem State.passTurn_resp (s : State) : (s.passTurn).resp = s.resp := rfl

/-! ## `State.withPending` -/

@[simp] theorem State.withPending_sizes (s : State) (w : BitVec 32) :
    (s.withPending w).sizes = s.sizes := rfl
@[simp] theorem State.withPending_pending (s : State) (w : BitVec 32) :
    (s.withPending w).pending = some w := rfl
@[simp] theorem State.withPending_err (s : State) (w : BitVec 32) :
    (s.withPending w).err = s.err := rfl
@[simp] theorem State.withPending_errCode (s : State) (w : BitVec 32) :
    (s.withPending w).errCode = s.errCode := rfl
@[simp] theorem State.withPending_cfgv (s : State) (w : BitVec 32) :
    (s.withPending w).cfgv = s.cfgv := rfl
@[simp] theorem State.withPending_xsel (s : State) (w : BitVec 32) :
    (s.withPending w).xsel = s.xsel := rfl
@[simp] theorem State.withPending_regs (s : State) (w : BitVec 32) :
    (s.withPending w).regs = s.regs := rfl
@[simp] theorem State.withPending_x0 (s : State) (w : BitVec 32) :
    (s.withPending w).x0 = s.x0 := rfl
@[simp] theorem State.withPending_x1 (s : State) (w : BitVec 32) :
    (s.withPending w).x1 = s.x1 := rfl
@[simp] theorem State.withPending_wm (s : State) (w : BitVec 32) :
    (s.withPending w).wm = s.wm := rfl
@[simp] theorem State.withPending_pv (s : State) (w : BitVec 32) :
    (s.withPending w).pv = s.pv := rfl
@[simp] theorem State.withPending_cu (s : State) (w : BitVec 32) :
    (s.withPending w).cu = s.cu := rfl
@[simp] theorem State.withPending_rm (s : State) (w : BitVec 32) :
    (s.withPending w).rm = s.rm := rfl
@[simp] theorem State.withPending_bm (s : State) (w : BitVec 32) :
    (s.withPending w).bm = s.bm := rfl
@[simp] theorem State.withPending_script (s : State) (w : BitVec 32) :
    (s.withPending w).script = s.script := rfl
@[simp] theorem State.withPending_sched (s : State) (w : BitVec 32) :
    (s.withPending w).sched = s.sched.dropWhile (fun a => decide (a = .host)) := rfl
@[simp] theorem State.withPending_resp (s : State) (w : BitVec 32) :
    (s.withPending w).resp = s.resp := rfl

/-! ## `State.framePass` -/

@[simp] theorem State.framePass_sizes (s : State) (n : Nat) (f : Nat → Cplx) :
    (s.framePass n f).sizes = s.sizes := rfl
@[simp] theorem State.framePass_pending (s : State) (n : Nat) (f : Nat → Cplx) :
    (s.framePass n f).pending = s.pending := rfl
@[simp] theorem State.framePass_err (s : State) (n : Nat) (f : Nat → Cplx) :
    (s.framePass n f).err = s.err := rfl
@[simp] theorem State.framePass_errCode (s : State) (n : Nat) (f : Nat → Cplx) :
    (s.framePass n f).errCode = s.errCode := rfl
@[simp] theorem State.framePass_cfgv (s : State) (n : Nat) (f : Nat → Cplx) :
    (s.framePass n f).cfgv = s.cfgv := rfl
@[simp] theorem State.framePass_xsel (s : State) (n : Nat) (f : Nat → Cplx) :
    (s.framePass n f).xsel = !s.xsel := rfl
@[simp] theorem State.framePass_regs (s : State) (n : Nat) (f : Nat → Cplx) :
    (s.framePass n f).regs = s.regs := rfl
@[simp] theorem State.framePass_wm (s : State) (n : Nat) (f : Nat → Cplx) :
    (s.framePass n f).wm = s.wm := rfl
@[simp] theorem State.framePass_pv (s : State) (n : Nat) (f : Nat → Cplx) :
    (s.framePass n f).pv = s.pv := rfl
@[simp] theorem State.framePass_cu (s : State) (n : Nat) (f : Nat → Cplx) :
    (s.framePass n f).cu = s.cu := rfl
@[simp] theorem State.framePass_rm (s : State) (n : Nat) (f : Nat → Cplx) :
    (s.framePass n f).rm = s.rm := rfl
@[simp] theorem State.framePass_bm (s : State) (n : Nat) (f : Nat → Cplx) :
    (s.framePass n f).bm = s.bm := rfl
@[simp] theorem State.framePass_script (s : State) (n : Nat) (f : Nat → Cplx) :
    (s.framePass n f).script = s.script := rfl
@[simp] theorem State.framePass_sched (s : State) (n : Nat) (f : Nat → Cplx) :
    (s.framePass n f).sched = s.sched := rfl
@[simp] theorem State.framePass_resp (s : State) (n : Nat) (f : Nat → Cplx) :
    (s.framePass n f).resp = s.resp := rfl

/-! ## Banks across a pass -/

theorem State.framePass_active (s : State) (n : Nat) (f : Nat → Cplx) :
    (s.framePass n f).active = s.inactive.fill n f := by
  unfold State.active State.inactive State.framePass
  cases s.xsel <;> rfl

theorem State.framePass_inactive (s : State) (n : Nat) (f : Nat → Cplx) :
    (s.framePass n f).inactive = s.active := by
  unfold State.active State.inactive State.framePass
  cases s.xsel <;> rfl

theorem State.framePass_x0 (s : State) (n : Nat) (f : Nat → Cplx) :
    (s.framePass n f).x0 = if s.xsel then s.x0.fill n f else s.x0 := rfl

theorem State.framePass_x1 (s : State) (n : Nat) (f : Nat → Cplx) :
    (s.framePass n f).x1 = if s.xsel then s.x1 else s.x1.fill n f := rfl

/-! ## Parameters that depend on few fields -/

@[simp] theorem State.complete_nmax (s : State) :
    (s.complete).nmax = s.nmax := rfl
@[simp] theorem State.complete_len (s : State) :
    (s.complete).len = s.len := rfl
@[simp] theorem State.complete_len2 (s : State) :
    (s.complete).len2 = s.len2 := rfl
@[simp] theorem State.complete_hopA (s : State) :
    (s.complete).hopA = s.hopA := rfl
@[simp] theorem State.complete_hopS (s : State) :
    (s.complete).hopS = s.hopS := rfl
@[simp] theorem State.complete_overlap (s : State) :
    (s.complete).overlap = s.overlap := rfl
@[simp] theorem State.setCfgv_nmax (s : State) :
    (s.setCfgv).nmax = s.nmax := rfl
@[simp] theorem State.setCfgv_len (s : State) :
    (s.setCfgv).len = s.len := rfl
@[simp] theorem State.setCfgv_len2 (s : State) :
    (s.setCfgv).len2 = s.len2 := rfl
@[simp] theorem State.setCfgv_hopA (s : State) :
    (s.setCfgv).hopA = s.hopA := rfl
@[simp] theorem State.setCfgv_hopS (s : State) :
    (s.setCfgv).hopS = s.hopS := rfl
@[simp] theorem State.setCfgv_overlap (s : State) :
    (s.setCfgv).overlap = s.overlap := rfl
@[simp] theorem State.clearCfgv_nmax (s : State) :
    (s.clearCfgv).nmax = s.nmax := rfl
@[simp] theorem State.clearCfgv_len (s : State) :
    (s.clearCfgv).len = s.len := rfl
@[simp] theorem State.clearCfgv_len2 (s : State) :
    (s.clearCfgv).len2 = s.len2 := rfl
@[simp] theorem State.clearCfgv_hopA (s : State) :
    (s.clearCfgv).hopA = s.hopA := rfl
@[simp] theorem State.clearCfgv_hopS (s : State) :
    (s.clearCfgv).hopS = s.hopS := rfl
@[simp] theorem State.clearCfgv_overlap (s : State) :
    (s.clearCfgv).overlap = s.overlap := rfl
@[simp] theorem State.passTurn_nmax (s : State) :
    (s.passTurn).nmax = s.nmax := rfl
@[simp] theorem State.passTurn_len (s : State) :
    (s.passTurn).len = s.len := rfl
@[simp] theorem State.passTurn_len2 (s : State) :
    (s.passTurn).len2 = s.len2 := rfl
@[simp] theorem State.passTurn_hopA (s : State) :
    (s.passTurn).hopA = s.hopA := rfl
@[simp] theorem State.passTurn_hopS (s : State) :
    (s.passTurn).hopS = s.hopS := rfl
@[simp] theorem State.passTurn_overlap (s : State) :
    (s.passTurn).overlap = s.overlap := rfl
@[simp] theorem State.framePass_nmax (s : State) (n : Nat) (f : Nat → Cplx) :
    (s.framePass n f).nmax = s.nmax := rfl
@[simp] theorem State.framePass_len (s : State) (n : Nat) (f : Nat → Cplx) :
    (s.framePass n f).len = s.len := rfl
@[simp] theorem State.framePass_len2 (s : State) (n : Nat) (f : Nat → Cplx) :
    (s.framePass n f).len2 = s.len2 := rfl
@[simp] theorem State.framePass_hopA (s : State) (n : Nat) (f : Nat → Cplx) :
    (s.framePass n f).hopA = s.hopA := rfl
@[simp] theorem State.framePass_hopS (s : State) (n : Nat) (f : Nat → Cplx) :
    (s.framePass n f).hopS = s.hopS := rfl
@[simp] theorem State.framePass_overlap (s : State) (n : Nat) (f : Nat → Cplx) :
    (s.framePass n f).overlap = s.overlap := rfl
@[simp] theorem State.complete_active (s : State) : s.complete.active = s.active := rfl
@[simp] theorem State.complete_inactive (s : State) : s.complete.inactive = s.inactive := rfl

end Sys2Proof.Machine
end

