-- ==== Sys2Proof/Laws/Exec.lean ====
section
/-!
SUPPORT. What completing and faulting do in the terms of Safety.lean, and one equation per command:
the next state as checks, a record update and `complete`.
-/

namespace Sys2Proof.Machine

/-! ## Frames -/

theorem State.readReg_congr {s t : State} (h : t.regs = s.regs) {r : RegName} (hr : r ≠ .status) :
    t.readReg r = s.readReg r := by
  cases r <;> simp_all [State.readReg]

theorem State.entry_congr {s t : State} (h0 : t.x0 = s.x0) (h1 : t.x1 = s.x1) (hw : t.wm = s.wm)
    (hp : t.pv = s.pv) (hc : t.cu = s.cu) (hr : t.rm = s.rm) (hb : t.bm = s.bm) (p : Place) :
    t.entry p = s.entry p := by
  cases p <;> simp [State.entry, *]

/-- The fault entry is a fault in the sense of Safety.lean. -/
theorem State.faulted_faultEntry (s : State) (e : ErrCode) : Faulted s (s.faultEntry e) e where
  slot := rfl
  err := rfl
  errCode := rfl
  errinfo w h := by simp [h]
  cfgv := rfl
  xsel := rfl
  untouched :=
    { regs := fun r h hr => by cases r <;> first | rfl | exact absurd rfl hr | exact absurd rfl h
      entries := fun p _ => by cases p <;> rfl
      sizes := rfl
      script := rfl
      sched := rfl
      resp := rfl }

/-- The reset of the block is a reset in the sense of Safety.lean. -/
theorem State.wasReset_blockReset (s : State) : WasReset s s.blockReset where
  slot := rfl
  regs r h1 h2 := by cases r <;> first | rfl | exact absurd rfl h1 | exact absurd rfl h2
  entries p := by cases p <;> rfl
  sizes := rfl

/-! ## Ends of a command -/

@[simp] theorem State.conclude_ok (s t : State) : s.conclude (.ok t) = .next t.complete := rfl

@[simp] theorem State.conclude_error (s : State) (e : ErrCode) :
    s.conclude (.error e) = .next (s.faultEntry e) := rfl

/-- A command ends in one of two ways. -/
theorem State.conclude_cases {s t : State} {r : Except ErrCode State} (h : s.conclude r = .next t) :
    (∃ u, r = .ok u ∧ t = u.complete) ∨ ∃ e, r = .error e ∧ t = s.faultEntry e := by
  cases r with
  | ok u => exact .inl ⟨u, rfl, by simpa using h.symm⟩
  | error e => exact .inr ⟨e, rfl, by simpa using h.symm⟩

/-- Every command ends a run of its checks and writes. -/
theorem exec_eq_conclude (i : Instr) (s : State) : ∃ r, exec i s = s.conclude r := by
  cases i <;> simp only [exec, execNop, execCmul, execBfly, execBitrev, execStage, execXscale,
    execFft, execIfft, execNpow2, execPvcfg, execPhrst, execFramew, execPhase, execOla, execResamp,
    execWavhdr, execPcmdec, execWavhdrw, execPcmenc] <;> exact ⟨_, rfl⟩

/-! ## The check of the codec's descriptor -/

theorem descriptorCheck_ok {a b n by' : Nat} :
    descriptorCheck a b n = .ok by' ↔ DescriptorOk a b n ∧ by' = b / 8 := by
  unfold descriptorCheck
  constructor
  · intro h
    split at h
    · cases h
    split at h
    · cases h
    split at h
    · cases h
    split at h
    · cases h
    rename_i h1 h2 h3 h4
    refine ⟨⟨not_not.1 h1, fun ha => ?_, fun ha => ?_, h4⟩, by simpa using h.symm⟩
    · by_contra hb; exact h2 ⟨ha, hb⟩
    · by_contra hb; exact h3 ⟨ha, hb⟩
  · rintro ⟨⟨h1, h2, h3, h4⟩, rfl⟩
    rw [if_neg (not_not.2 h1), if_neg fun h => h.2 (h2 h.1), if_neg fun h => h.2 (h3 h.1),
      if_neg h4]

/-- The depth of a good descriptor is a positive multiple of eight, at most 64. -/
theorem DescriptorOk.depth {a b n : Nat} (h : DescriptorOk a b n) :
    b = 8 ∨ b = 16 ∨ b = 24 ∨ b = 32 ∨ b = 64 := by
  by_cases ha : a = 3
  · have := h.float ha; omega
  · have := h.integer ha; omega

theorem State.checkDescriptor_ok {s : State}
    (h : DescriptorOk s.regs.afmt.toNat s.regs.bps.toNat s.regs.nch.toNat)
    (k : Nat → Except ErrCode State) : s.checkDescriptor k = k (s.regs.bps.toNat / 8) := by
  rw [State.checkDescriptor, descriptorCheck_ok.2 ⟨h, rfl⟩]

/-! ## One equation per command -/

theorem exec_nop (s : State) : exec .nop s = .next s.complete := rfl

theorem exec_cmul (s : State) : exec .cmul s =
    .next (State.complete { s with regs := { s.regs with cp := cmul s.regs.ca s.regs.cb } }) := rfl

theorem exec_bfly (s : State) : exec .bfly s =
    .next (State.complete { s with regs := { s.regs with
      cp := (butterfly s.regs.ca s.regs.cb s.regs.cw).1
      cq := (butterfly s.regs.ca s.regs.cb s.regs.cw).2 } }) := rfl

theorem exec_bitrev (s : State) : exec .bitrev s =
    .next (if s.lenFits then s.bitrevPass.complete else s.faultEntry .config) := by
  simp only [exec, execBitrev]; by_cases h : s.lenFits <;> simp [h]

theorem exec_stage (st : Nat) (inv : Bool) (s : State) : exec (.stage st inv) s =
    .next (if s.lenFits then
      (if st < s.len2 then (s.stagePass st inv).complete else s.faultEntry .operand)
      else s.faultEntry .config) := by
  simp only [exec, execStage]
  by_cases h : s.lenFits <;> by_cases h2 : st < s.len2 <;> simp [h, h2]
  · rw [if_neg (by omega)]; rfl
  · rw [if_pos (by omega)]; rfl

theorem exec_xscale (s : State) : exec .xscale s =
    .next (if s.lenFits then s.xscalePass.complete else s.faultEntry .config) := by
  simp only [exec, execXscale]; by_cases h : s.lenFits <;> simp [h]

theorem exec_fft (s : State) : exec .fft s =
    .next (if s.lenFits then (s.bitrevPass.stages false s.len2).complete
      else s.faultEntry .config) := by
  simp only [exec, execFft]; by_cases h : s.lenFits <;> simp [h]

theorem exec_ifft (s : State) : exec .ifft s =
    .next (if s.lenFits then (s.bitrevPass.stages true s.len2).xscalePass.complete
      else s.faultEntry .config) := by
  simp only [exec, execIfft]; by_cases h : s.lenFits <;> simp [h]

theorem exec_npow2 (n : Nat) (s : State) : exec (.npow2 n) s =
    .next (State.complete { s with regs := { s.regs with
      padlog2 := BitVec.ofNat 5 (padLog n)
      padamt := BitVec.ofNat 32 (2 ^ padLog n - n) } }) := rfl

theorem exec_pvcfg (s : State) : exec .pvcfg s =
    .next (if 0 < s.overlap ∧ isPow2 s.regs.fsize.toNat = true ∧
        s.overlap < (s.regs.fsize.toNat : Int) ∧ s.regs.fsize.toNat.log2 ≤ s.sizes.log2nMax then
      s.configure.complete else s.faultEntry .config) := by
  simp only [exec, execPvcfg]
  by_cases h1 : s.overlap ≤ 0
  · simp [h1, not_lt.2 h1]
  by_cases h2 : isPow2 s.regs.fsize.toNat = true
  · by_cases h3 : s.overlap < (s.regs.fsize.toNat : Int)
    · by_cases h4 : s.sizes.log2nMax < s.regs.fsize.toNat.log2
      · simp [h1, h2, h3, h4]
      · simp [h1, h2, h3, h4, not_le.1 h1, not_lt.1 h4]
    · simp [h1, h2, h3]
  · simp [h1, h2]

theorem exec_phrst (s : State) : exec .phrst s =
    .next (State.complete { s with
      pv := s.pv.splice 0 s.nmax (fun _ => fZero)
      cu := s.cu.splice 0 s.nmax (fun _ => fZero) }) := rfl

theorem exec_framew (i : Nat) (s : State) : exec (.framew i) s =
    .next (if s.configured then
      (if s.insideRM s.regs.ibase s.regs.ilen ∧ i * s.hopA + s.len ≤ s.regs.ilen.toNat then
        (s.framePass s.len (s.analysisSample i)).complete else s.faultEntry .range)
      else s.faultEntry .config) := by
  simp only [exec, execFramew]
  by_cases h1 : s.configured
  · by_cases h2 : s.insideRM s.regs.ibase s.regs.ilen
    · by_cases h3 : s.regs.ilen.toNat < i * s.hopA + s.len
      · simp [h1, h2, h3, not_le.2 h3]
      · simp [h1, h2, h3, not_lt.1 h3]
    · simp [h1, h2]
  · simp [h1]

theorem exec_phase (s : State) : exec .phase s =
    .next (if s.configured then
      State.complete { s.framePass s.len s.binOutput with
        pv := s.pv.splice 0 s.len s.binPhase
        cu := s.cu.splice 0 s.len s.binCumulative }
      else s.faultEntry .config) := by
  simp only [exec, execPhase]; by_cases h : s.configured <;> simp [h]

theorem exec_ola (i : Nat) (s : State) : exec (.ola i) s =
    .next (if s.configured then
      (if s.insideRM s.regs.obase s.regs.olen then
        State.complete { s with rm := s.rm.splice (s.olaIndex i 0) (s.olaCount i) (s.olaSum i) }
        else s.faultEntry .range)
      else s.faultEntry .config) := by
  simp only [exec, execOla]
  by_cases h : s.configured <;> by_cases h2 : s.insideRM s.regs.obase s.regs.olen <;> simp [h, h2]

/-- The loop of `RESAMP` up to output sample `n`. -/
def State.resampled (s : State) (n : Nat) : Memory 64 :=
  forUp n (fun i rm => rm.set (s.regs.rdbase.toNat + i)
    (resampleValue rm s.regs.rsbase.toNat s.regs.rslen.toNat s.regs.rdlen.toNat i)) s.rm

theorem exec_resamp (s : State) : exec .resamp s =
    .next (if s.insideRM s.regs.rsbase s.regs.rslen ∧ s.insideRM s.regs.rdbase s.regs.rdlen ∧
        (0 < s.regs.rdlen.toNat → 0 < s.regs.rslen.toNat) then
      State.complete { s with rm := s.resampled s.regs.rdlen.toNat }
      else s.faultEntry .range) := by
  simp only [exec, execResamp]
  by_cases h1 : s.insideRM s.regs.rsbase s.regs.rslen
  · by_cases h2 : s.insideRM s.regs.rdbase s.regs.rdlen
    · by_cases h3 : 0 < s.regs.rdlen.toNat ∧ s.regs.rslen.toNat = 0
      · rw [if_neg (by simp [h1, h2]), if_pos h3, if_neg (fun h => by have := h.2.2; omega)]
        rfl
      · rw [if_neg (by simp [h1, h2]), if_neg h3, if_pos ⟨h1, h2, fun h => by omega⟩]
        rfl
    · simp [h1, h2]
  · simp [h1]

/-! ## The two ways each codec command can end -/

theorem State.checkDescriptor_cases {s u : State} {k : Nat → Except ErrCode State}
    (h : s.checkDescriptor k = .ok u) :
    DescriptorOk s.regs.afmt.toNat s.regs.bps.toNat s.regs.nch.toNat ∧
      k (s.regs.bps.toNat / 8) = .ok u := by
  unfold State.checkDescriptor at h
  split at h
  · cases h
  · rename_i by' hd
    obtain ⟨h1, rfl⟩ := descriptorCheck_ok.1 hd
    exact ⟨h1, h⟩

theorem exec_wavhdr_cases {s t : State} (h : exec .wavhdr s = .next t) :
    (∃ c, t = (s.writeHeaderRegs (headerFields s.bm)
        (sampleCount (s.bm.readLE (c + 4) 4) (s.bm.readLE 22 2) (s.bm.readLE 34 2 / 8))
        (s.bm.readLE (c + 4) 4) (c + 8)).complete) ∨ ∃ e, t = s.faultEntry e := by
  simp only [exec, execWavhdr] at h
  rcases State.conclude_cases h with ⟨u, hu, rfl⟩ | ⟨e, _, rfl⟩
  · left
    split at hu
    · cases hu
    split at hu
    · cases hu
    split at hu
    · cases hu
    split at hu
    · cases hu
    split at hu
    · cases hu
    split at hu
    · cases hu
    rename_i by' hd
    obtain ⟨-, rfl⟩ := descriptorCheck_ok.1 hd
    split at hu
    · cases hu
    rename_i c hc
    split at hu
    · cases hu
    exact ⟨c, congrArg State.complete (Except.ok.inj hu).symm⟩
  · exact .inr ⟨e, rfl⟩

theorem exec_pcmdec_cases {s t : State} (h : exec .pcmdec s = .next t) :
    (DescriptorOk s.regs.afmt.toNat s.regs.bps.toNat s.regs.nch.toNat ∧ s.channelsFit ∧
      t = State.complete { s with rm := s.decodeSamples (s.regs.bps.toNat / 8) }) ∨
      ∃ e, t = s.faultEntry e := by
  simp only [exec, execPcmdec] at h
  rcases State.conclude_cases h with ⟨u, hu, rfl⟩ | ⟨e, _, rfl⟩
  · obtain ⟨hd, hu⟩ := State.checkDescriptor_cases hu
    split at hu
    · cases hu
    split at hu
    · cases hu
    split at hu
    · cases hu
    rename_i hf
    exact .inl ⟨hd, not_not.1 hf, congrArg State.complete (Except.ok.inj hu).symm⟩
  · exact .inr ⟨e, rfl⟩

theorem exec_pcmenc_cases {s t : State} (h : exec .pcmenc s = .next t) :
    (DescriptorOk s.regs.afmt.toNat s.regs.bps.toNat s.regs.nch.toNat ∧ s.channelsFit ∧
      s.regs.dataoff.toNat + s.payload (s.regs.bps.toNat / 8) ≤ s.sizes.bmBytes ∧
      t = State.complete { s with
        bm := s.encodeSamples (s.regs.bps.toNat / 8)
        regs := { s.regs with
          blen := BitVec.ofNat 32 (s.regs.dataoff.toNat + s.payload (s.regs.bps.toNat / 8)) } }) ∨
      ∃ e, t = s.faultEntry e := by
  simp only [exec, execPcmenc] at h
  rcases State.conclude_cases h with ⟨u, hu, rfl⟩ | ⟨e, _, rfl⟩
  · obtain ⟨hd, hu⟩ := State.checkDescriptor_cases hu
    split at hu
    · cases hu
    split at hu
    · cases hu
    rename_i h1 hf
    exact .inl ⟨hd, not_not.1 hf, not_lt.1 h1, congrArg State.complete (Except.ok.inj hu).symm⟩
  · exact .inr ⟨e, rfl⟩

/-- What `WAVHDRW` writes. -/
def State.headerWritten (s : State) : State :=
  let n := s.regs.nch.toNat
  let by' := s.regs.bps.toNat / 8
  let dsz := s.payload by'
  let brate := s.regs.srate.toNat * n * by'
  { s with
    bm := writeHeader s.bm (if s.regs.afmt.toNat = 3 then 3 else 1) n s.regs.srate.toNat brate
      (n * by') s.regs.bps.toNat dsz
    regs := { s.regs with
      riffsz := BitVec.ofNat 32 (36 + dsz)
      fmtsz := 16
      byterate := BitVec.ofNat 32 brate
      balign := BitVec.ofNat 16 (n * by')
      datasize := BitVec.ofNat 32 dsz
      dataoff := 44
      blen := 44 } }

theorem exec_wavhdrw_cases {s t : State} (h : exec .wavhdrw s = .next t) :
    (DescriptorOk s.regs.afmt.toNat s.regs.bps.toNat s.regs.nch.toNat ∧ 44 ≤ s.sizes.bmBytes ∧
      t = s.headerWritten.complete) ∨ ∃ e, t = s.faultEntry e := by
  simp only [exec, execWavhdrw] at h
  rcases State.conclude_cases h with ⟨u, hu, rfl⟩ | ⟨e, _, rfl⟩
  · obtain ⟨hd, hu⟩ := State.checkDescriptor_cases hu
    split at hu
    · cases hu
    split at hu
    · cases hu
    split at hu
    · cases hu
    rename_i _ h1 _
    exact .inl ⟨hd, not_lt.1 h1, congrArg State.complete (Except.ok.inj hu).symm⟩
  · exact .inr ⟨e, rfl⟩

/-! ## What any command can do -/

/-- `Effect s i u`: the command `i` passes its checks in `s`, and `u` is `s` with its writes made (the
slot not yet emptied). -/
inductive Effect (s : State) : Instr → State → Prop where
  | nop : Effect s .nop s
  | cmul : Effect s .cmul { s with regs := { s.regs with cp := cmul s.regs.ca s.regs.cb } }
  | bfly : Effect s .bfly { s with regs := { s.regs with
      cp := (butterfly s.regs.ca s.regs.cb s.regs.cw).1
      cq := (butterfly s.regs.ca s.regs.cb s.regs.cw).2 } }
  | bitrev (h : s.lenFits) : Effect s .bitrev s.bitrevPass
  | stage {st : Nat} {inv : Bool} (h : s.lenFits) (hs : st < s.len2) :
      Effect s (.stage st inv) (s.stagePass st inv)
  | xscale (h : s.lenFits) : Effect s .xscale s.xscalePass
  | fft (h : s.lenFits) : Effect s .fft (s.bitrevPass.stages false s.len2)
  | ifft (h : s.lenFits) : Effect s .ifft (s.bitrevPass.stages true s.len2).xscalePass
  | npow2 {n : Nat} : Effect s (.npow2 n) { s with regs := { s.regs with
      padlog2 := BitVec.ofNat 5 (padLog n)
      padamt := BitVec.ofNat 32 (2 ^ padLog n - n) } }
  | pvcfg (hv : 0 < s.overlap) (hp : isPow2 s.regs.fsize.toNat = true)
      (hl : s.overlap < (s.regs.fsize.toNat : Int))
      (hf : s.regs.fsize.toNat.log2 ≤ s.sizes.log2nMax) : Effect s .pvcfg s.configure
  | phrst : Effect s .phrst { s with
      pv := s.pv.splice 0 s.nmax (fun _ => fZero)
      cu := s.cu.splice 0 s.nmax (fun _ => fZero) }
  | framew {i : Nat} (hc : s.configured) (hr : s.insideRM s.regs.ibase s.regs.ilen)
      (hf : i * s.hopA + s.len ≤ s.regs.ilen.toNat) :
      Effect s (.framew i) (s.framePass s.len (s.analysisSample i))
  | phase (hc : s.configured) : Effect s .phase { s.framePass s.len s.binOutput with
      pv := s.pv.splice 0 s.len s.binPhase
      cu := s.cu.splice 0 s.len s.binCumulative }
  | ola {i : Nat} (hc : s.configured) (hr : s.insideRM s.regs.obase s.regs.olen) :
      Effect s (.ola i)
        { s with rm := s.rm.splice (s.olaIndex i 0) (s.olaCount i) (s.olaSum i) }
  | resamp (hs : s.insideRM s.regs.rsbase s.regs.rslen)
      (hd : s.insideRM s.regs.rdbase s.regs.rdlen)
      (he : 0 < s.regs.rdlen.toNat → 0 < s.regs.rslen.toNat) :
      Effect s .resamp { s with rm := s.resampled s.regs.rdlen.toNat }
  | wavhdr (c : Nat) : Effect s .wavhdr (s.writeHeaderRegs (headerFields s.bm)
      (sampleCount (s.bm.readLE (c + 4) 4) (s.bm.readLE 22 2) (s.bm.readLE 34 2 / 8))
      (s.bm.readLE (c + 4) 4) (c + 8))
  | pcmdec (hd : DescriptorOk s.regs.afmt.toNat s.regs.bps.toNat s.regs.nch.toNat)
      (hf : s.channelsFit) :
      Effect s .pcmdec { s with rm := s.decodeSamples (s.regs.bps.toNat / 8) }
  | wavhdrw (hd : DescriptorOk s.regs.afmt.toNat s.regs.bps.toNat s.regs.nch.toNat)
      (hb : 44 ≤ s.sizes.bmBytes) : Effect s .wavhdrw s.headerWritten
  | pcmenc (hd : DescriptorOk s.regs.afmt.toNat s.regs.bps.toNat s.regs.nch.toNat)
      (hf : s.channelsFit)
      (hb : s.regs.dataoff.toNat + s.payload (s.regs.bps.toNat / 8) ≤ s.sizes.bmBytes) :
      Effect s .pcmenc { s with
        bm := s.encodeSamples (s.regs.bps.toNat / 8)
        regs := { s.regs with
          blen := BitVec.ofNat 32 (s.regs.dataoff.toNat + s.payload (s.regs.bps.toNat / 8)) } }

/-- A command is the fault entry, or completes with its effect. -/
theorem exec_cases {i : Instr} {s t : State} (h : exec i s = .next t) :
    (∃ e, t = s.faultEntry e) ∨ ∃ u, Effect s i u ∧ t = u.complete := by
  cases i
  case nop => cases h; exact .inr ⟨_, .nop, rfl⟩
  case cmul => cases h; exact .inr ⟨_, .cmul, rfl⟩
  case bfly => cases h; exact .inr ⟨_, .bfly, rfl⟩
  case bitrev =>
    rw [exec_bitrev] at h
    split at h
    · cases h; exact .inr ⟨_, .bitrev ‹_›, rfl⟩
    · cases h; exact .inl ⟨_, rfl⟩
  case stage st inv =>
    rw [exec_stage] at h
    split at h
    · split at h
      · cases h; exact .inr ⟨_, .stage ‹_› ‹_›, rfl⟩
      · cases h; exact .inl ⟨_, rfl⟩
    · cases h; exact .inl ⟨_, rfl⟩
  case xscale =>
    rw [exec_xscale] at h
    split at h
    · cases h; exact .inr ⟨_, .xscale ‹_›, rfl⟩
    · cases h; exact .inl ⟨_, rfl⟩
  case fft =>
    rw [exec_fft] at h
    split at h
    · cases h; exact .inr ⟨_, .fft ‹_›, rfl⟩
    · cases h; exact .inl ⟨_, rfl⟩
  case ifft =>
    rw [exec_ifft] at h
    split at h
    · cases h; exact .inr ⟨_, .ifft ‹_›, rfl⟩
    · cases h; exact .inl ⟨_, rfl⟩
  case npow2 n => cases h; exact .inr ⟨_, .npow2, rfl⟩
  case pvcfg =>
    rw [exec_pvcfg] at h
    split at h
    · rename_i hc
      cases h; exact .inr ⟨_, .pvcfg hc.1 hc.2.1 hc.2.2.1 hc.2.2.2, rfl⟩
    · cases h; exact .inl ⟨_, rfl⟩
  case phrst => cases h; exact .inr ⟨_, .phrst, rfl⟩
  case framew i =>
    rw [exec_framew] at h
    split at h
    · split at h
      · rename_i hc hr
        cases h; exact .inr ⟨_, .framew hc hr.1 hr.2, rfl⟩
      · cases h; exact .inl ⟨_, rfl⟩
    · cases h; exact .inl ⟨_, rfl⟩
  case phase =>
    rw [exec_phase] at h
    split at h
    · cases h; exact .inr ⟨_, .phase ‹_›, rfl⟩
    · cases h; exact .inl ⟨_, rfl⟩
  case ola i =>
    rw [exec_ola] at h
    split at h
    · split at h
      · cases h; exact .inr ⟨_, .ola ‹_› ‹_›, rfl⟩
      · cases h; exact .inl ⟨_, rfl⟩
    · cases h; exact .inl ⟨_, rfl⟩
  case resamp =>
    rw [exec_resamp] at h
    split at h
    · rename_i hc
      cases h; exact .inr ⟨_, .resamp hc.1 hc.2.1 hc.2.2, rfl⟩
    · cases h; exact .inl ⟨_, rfl⟩
  case wavhdr =>
    rcases exec_wavhdr_cases h with ⟨c, rfl⟩ | h
    · exact .inr ⟨_, .wavhdr c, rfl⟩
    · exact .inl h
  case pcmdec =>
    rcases exec_pcmdec_cases h with ⟨h1, h2, rfl⟩ | h
    · exact .inr ⟨_, .pcmdec h1 h2, rfl⟩
    · exact .inl h
  case wavhdrw =>
    rcases exec_wavhdrw_cases h with ⟨h1, h2, rfl⟩ | h
    · exact .inr ⟨_, .wavhdrw h1 h2, rfl⟩
    · exact .inl h
  case pcmenc =>
    rcases exec_pcmenc_cases h with ⟨h1, h2, h3, rfl⟩ | h
    · exact .inr ⟨_, .pcmenc h1 h2 h3, rfl⟩
    · exact .inl h

/-! ## Passes in a row -/

/-- What the stages of a transform leave alone. -/
theorem State.stages_keep {P : State → Prop} (hp : ∀ t n f, P t → P (State.framePass t n f))
    {s : State} (hs : P s) (inv : Bool) (n : Nat) : P (s.stages inv n) := by
  induction n with
  | zero => exact hs
  | succ n ih => exact hp _ _ _ ih

/-- What no pass of `FFT` or `IFFT` changes, the command leaves alone. -/
theorem Effect.transform_keep {P : State → Prop}
    (hp : ∀ t n f, P t → P (State.framePass t n f)) {s u : State} {i : Instr}
    (hi : i = .bitrev ∨ (∃ st inv, i = .stage st inv) ∨ i = .xscale ∨ i = .fft ∨ i = .ifft)
    (hs : P s) (h : Effect s i u) : P u := by
  rcases hi with rfl | ⟨st, inv, rfl⟩ | rfl | rfl | rfl <;> cases h
  · exact hp _ _ _ hs
  · exact hp _ _ _ hs
  · exact hp _ _ _ hs
  · exact State.stages_keep hp (hp _ _ _ hs) _ _
  · exact hp _ _ _ (State.stages_keep hp (hp _ _ _ hs) _ _)

/-- What no command changes while it runs: the sizes, the fault record, the agents' side. -/
structure Keeps (s u : State) : Prop where
  /-- the sizes -/
  sizes : u.sizes = s.sizes
  /-- ERR -/
  err : u.err = s.err
  /-- ERRCODE -/
  errCode : u.errCode = s.errCode
  /-- ERRINFO -/
  errinfo : u.regs.errinfo = s.regs.errinfo
  /-- the script -/
  script : u.script = s.script
  /-- the schedule -/
  sched : u.sched = s.sched
  /-- the port's latest answer -/
  resp : u.resp = s.resp

theorem Effect.keeps {s u : State} {i : Instr} (h : Effect s i u) : Keeps s u := by
  have hp : ∀ t n f, Keeps s t → Keeps s (State.framePass t n f) := fun t n f h =>
    ⟨h.sizes, h.err, h.errCode, h.errinfo, h.script, h.sched, h.resp⟩
  have hs : Keeps s s := ⟨rfl, rfl, rfl, rfl, rfl, rfl, rfl⟩
  cases i
  case bitrev => exact Effect.transform_keep hp (by simp) hs h
  case stage => exact Effect.transform_keep hp (by simp) hs h
  case xscale => exact Effect.transform_keep hp (by simp) hs h
  case fft => exact Effect.transform_keep hp (by simp) hs h
  case ifft => exact Effect.transform_keep hp (by simp) hs h
  all_goals cases h; exact ⟨rfl, rfl, rfl, rfl, rfl, rfl, rfl⟩

end Sys2Proof.Machine
end

