-- ==== Sys2Proof/Laws/Codec.lean ====
section
/-!
SUPPORT. What the loops of the codec do: where the data sub-chunk is found, what the stores of
`PCMDEC`, `PCMENC` and `WAVHDRW` leave in memory.
-/

namespace Sys2Proof.Machine

/-! ## Finding the data sub-chunk -/

/-- The scan answers the first "data" tag from its cursor whose header lies inside the file. -/
theorem scanData_ok {bm : Memory 8} {bl k c d : Nat} :
    scanData bm bl k c = .ok d ↔ c ≤ d ∧ d < c + k ∧ d + 8 ≤ bl ∧ bm.tagAt d = tagData ∧
      ∀ e, c ≤ e → e < d → bm.tagAt e ≠ tagData := by
  induction k generalizing c with
  | zero => simp only [scanData, reduceCtorEq, false_iff]; omega
  | succ k ih =>
    unfold scanData
    split
    · simp only [reduceCtorEq, false_iff]; omega
    split
    · rename_i h1 h2
      simp only [Except.ok.injEq]
      constructor
      · rintro rfl; exact ⟨le_rfl, by omega, by omega, h2, fun e h3 h4 => by omega⟩
      · rintro ⟨h3, -, -, -, h4⟩
        by_contra hne
        exact h4 c le_rfl (by omega) h2
    · rename_i h1 h2
      rw [ih]
      constructor
      · rintro ⟨h3, h4, h5, h6, h7⟩
        refine ⟨by omega, by omega, h5, h6, fun e he hd => ?_⟩
        rcases Nat.eq_or_lt_of_le he with rfl | he
        · exact h2
        · exact h7 e he hd
      · rintro ⟨h3, h4, h5, h6, h7⟩
        have : c ≠ d := fun h => h2 (h ▸ h6)
        exact ⟨by omega, by omega, h5, h6, fun e he hd => h7 e (by omega) hd⟩

/-- The only fault of the scan is the missing tag. -/
theorem scanData_error {bm : Memory 8} {bl k c : Nat} {e : ErrCode}
    (h : scanData bm bl k c = .error e) : e = .tagData := by
  induction k generalizing c with
  | zero => cases h; rfl
  | succ k ih =>
    unfold scanData at h
    split at h
    · cases h; rfl
    split at h
    · cases h
    · exact ih h

theorem scanStart_iff {bm : Memory 8} {bl c : Nat} : ScanStart bm bl c ↔ c = scanStart bm bl := by
  unfold scanStart
  simp only
  split
  · rename_i h
    exact ⟨fun hs => hs.fact h.1 h.2, fun hc => ⟨fun _ _ => hc, fun hn => absurd h hn⟩⟩
  · rename_i h
    exact ⟨fun hs => hs.other h, fun hc => ⟨fun h1 h2 => absurd ⟨h1, h2⟩ h, fun _ => hc⟩⟩

/-- The cursor found is that of Safety.lean. -/
theorem dataCursor_ok {bm : Memory 8} {bl a c : Nat} :
    dataCursor bm bl a = .ok c ↔ DataHeaderAt bm bl a c := by
  unfold dataCursor
  by_cases ha : a = 0xFFFE
  · rw [if_pos ha]
    split
    · simp only [reduceCtorEq, false_iff]
      intro h; have := (h.scan ha).1; omega
    · rw [scanData_ok]
      constructor
      · rintro ⟨h1, -, h3, h4, h5⟩
        exact ⟨h3, h4, fun hn => absurd ha hn, fun _ => ⟨by omega, _, scanStart_iff.2 rfl, h1, h5⟩⟩
      · intro h
        obtain ⟨h1, st, h2, h3, h4⟩ := h.scan ha
        obtain rfl := scanStart_iff.1 h2
        have := h.fits
        exact ⟨h3, by omega, h.fits, h.tag, h4⟩
  · rw [if_neg ha]
    split
    · simp only [reduceCtorEq, false_iff]
      intro h; have := h.plain ha; have := h.fits; omega
    split
    · simp only [reduceCtorEq, false_iff]
      rename_i ht
      intro h; have := h.plain ha; subst this; exact ht h.tag
    · rename_i h1 h2
      simp only [Except.ok.injEq]
      constructor
      · rintro rfl
        exact ⟨by omega, not_not.1 h2, fun _ => rfl, fun h => absurd h ha⟩
      · intro h; exact (h.plain ha).symm

/-- Why no cursor is found: the file ends before the place to look at, or the tag is not there. -/
theorem dataCursor_error {bm : Memory 8} {bl a : Nat} {e : ErrCode}
    (h : dataCursor bm bl a = .error e) :
    (e = .trunc ∧ bl < if a = 0xFFFE then 38 else 44) ∨
      (e = .tagData ∧ (if a = 0xFFFE then 38 else 44) ≤ bl) := by
  unfold dataCursor at h
  split at h
  · split at h
    · cases h; exact .inl ⟨rfl, by simp_all⟩
    · rename_i h1 h2; exact .inr ⟨scanData_error h, by simp_all⟩
  · rename_i ha
    rw [if_neg ha]
    split at h
    · cases h; exact .inl ⟨rfl, by omega⟩
    split at h
    · cases h; exact .inr ⟨rfl, by omega⟩
    · cases h

/-! ## The checks passed -/

/-- `WAVHDR` behind its checks of the container: the fields read, as numbers. -/
theorem exec_wavhdr_of_container {s : State} (h0 : s.regs.blen.toNat ≤ s.sizes.bmBytes)
    (h1 : 36 ≤ s.regs.blen.toNat) (hc : ContainerOk s.bm) :
    exec .wavhdr s = s.conclude
      (match descriptorCheck (s.bm.readLE 20 2) (s.bm.readLE 34 2) (s.bm.readLE 22 2) with
      | .error e => .error e
      | .ok by' =>
        match dataCursor s.bm s.regs.blen.toNat (s.bm.readLE 20 2) with
        | .error e => .error e
        | .ok c =>
          let ns := sampleCount (s.bm.readLE (c + 4) 4) (s.bm.readLE 22 2) by'
          if s.regs.blen.toNat < c + 8 + ns * s.bm.readLE 22 2 * by' then .error .trunc
          else .ok (s.writeHeaderRegs (headerFields s.bm) ns (s.bm.readLE (c + 4) 4) (c + 8))) := by
  simp only [exec, execWavhdr]
  rw [if_neg (not_lt.2 h0), if_neg (not_lt.2 h1), if_neg (not_not.2 hc.riff),
    if_neg (not_not.2 hc.wave), if_neg (not_not.2 hc.fmt)]
  rfl

/-- `WAVHDR` on a good file. -/
theorem exec_wavhdr_of {s : State} {c : Nat} (h0 : s.regs.blen.toNat ≤ s.sizes.bmBytes)
    (h1 : 36 ≤ s.regs.blen.toNat) (hc : ContainerOk s.bm)
    (hd : DescriptorOk (s.bm.readLE 20 2) (s.bm.readLE 34 2) (s.bm.readLE 22 2))
    (hh : DataHeaderAt s.bm s.regs.blen.toNat (s.bm.readLE 20 2) c)
    (hl : c + 8 + sampleCount (s.bm.readLE (c + 4) 4) (s.bm.readLE 22 2) (s.bm.readLE 34 2 / 8) *
      s.bm.readLE 22 2 * (s.bm.readLE 34 2 / 8) ≤ s.regs.blen.toNat) :
    exec .wavhdr s = .next (s.writeHeaderRegs (headerFields s.bm)
      (sampleCount (s.bm.readLE (c + 4) 4) (s.bm.readLE 22 2) (s.bm.readLE 34 2 / 8))
      (s.bm.readLE (c + 4) 4) (c + 8)).complete := by
  rw [exec_wavhdr_of_container h0 h1 hc, descriptorCheck_ok.2 ⟨hd, rfl⟩, dataCursor_ok.2 hh]
  simp only
  rw [if_neg (not_lt.2 hl)]
  rfl

/-- `PCMDEC` behind the descriptor check. -/
theorem exec_pcmdec {s : State}
    (hd : DescriptorOk s.regs.afmt.toNat s.regs.bps.toNat s.regs.nch.toNat) :
    exec .pcmdec s = .next
      (if s.sizes.bmBytes < s.regs.blen.toNat then s.faultEntry .range
      else if s.regs.blen.toNat < s.regs.dataoff.toNat + s.payload (s.regs.bps.toNat / 8) then
        s.faultEntry .trunc
      else if s.channelsFit then
        State.complete { s with rm := s.decodeSamples (s.regs.bps.toNat / 8) }
      else s.faultEntry .range) := by
  simp only [exec, execPcmdec, State.checkDescriptor_ok hd]
  split
  · rfl
  split
  · rfl
  split
  · rfl
  · rw [if_pos (not_not.1 ‹_›)]; rfl

/-- `PCMENC` behind the descriptor check. -/
theorem exec_pcmenc {s : State}
    (hd : DescriptorOk s.regs.afmt.toNat s.regs.bps.toNat s.regs.nch.toNat) :
    exec .pcmenc s = .next
      (if s.sizes.bmBytes < s.regs.dataoff.toNat + s.payload (s.regs.bps.toNat / 8) then
        s.faultEntry .range
      else if s.channelsFit then
        State.complete { s with
          bm := s.encodeSamples (s.regs.bps.toNat / 8)
          regs := { s.regs with
            blen := BitVec.ofNat 32 (s.regs.dataoff.toNat + s.payload (s.regs.bps.toNat / 8)) } }
      else s.faultEntry .range) := by
  simp only [exec, execPcmenc, State.checkDescriptor_ok hd]
  split
  · rfl
  split
  · rfl
  · rw [if_pos (not_not.1 ‹_›)]; rfl

/-- `WAVHDRW` behind the descriptor check. -/
theorem exec_wavhdrw {s : State}
    (hd : DescriptorOk s.regs.afmt.toNat s.regs.bps.toNat s.regs.nch.toNat) :
    exec .wavhdrw s = .next
      (if 36 + s.payload (s.regs.bps.toNat / 8) < 2 ^ 32 ∧ 44 ≤ s.sizes.bmBytes ∧
          s.regs.srate.toNat * s.regs.nch.toNat * (s.regs.bps.toNat / 8) < 2 ^ 32 ∧
          s.regs.nch.toNat * (s.regs.bps.toNat / 8) < 2 ^ 16 then s.headerWritten.complete
      else s.faultEntry .range) := by
  simp only [exec, execWavhdrw, State.checkDescriptor_ok hd]
  by_cases h1 : 2 ^ 32 ≤ 36 + s.payload (s.regs.bps.toNat / 8)
  · rw [if_pos h1, if_neg (fun h => absurd h.1 (not_lt.2 h1))]; rfl
  by_cases h2 : s.sizes.bmBytes < 44
  · rw [if_neg h1, if_pos h2, if_neg (fun h => absurd h.2.1 (not_le.2 h2))]; rfl
  by_cases h3 : 2 ^ 32 ≤ s.regs.srate.toNat * s.regs.nch.toNat * (s.regs.bps.toNat / 8) ∨
      2 ^ 16 ≤ s.regs.nch.toNat * (s.regs.bps.toNat / 8)
  · rw [if_neg h1, if_neg h2, if_pos h3, if_neg (fun h => by have := h.2.2; omega)]; rfl
  · rw [if_neg h1, if_neg h2, if_neg h3]
    exact congrArg Host.Outcome.next (if_pos ⟨by omega, by omega, by omega, by omega⟩).symm

/-! ## The samples decoded -/

/-- A loop that stores at places that are all different: each place holds what its iteration stored,
and every other place what it held before. -/
theorem forUp_get {α β : Type} {rd : α → Nat → β} {n : Nat} {f : Nat → α → α} {x : α}
    {at' : Nat → Nat → Prop} {v : Nat → Nat → β}
    (hin : ∀ i y a, i < n → at' i a → rd (f i y) a = v i a)
    (hout : ∀ i y a, i < n → ¬ at' i a → rd (f i y) a = rd y a)
    (hdis : ∀ i j a, i < n → j < n → at' i a → at' j a → i = j) (a : Nat) :
    (∀ i, i < n → at' i a → rd (forUp n f x) a = v i a) ∧
      ((∀ i, i < n → ¬ at' i a) → rd (forUp n f x) a = rd x a) := by
  induction n with
  | zero => exact ⟨fun i h => by omega, fun _ => rfl⟩
  | succ n ih =>
    have ih := ih (fun i y a h => hin i y a (by omega)) (fun i y a h => hout i y a (by omega))
      (fun i j a h1 h2 => hdis i j a (by omega) (by omega))
    constructor
    · intro i hi hp
      by_cases hn : i = n
      · subst hn; exact hin i _ a hi hp
      · have : ¬ at' n a := fun h => hn (hdis i n a hi (by omega) hp h)
        show rd (f n (forUp n f x)) a = _
        rw [hout n _ a (by omega) this]
        exact ih.1 i (by omega) hp
    · intro h
      show rd (f n (forUp n f x)) a = _
      rw [hout n _ a (by omega) (h n (by omega))]
      exact ih.2 fun i hi => h i (by omega)

/-- Two samples of different channels or instants lie at different places of RM. -/
theorem State.sampleIndex_inj {s : State} (hf : s.channelsFit) {c t c' t' : Nat}
    (hc : c < s.regs.nch.toNat) (ht : t < s.regs.nsamp.toNat) (hc' : c' < s.regs.nch.toNat)
    (ht' : t' < s.regs.nsamp.toNat) (h : s.sampleIndex c t = s.sampleIndex c' t') :
    c = c' ∧ t = t' := by
  unfold State.sampleIndex at h
  have hs : c = c' ∨ s.regs.nsamp.toNat ≤ s.regs.chstride.toNat := by
    have := hf.1
    by_cases hn : 1 < s.regs.nch.toNat
    · right; by_contra hlt; exact this ⟨hn, by omega⟩
    · left; omega
  have key : c = c' := by
    rcases hs with hs | hs
    · exact hs
    rcases Nat.lt_trichotomy c c' with hlt | he | hgt
    · have := Nat.mul_le_mul_right s.regs.chstride.toNat (show c + 1 ≤ c' by omega)
      rw [Nat.succ_mul] at this; omega
    · exact he
    · have := Nat.mul_le_mul_right s.regs.chstride.toNat (show c' + 1 ≤ c by omega)
      rw [Nat.succ_mul] at this; omega
  subst key
  exact ⟨rfl, by omega⟩

/-- What `PCMDEC` leaves in RM (43_codec.md R186). -/
theorem State.decodeSamples_get {s : State} (hf : s.channelsFit) (by' a : Nat) :
    (∀ c t, c < s.regs.nch.toNat → t < s.regs.nsamp.toNat → a = s.sampleIndex c t →
      (s.decodeSamples by').get a =
        normSample (s.bm.readLE (s.sampleOffset by' c t) by') s.regs.afmt.toNat s.regs.bps.toNat) ∧
    ((∀ c t, c < s.regs.nch.toNat → t < s.regs.nsamp.toNat → a ≠ s.sampleIndex c t) →
      (s.decodeSamples by').get a = s.rm.get a) := by
  have inner : ∀ (t : Nat) (rm : Memory 64) (a : Nat), t < s.regs.nsamp.toNat → _ := fun t rm a ht =>
    forUp_get (rd := Memory.get) (x := rm) (n := s.regs.nch.toNat)
      (f := fun c rm => rm.set (s.sampleIndex c t) (normSample
        (s.bm.readLE (s.sampleOffset by' c t) by') s.regs.afmt.toNat s.regs.bps.toNat))
      (at' := fun c a => a = s.sampleIndex c t)
      (v := fun c _ => normSample (s.bm.readLE (s.sampleOffset by' c t) by') s.regs.afmt.toNat
        s.regs.bps.toNat)
      (fun c y a _ h => by rw [Memory.get_set, if_pos h])
      (fun c y a _ h => by rw [Memory.get_set, if_neg h])
      (fun i j a hi hj h1 h2 => (s.sampleIndex_inj hf hi ht hj ht (h1.symm.trans h2)).1) a
  have outer := forUp_get (rd := Memory.get) (x := s.rm) (n := s.regs.nsamp.toNat)
    (f := fun t rm => forUp s.regs.nch.toNat (fun c rm => rm.set (s.sampleIndex c t) (normSample
        (s.bm.readLE (s.sampleOffset by' c t) by') s.regs.afmt.toNat s.regs.bps.toNat)) rm)
    (at' := fun t a => ∃ c, c < s.regs.nch.toNat ∧ a = s.sampleIndex c t)
    (v := fun t a => (forUp s.regs.nch.toNat (fun c rm => rm.set (s.sampleIndex c t) (normSample
        (s.bm.readLE (s.sampleOffset by' c t) by') s.regs.afmt.toNat s.regs.bps.toNat)) s.rm).get a)
    (fun t y a ht ⟨c, hc, h⟩ => by
      rw [(inner t y a ht).1 c hc h, (inner t s.rm a ht).1 c hc h])
    (fun t y a ht h => (inner t y a ht).2 fun c hc he => h ⟨c, hc, he⟩)
    (fun t t' a ht ht' ⟨c, hc, h⟩ ⟨c', hc', h'⟩ =>
      (s.sampleIndex_inj hf hc ht hc' ht' (h.symm.trans h')).2) a
  refine ⟨fun c t hc ht h => ?_, fun h => outer.2 fun t ht ⟨c, hc, he⟩ => h c t hc ht he⟩
  exact (outer.1 t ht ⟨c, hc, h⟩).trans ((inner t s.rm a ht).1 c hc h)

/-! ## The samples encoded -/

/-- The position of a sample in the interleaved data is its own. -/
theorem interleave_inj {n c t c' t' : Nat} (hc : c < n) (hc' : c' < n)
    (h : t * n + c = t' * n + c') : c = c' ∧ t = t' := by
  have h1 := congrArg (· % n) h
  have h2 := congrArg (· / n) h
  simp only [Nat.mul_add_mod', Nat.mod_eq_of_lt hc, Nat.mod_eq_of_lt hc'] at h1
  subst h1
  refine ⟨rfl, Nat.eq_of_mul_eq_mul_right (show 0 < n by omega) (by omega)⟩

/-- A byte of one sample is no byte of another. -/
theorem State.sampleOffset_inj {s : State} {by' c t c' t' j j' : Nat}
    (hc : c < s.regs.nch.toNat) (hc' : c' < s.regs.nch.toNat) (hj : j < by') (hj' : j' < by')
    (h : s.sampleOffset by' c t + j = s.sampleOffset by' c' t' + j') : c = c' ∧ t = t' := by
  unfold State.sampleOffset at h
  have h2 := interleave_inj (n := by') (c := j) (t := t * s.regs.nch.toNat + c) (c' := j')
    (t' := t' * s.regs.nch.toNat + c') hj hj' (by omega)
  exact interleave_inj hc hc' h2.2

/-- What `PCMENC` leaves in BM (43_codec.md R192). -/
theorem State.encodeSamples_get (s : State) (by' a : Nat) :
    (∀ c t j, c < s.regs.nch.toNat → t < s.regs.nsamp.toNat → j < by' →
      a = s.sampleOffset by' c t + j →
      (s.encodeSamples by').get a = BitVec.ofNat 8 (denormSample (s.rm.get (s.sampleIndex c t))
        s.regs.afmt.toNat s.regs.bps.toNat / 256 ^ j)) ∧
    ((∀ c t j, c < s.regs.nch.toNat → t < s.regs.nsamp.toNat → j < by' →
      a ≠ s.sampleOffset by' c t + j) → (s.encodeSamples by').get a = s.bm.get a) := by
  let at1 (t c a : Nat) : Prop := s.sampleOffset by' c t ≤ a ∧ a < s.sampleOffset by' c t + by'
  let v (t c a : Nat) : Byte := BitVec.ofNat 8 (denormSample (s.rm.get (s.sampleIndex c t))
        s.regs.afmt.toNat s.regs.bps.toNat / 256 ^ (a - s.sampleOffset by' c t))
  let f (t : Nat) : Nat → Memory 8 → Memory 8 := fun c bm => bm.writeLE (s.sampleOffset by' c t) by'
        (denormSample (s.rm.get (s.sampleIndex c t)) s.regs.afmt.toNat s.regs.bps.toNat)
  have inj : ∀ t t' c c' a, c < s.regs.nch.toNat → c' < s.regs.nch.toNat → at1 t c a → at1 t' c' a →
      c = c' ∧ t = t' := fun t t' c c' a hc hc' h1 h2 =>
    State.sampleOffset_inj (by' := by') (j := a - s.sampleOffset by' c t)
      (j' := a - s.sampleOffset by' c' t') hc hc'
      (by have := h1.1; have := h1.2; omega) (by have := h2.1; have := h2.2; omega)
      (by have := h1.1; have := h2.1; omega)
  have inner : ∀ (t : Nat) (bm : Memory 8) (a : Nat), _ := fun t bm a =>
    forUp_get (rd := Memory.get) (x := bm) (n := s.regs.nch.toNat) (f := f t) (at' := at1 t) (v := v t)
      (fun c y a _ h => by rw [Memory.get_writeLE, if_pos h])
      (fun c y a _ h => by rw [Memory.get_writeLE, if_neg h])
      (fun i j a hi hj h1 h2 => (inj t t i j a hi hj h1 h2).1) a
  have outer := forUp_get (rd := Memory.get) (x := s.bm) (n := s.regs.nsamp.toNat)
    (f := fun t bm => forUp s.regs.nch.toNat (f t) bm)
    (at' := fun t a => ∃ c, c < s.regs.nch.toNat ∧ at1 t c a)
    (v := fun t a => (forUp s.regs.nch.toNat (f t) s.bm).get a)
    (fun t y a ht ⟨c, hc, h⟩ => by rw [(inner t y a).1 c hc h, (inner t s.bm a).1 c hc h])
    (fun t y a ht h => (inner t y a).2 fun c hc he => h ⟨c, hc, he⟩)
    (fun t t' a ht ht' ⟨c, hc, h⟩ ⟨c', hc', h'⟩ => (inj t t' c c' a hc hc' h h').2) a
  refine ⟨fun c t j hc ht hj h => ?_, fun h => outer.2 fun t ht ⟨c, hc, h1, h2⟩ =>
    h c t (a - s.sampleOffset by' c t) hc ht (by omega) (by omega)⟩
  have ha : at1 t c a := ⟨by omega, by omega⟩
  refine (outer.1 t ht ⟨c, hc, ha⟩).trans (((inner t s.bm a).1 c hc ha).trans ?_)
  show BitVec.ofNat 8 (_ / 256 ^ (a - s.sampleOffset by' c t)) = _
  rw [h, Nat.add_sub_cancel_left]

/-- The bytes of the samples fill the data, and nothing else. -/
theorem State.sampleOffset_covers {s : State} {by' : Nat} {j : Nat} :
    j < s.payload by' ↔ ∃ c t i, c < s.regs.nch.toNat ∧ t < s.regs.nsamp.toNat ∧ i < by' ∧
      s.regs.dataoff.toNat + j = s.sampleOffset by' c t + i := by
  unfold State.payload State.sampleOffset
  generalize s.regs.nch.toNat = n
  generalize s.regs.nsamp.toNat = ns
  constructor
  · intro h
    have hby : 0 < by' := by
      rcases Nat.eq_zero_or_pos by' with h0 | h0
      · simp [h0] at h
      · exact h0
    have h1 : j / by' < ns * n := (Nat.div_lt_iff_lt_mul hby).2 h
    have hn : 0 < n := by
      rcases Nat.eq_zero_or_pos n with h0 | h0
      · simp [h0] at h1
      · exact h0
    refine ⟨j / by' % n, j / by' / n, j % by', Nat.mod_lt _ hn, (Nat.div_lt_iff_lt_mul hn).2 h1,
      Nat.mod_lt _ hby, ?_⟩
    rw [Nat.div_add_mod' (j / by') n, Nat.add_assoc, Nat.div_add_mod']
  · rintro ⟨c, t, i, hc, ht, hi, h⟩
    have h1 := Nat.mul_le_mul_right n (show t + 1 ≤ ns by omega)
    rw [Nat.succ_mul] at h1
    have h2 := Nat.mul_le_mul_right by' (show t * n + c + 1 ≤ ns * n by omega)
    rw [Nat.succ_mul] at h2
    omega

/-! ## The header written -/

/-- Every field of the header `WAVHDRW` writes, read back (43_codec.md R190). -/
theorem writeHeader_fields (bm : Memory 8) {tagv n sr brate balign b dsz : Nat} :
    let m := writeHeader bm tagv n sr brate balign b dsz
    m.tagAt 0 = tagRIFF ∧ m.readLE 4 4 = (36 + dsz) % 256 ^ 4 ∧ m.tagAt 8 = tagWAVE ∧
      m.tagAt 12 = tagFmt ∧ m.readLE 16 4 = 16 ∧ m.readLE 20 2 = tagv % 256 ^ 2 ∧
      m.readLE 22 2 = n % 256 ^ 2 ∧ m.readLE 24 4 = sr % 256 ^ 4 ∧
      m.readLE 28 4 = brate % 256 ^ 4 ∧ m.readLE 32 2 = balign % 256 ^ 2 ∧
      m.readLE 34 2 = b % 256 ^ 2 ∧ m.tagAt 36 = tagData ∧ m.readLE 40 4 = dsz % 256 ^ 4 := by
  intro m
  have get : ∀ a, m.get a =
      if 40 ≤ a ∧ a < 44 then BitVec.ofNat 8 (dsz / 256 ^ (a - 40))
      else if 36 ≤ a ∧ a < 40 then tagData.byte (a - 36)
      else if 34 ≤ a ∧ a < 36 then BitVec.ofNat 8 (b / 256 ^ (a - 34))
      else if 32 ≤ a ∧ a < 34 then BitVec.ofNat 8 (balign / 256 ^ (a - 32))
      else if 28 ≤ a ∧ a < 32 then BitVec.ofNat 8 (brate / 256 ^ (a - 28))
      else if 24 ≤ a ∧ a < 28 then BitVec.ofNat 8 (sr / 256 ^ (a - 24))
      else if 22 ≤ a ∧ a < 24 then BitVec.ofNat 8 (n / 256 ^ (a - 22))
      else if 20 ≤ a ∧ a < 22 then BitVec.ofNat 8 (tagv / 256 ^ (a - 20))
      else if 16 ≤ a ∧ a < 20 then BitVec.ofNat 8 (16 / 256 ^ (a - 16))
      else if 12 ≤ a ∧ a < 16 then tagFmt.byte (a - 12)
      else if 8 ≤ a ∧ a < 12 then tagWAVE.byte (a - 8)
      else if 4 ≤ a ∧ a < 8 then BitVec.ofNat 8 ((36 + dsz) / 256 ^ (a - 4))
      else if 0 ≤ a ∧ a < 4 then tagRIFF.byte (a - 0)
      else bm.get a := fun a => by
    simp only [m, writeHeader, Memory.get_writeLE, Memory.get_writeTag]
  have field : ∀ o k v, (∀ i, i < k → m.get (o + i) = BitVec.ofNat 8 (v / 256 ^ i)) →
      m.readLE o k = v % 256 ^ k := fun o k v h => Memory.readLE_of_get h
  refine ⟨?_, field _ _ _ ?_, ?_, ?_, field 16 4 16 ?_, field _ _ _ ?_, field _ _ _ ?_,
    field _ _ _ ?_, field _ _ _ ?_, field _ _ _ ?_, field _ _ _ ?_, ?_, field _ _ _ ?_⟩
  case refine_1 => simp only [Memory.tagAt, get]; rfl
  case refine_3 => simp only [Memory.tagAt, get]; rfl
  case refine_4 => simp only [Memory.tagAt, get]; rfl
  case refine_12 => simp only [Memory.tagAt, get]; rfl
  all_goals
    intro i hi
    rw [get]
    interval_cases i <;> rfl

/-- `WAVHDRW` writes the bytes below 44 only. -/
theorem writeHeader_get (bm : Memory 8) (tagv n sr brate balign b dsz : Nat) {a : Nat}
    (h : 44 ≤ a) : (writeHeader bm tagv n sr brate balign b dsz).get a = bm.get a := by
  simp only [writeHeader, Memory.get_writeLE, Memory.get_writeTag]
  repeat rw [if_neg (by omega)]

end Sys2Proof.Machine
end

