-- ==== Sys2Proof/Laws/Decode.lean ====
section
/-!
SUPPORT. Taking a command word apart and putting it together.
-/

namespace Sys2Proof

/-- The decoder on a word given by its two fields. -/
theorem decode_ofNat {op arg : Nat} (ho : op < 2 ^ 8) (ha : arg < 2 ^ 24) :
    decode (BitVec.ofNat 32 (op * 2 ^ 24 + arg)) = decodeFields op arg := by
  have h : (op * 2 ^ 24 + arg) % 2 ^ 32 = op * 2 ^ 24 + arg := Nat.mod_eq_of_lt (by omega)
  rw [decode, BitVec.toNat_ofNat, h, show (op * 2 ^ 24 + arg) / 2 ^ 24 = op by omega,
    show (op * 2 ^ 24 + arg) % 2 ^ 24 = arg by omega]

theorem decodeZ_eq_command {arg : Nat} {i j : Instr} :
    decodeZ arg j = .command i ↔ arg = 0 ∧ j = i := by
  unfold decodeZ; split <;> simp_all

theorem decodeS_eq_command {arg : Nat} {i : Instr} :
    decodeS arg = .command i ↔ arg / 2 ^ 9 = 0 ∧ arg / 2 ^ 5 % 2 ^ 3 = 0 ∧
      i = .stage (arg % 2 ^ 5) (decide (arg / 2 ^ 8 % 2 = 1)) := by
  unfold decodeS
  split
  · rename_i h
    exact ⟨fun e => ⟨h.1, h.2, (Decoded.command.inj e).symm⟩, fun e => by rw [e.2.2]⟩
  · rename_i h
    exact ⟨nofun, fun e => absurd ⟨e.1, e.2.1⟩ h⟩

theorem Instr.opcode_lt (i : Instr) : i.opcode < 2 ^ 8 := by
  cases i <;> simp [Instr.opcode]

theorem Instr.operandField_lt {i : Instr} (h : i.wellFormed = true) : i.operandField < 2 ^ 24 := by
  cases i <;> simp_all [Instr.wellFormed, Instr.operandField]
  split <;> omega

/-- A mask that covers the opcode field keeps the opcode and drops the operand field. -/
theorem and_opcode_mask {op arg m : Nat} (h : arg < 2 ^ 24) :
    (op * 2 ^ 24 + arg) &&& (m * 2 ^ 24) = (op &&& m) * 2 ^ 24 := by
  apply Nat.eq_of_testBit_eq
  intro i
  rw [mul_comm op, mul_comm m, mul_comm (op &&& m), Nat.testBit_and,
    Nat.testBit_two_pow_mul_add _ h, Nat.testBit_two_pow_mul, Nat.testBit_two_pow_mul,
    Nat.testBit_and]
  by_cases hi : i < 24
  · simp [hi, not_le.2 hi]
  · simp [hi, not_lt.1 hi]

/-- A word of format I selects the row of its opcode. -/
theorem selects_formatI {op arg : Nat} (ho : op < 2 ^ 8) (h : arg < 2 ^ 24) :
    BitVec.ofNat 32 (op * 2 ^ 24 + arg) &&& 0xFF000000#32 = BitVec.ofNat 32 (op * 2 ^ 24) := by
  apply BitVec.eq_of_toNat_eq
  have hm : (0xFF000000#32).toNat = (2 ^ 8 - 1) * 2 ^ 24 := rfl
  rw [BitVec.toNat_and, hm, BitVec.toNat_ofNat, BitVec.toNat_ofNat, Nat.mod_eq_of_lt (by omega),
    Nat.mod_eq_of_lt (by omega), and_opcode_mask h, Nat.and_two_pow_sub_one_eq_mod,
    Nat.mod_eq_of_lt ho]

end Sys2Proof
end

