-- ==== Sys2Proof/Laws/Frames.lean ====
section
/-!
SUPPORT. What a pass of a whole-frame command leaves alone and what it writes, and the same for the
stages of a transform in a row.
-/

namespace Sys2Proof.Machine

theorem Untouched.refl (s : State) (P : Place → Prop) : Untouched s s noReg P :=
  ⟨fun _ _ _ => rfl, fun _ _ => rfl, rfl, rfl, rfl, rfl⟩

/-- Emptying the slot touches nothing. -/
theorem Untouched.complete {s t : State} {R : RegName → Prop} {P : Place → Prop}
    (h : Untouched s t R P) : Untouched s t.complete R P where
  regs r h1 h2 := by rw [← h.regs r h1 h2]; exact State.readReg_congr (s := t) (t := t.complete) rfl h1
  entries p h2 := by rw [← h.entries p h2]; exact State.entry_congr rfl rfl rfl rfl rfl rfl rfl p
  sizes := h.sizes
  script := h.script
  sched := h.sched
  resp := h.resp

/-- A pass touches the first `n` entries of the inactive bank. -/
theorem State.untouched_framePass (s : State) (n : Nat) (f : Nat → Cplx) :
    Untouched s (s.framePass n f) noReg (s.InactiveBelow n) where
  regs r h _ := State.readReg_congr (s := s) (t := s.framePass n f) rfl h
  entries p hp := by
    cases p with
    | bank hi k im =>
      simp only [State.entry, State.framePass_x0, State.framePass_x1]
      by_cases hk : k < n
      · have : hi ≠ !s.xsel := fun h => hp ⟨k, im, hk, by rw [h]⟩
        cases hi <;> cases hx : s.xsel <;> simp_all
      · cases hi <;> cases hx : s.xsel <;> simp [Bank.get_fill, hk]
    | _ => rfl
  sizes := rfl
  script := rfl
  sched := rfl
  resp := rfl

/-- A command that is one pass completes. -/
theorem State.completed_framePass (s : State) (n : Nat) (f : Nat → Cplx) :
    Completed s (s.framePass n f).complete noReg (s.InactiveBelow n) :=
  ⟨rfl, rfl, rfl, (s.untouched_framePass n f).complete⟩

/-- The entries a pass wrote are those of the new active bank. -/
theorem State.framePass_get (s : State) {n k : Nat} (f : Nat → Cplx) (h : k < n) :
    (s.framePass n f).complete.active.get k = f k := by
  show (s.framePass n f).active.get k = f k
  rw [State.framePass_active, Bank.get_fill, if_pos h]

/-- One more pass inside the same frame. -/
theorem Untouched.framePass {s t : State} {P : Place → Prop} {n : Nat} (h : Untouched s t noReg P)
    (hp : ∀ p, BankBelow n p → P p) (f : Nat → Cplx) : Untouched s (t.framePass n f) noReg P where
  regs r h1 h2 := by rw [← h.regs r h1 h2]; exact State.readReg_congr (s := t) (t := t.framePass n f) rfl h1
  entries p h2 := by
    rw [← h.entries p h2]
    cases p with
    | bank hi k im =>
      by_cases hk : k < n
      · exact absurd (hp _ ⟨hi, k, im, hk, rfl⟩) h2
      · simp only [State.entry, State.framePass_x0, State.framePass_x1]
        cases hi <;> cases hx : t.xsel <;> simp [Bank.get_fill, hk]
    | _ => rfl
  sizes := h.sizes
  script := h.script
  sched := h.sched
  resp := h.resp

/-! ## Stages in a row -/

theorem State.stages_succ (s : State) (inv : Bool) (n : Nat) :
    s.stages inv (n + 1) = (s.stages inv n).stagePass n inv := rfl

theorem State.stages_fields (s : State) (inv : Bool) (n : Nat) :
    (s.stages inv n).len2 = s.len2 ∧ (s.stages inv n).sizes = s.sizes ∧
      (s.stages inv n).regs = s.regs ∧ (s.stages inv n).cfgv = s.cfgv := by
  induction n with
  | zero => exact ⟨rfl, rfl, rfl, rfl⟩
  | succ n ih => exact ih

/-- Every stage inverts XSEL. -/
theorem State.stages_xsel (s : State) (inv : Bool) (n : Nat) :
    (s.stages inv n).xsel = (s.xsel ^^ decide (n % 2 = 1)) := by
  induction n with
  | zero => simp [State.stages, forUp]
  | succ n ih =>
    show (!(s.stages inv n).xsel) = _
    rw [ih]
    cases s.xsel <;> rcases Nat.mod_two_eq_zero_or_one n with h | h <;> simp [h, Nat.add_mod]

theorem State.stages_complete (s : State) (inv : Bool) (n : Nat) :
    s.complete.stages inv n = (s.stages inv n).complete := by
  induction n with
  | zero => rfl
  | succ n ih => rw [State.stages_succ, State.stages_succ, ih]; rfl

/-- The stages touch the first entries of both banks. -/
theorem Untouched.stages {s t : State} (h : Untouched s t noReg (BankBelow s.len))
    (hl : t.len2 = s.len2) (inv : Bool) (n : Nat) :
    Untouched s (t.stages inv n) noReg (BankBelow s.len) := by
  induction n with
  | zero => exact h
  | succ n ih =>
    refine ih.framePass ?_ _
    have : (t.stages inv n).len = s.len := by
      rw [State.len, (t.stages_fields inv n).1, hl, State.len]
    exact fun p hp => this ▸ hp

/-- A list of commands performed in two parts. -/
theorem execAll_append {a b : List Instr} {s t : State} (h : execAll a s = .next t) :
    execAll (a ++ b) s = execAll b t := by
  induction a generalizing s with
  | nil => cases h; rfl
  | cons i a ih =>
    simp only [List.cons_append, execAll] at *
    split at h
    · exact ih h
    · cases h
    · cases h

end Sys2Proof.Machine
end

