-- ==== Sys2Proof/Laws/Integers.lean ====
section
/-!
SUPPORT. The integer helpers of 40_numerics.md R121: powers of two, bit reversal, lower and upper
indices of a stage.
-/

namespace Sys2Proof.Machine

theorem testBit_two_pow_add_low {k r : Nat} (h : r < 2 ^ k) : (2 ^ k + r).testBit k = true := by
  rw [Nat.testBit_two_pow_add_eq, Nat.testBit_lt_two_pow h]; rfl

/-- The power-of-two test of 40_numerics.md R121. -/
theorem isPow2_iff {n : Nat} : isPow2 n = true ↔ ∃ k, n = 2 ^ k := by
  simp only [isPow2, decide_eq_true_eq]
  constructor
  · rintro ⟨h0, h⟩
    refine ⟨n.log2, ?_⟩
    by_contra hne
    have h1 := Nat.log2_self_le h0
    have h2 := Nat.lt_log2_self (n := n)
    rw [pow_succ] at h2
    have ha : n.testBit n.log2 = true := by
      have := testBit_two_pow_add_low (k := n.log2) (r := n - 2 ^ n.log2) (by omega)
      rwa [Nat.add_sub_cancel' h1] at this
    have hb : (n - 1).testBit n.log2 = true := by
      have := testBit_two_pow_add_low (k := n.log2) (r := n - 1 - 2 ^ n.log2) (by omega)
      rwa [Nat.add_sub_cancel' (by omega)] at this
    have := congrArg (fun x => x.testBit n.log2) h
    simp [ha, hb] at this
  · rintro ⟨k, rfl⟩
    exact ⟨by positivity, by rw [Nat.and_two_pow_sub_one_eq_mod, Nat.mod_self]⟩

theorem log2_of_isPow2 {n : Nat} (h : isPow2 n = true) : n = 2 ^ n.log2 := by
  obtain ⟨k, rfl⟩ := isPow2_iff.1 h
  rw [Nat.log2_two_pow]

/-- Bit reversal stays below `2^l`. -/
theorem rev_lt (i l : Nat) : rev i l < 2 ^ l := by
  induction l generalizing i with
  | zero => simp [rev]
  | succ l ih =>
    have h1 := ih (i / 2)
    have h2 : i % 2 * 2 ^ l ≤ 2 ^ l := by
      have : i % 2 ≤ 1 := by omega
      nlinarith [Nat.two_pow_pos l]
    rw [rev, pow_succ]; omega

/-- Bit `b` of the reversal is bit `l - 1 - b` (41_transform.md R143). -/
theorem testBit_rev {i l b : Nat} (h : b < l) : (rev i l).testBit b = i.testBit (l - 1 - b) := by
  induction l generalizing i b with
  | zero => omega
  | succ l ih =>
    have hlt := rev_lt (i / 2) l
    rw [rev, mul_comm]
    by_cases hb : b = l
    · subst hb
      have h0 : i.testBit (b + 1 - 1 - b) = decide (i % 2 = 1) := by
        rw [show b + 1 - 1 - b = 0 by omega, Nat.testBit_zero]
      rw [h0, Nat.testBit_two_pow_mul_add _ hlt, if_neg (by omega), Nat.sub_self, Nat.testBit_zero]
      simp
    · rw [Nat.testBit_two_pow_mul_add _ hlt, if_pos (by omega), ih (by omega),
        Nat.testBit_div_two]
      congr 1; omega

/-- `rev` is an involution (41_transform.md R143). -/
theorem rev_rev {i l : Nat} (h : i < 2 ^ l) : rev (rev i l) l = i := by
  apply Nat.eq_of_testBit_eq
  intro b
  by_cases hb : b < l
  · rw [testBit_rev hb, testBit_rev (by omega)]; congr 1; omega
  · rw [Nat.testBit_lt_two_pow (lt_of_lt_of_le (rev_lt _ _) (Nat.pow_le_pow_right (by omega) (by omega))),
      Nat.testBit_lt_two_pow (lt_of_lt_of_le h (Nat.pow_le_pow_right (by omega) (by omega)))]

/-- The lower index of position `j` in group `g` of stage `st` has bit `st` clear, and its low bits
are `j` (41_transform.md R144). -/
theorem lower_index {st g j : Nat} (hj : j < 2 ^ st) :
    (g * 2 ^ (st + 1) + j) &&& 2 ^ st = 0 ∧ (g * 2 ^ (st + 1) + j) &&& (2 ^ st - 1) = j := by
  have e : g * 2 ^ (st + 1) + j = 2 ^ (st + 1) * g + j := by ring
  have hj' : j < 2 ^ (st + 1) := by rw [pow_succ]; omega
  constructor
  · rw [e, Nat.and_two_pow, Nat.testBit_two_pow_mul_add _ hj', if_pos (by omega),
      Nat.testBit_lt_two_pow hj]
    simp
  · rw [Nat.and_two_pow_sub_one_eq_mod, e, pow_succ, mul_assoc, Nat.mul_add_mod, Nat.mod_eq_of_lt hj]

/-- The upper index of the same butterfly has bit `st` set. -/
theorem upper_index {st g j : Nat} (hj : j < 2 ^ st) :
    (g * 2 ^ (st + 1) + j + 2 ^ st) &&& 2 ^ st ≠ 0 := by
  have e : g * 2 ^ (st + 1) + j + 2 ^ st = 2 ^ (st + 1) * g + (2 ^ st + j) := by ring
  have hj' : 2 ^ st + j < 2 ^ (st + 1) := by rw [pow_succ]; omega
  rw [e, Nat.and_two_pow, Nat.testBit_two_pow_mul_add _ hj', if_pos (by omega),
    testBit_two_pow_add_low hj]
  simp

/-- `padLog n` is the least exponent whose power of two reaches `n` (41_transform.md R148). -/
theorem padLog_le_iff {n k : Nat} : padLog n ≤ k ↔ n ≤ 2 ^ k := by
  unfold padLog
  split
  · rename_i h
    exact ⟨fun _ => le_trans h Nat.one_le_two_pow, fun _ => Nat.zero_le _⟩
  · rename_i h
    rw [Nat.add_one_le_iff, Nat.log2_lt (by omega)]
    omega

end Sys2Proof.Machine
end

