-- ==== Sys2Proof/Laws/PerInstr.lean ====
section
/-!
SUPPORT. Laws stated per command: one statement about every command of the set, one lemma per
constructor.
-/

namespace Sys2Proof.Laws.SelectsOwnRow

/-- 30_encoding.md R94: the word of a well-formed command selects a row of the opcode map that has the
command's mnemonic, and carries the command's opcode in bits 31:24. -/
def Statement (i : Instr) : Prop :=
  i.wellFormed = true →
    (encode i).toNat / 2 ^ 24 = i.opcode ∧
      ∃ r, r ∈ opcodeMap ∧ r.mnemonic = i.mnemonic ∧ r.Selects (encode i)

/-- The opcode field of a word. -/
theorem toNat_encode_div {i : Instr} (h : i.wellFormed = true) :
    (encode i).toNat / 2 ^ 24 = i.opcode := by
  have h1 := i.opcode_lt
  have h2 := Instr.operandField_lt h
  rw [encode, BitVec.toNat_ofNat, Nat.mod_eq_of_lt (by omega)]
  omega

/-- A command of format I. -/
theorem of_formatI {i : Instr} {r : OpcodeRow} (hr : r ∈ opcodeMap) (hm : r.mnemonic = i.mnemonic)
    (hk : r.mask = 0xFF000000#32) (hp : r.pattern = BitVec.ofNat 32 (i.opcode * 2 ^ 24)) :
    Statement i := fun h =>
  ⟨toNat_encode_div h, r, hr, hm, by
    rw [OpcodeRow.Selects, hk, hp, encode]
    exact selects_formatI i.opcode_lt (Instr.operandField_lt h)⟩

theorem nop : Statement .nop := fun h =>
  ⟨toNat_encode_div h, ⟨"NOP", 0x00000000, 0xFFFFFFFF⟩, by simp [opcodeMap], rfl, by decide⟩

theorem cmul : Statement .cmul := fun h =>
  ⟨toNat_encode_div h, ⟨"CMUL", 0x10000000, 0xFFFFFFFF⟩, by simp [opcodeMap], rfl, by decide⟩

theorem bfly : Statement .bfly := fun h =>
  ⟨toNat_encode_div h, ⟨"BFLY", 0x11000000, 0xFFFFFFFF⟩, by simp [opcodeMap], rfl, by decide⟩

theorem bitrev : Statement .bitrev := fun h =>
  ⟨toNat_encode_div h, ⟨"BITREV", 0x12000000, 0xFFFFFFFF⟩, by simp [opcodeMap], rfl, by decide⟩

theorem stage (s : Nat) (inv : Bool) : Statement (.stage s inv) := fun h => by
  refine ⟨toNat_encode_div h, ⟨"STAGE", 0x13000000, 0xFFFFFEE0⟩, by simp [opcodeMap], rfl, ?_⟩
  have hs : s < 2 ^ 5 := by simpa [Instr.wellFormed] using h
  clear h
  revert hs
  cases inv
  · revert s; decide
  · revert s; decide

theorem xscale : Statement .xscale := fun h =>
  ⟨toNat_encode_div h, ⟨"XSCALE", 0x14000000, 0xFFFFFFFF⟩, by simp [opcodeMap], rfl, by decide⟩

theorem fft : Statement .fft := fun h =>
  ⟨toNat_encode_div h, ⟨"FFT", 0x15000000, 0xFFFFFFFF⟩, by simp [opcodeMap], rfl, by decide⟩

theorem ifft : Statement .ifft := fun h =>
  ⟨toNat_encode_div h, ⟨"IFFT", 0x16000000, 0xFFFFFFFF⟩, by simp [opcodeMap], rfl, by decide⟩

theorem npow2 (n : Nat) : Statement (.npow2 n) :=
  of_formatI (r := ⟨"NPOW2", 0x17000000, 0xFF000000⟩) (by simp [opcodeMap]) rfl
    (by decide) (by rw [Instr.opcode]; decide)

theorem pvcfg : Statement .pvcfg := fun h =>
  ⟨toNat_encode_div h, ⟨"PVCFG", 0x20000000, 0xFFFFFFFF⟩, by simp [opcodeMap], rfl, by decide⟩

theorem phrst : Statement .phrst := fun h =>
  ⟨toNat_encode_div h, ⟨"PHRST", 0x21000000, 0xFFFFFFFF⟩, by simp [opcodeMap], rfl, by decide⟩

theorem framew (i : Nat) : Statement (.framew i) :=
  of_formatI (r := ⟨"FRAMEW", 0x22000000, 0xFF000000⟩) (by simp [opcodeMap]) rfl
    (by decide) (by rw [Instr.opcode]; decide)

theorem phase : Statement .phase := fun h =>
  ⟨toNat_encode_div h, ⟨"PHASE", 0x23000000, 0xFFFFFFFF⟩, by simp [opcodeMap], rfl, by decide⟩

theorem ola (i : Nat) : Statement (.ola i) :=
  of_formatI (r := ⟨"OLA", 0x24000000, 0xFF000000⟩) (by simp [opcodeMap]) rfl
    (by decide) (by rw [Instr.opcode]; decide)

theorem resamp : Statement .resamp := fun h =>
  ⟨toNat_encode_div h, ⟨"RESAMP", 0x25000000, 0xFFFFFFFF⟩, by simp [opcodeMap], rfl, by decide⟩

theorem wavhdr : Statement .wavhdr := fun h =>
  ⟨toNat_encode_div h, ⟨"WAVHDR", 0x30000000, 0xFFFFFFFF⟩, by simp [opcodeMap], rfl, by decide⟩

theorem pcmdec : Statement .pcmdec := fun h =>
  ⟨toNat_encode_div h, ⟨"PCMDEC", 0x31000000, 0xFFFFFFFF⟩, by simp [opcodeMap], rfl, by decide⟩

theorem wavhdrw : Statement .wavhdrw := fun h =>
  ⟨toNat_encode_div h, ⟨"WAVHDRW", 0x32000000, 0xFFFFFFFF⟩, by simp [opcodeMap], rfl, by decide⟩

theorem pcmenc : Statement .pcmenc := fun h =>
  ⟨toNat_encode_div h, ⟨"PCMENC", 0x33000000, 0xFFFFFFFF⟩, by simp [opcodeMap], rfl, by decide⟩

end Sys2Proof.Laws.SelectsOwnRow
end

