-- ==== Sys2Proof/Laws/Port.lean ====
section
/-!
SUPPORT. What an access of the host port and a step of the machine can do, said once.
-/

namespace Sys2Proof.Machine

/-! ## The port -/

theorem State.accepts_some {s : State} {haddr : BitVec 32} {w : Bool} {l : Location}
    (h : s.accepts haddr w = some l) :
    haddr.toNat % 8 = 0 ∧ locate s.sizes haddr = some l ∧ l.forbids w = false ∧
      (s.pending.isSome = true → l.allowedWhileBusy w = true) ∧
      (w = true → l = .reg .cmd → s.err = false) := by
  unfold State.accepts at h
  split at h
  · cases h
  rename_i h1
  split at h
  · cases h
  rename_i l' hl
  split at h
  · cases h
  split at h
  · cases h
  split at h
  · cases h
  cases h
  rename_i h2 h3 h4
  simp only [State.busy] at h3
  refine ⟨not_not.1 h1, hl, by simpa using h2, fun hb => ?_, fun hw hc => ?_⟩
  · simpa [hb] using h3
  · simpa [hw, hc] using h4

/-- An access is refused with no change of state, or it is performed on an admitted location. -/
theorem State.portWrite_cases (s : State) (haddr : BitVec 32) (d : BitVec 64) :
    s.portWrite haddr d = (s, .refused) ∨
      ∃ l t, s.accepts haddr true = some l ∧ s.writeLocation d l = some t ∧
        s.portWrite haddr d = (t, .done) := by
  unfold State.portWrite
  split
  · exact .inl rfl
  · rename_i l hl
    split
    · exact .inl rfl
    · rename_i t ht
      exact .inr ⟨l, t, hl, ht, rfl⟩

/-- What a register write can do: issue a command, reset, change a construction parameter and clear
CFGV, or change another register. -/
theorem State.writeReg_cases {s t : State} {d : BitVec 64} {r : RegName}
    (h : s.writeReg d r = some t) :
    (r = .cmd ∧ t = { s with pending := some (d.setWidth 32) }) ∨
    (r = .sreset ∧ t = if d.getLsbD 0 then s.blockReset else s) ∨
    ((r = .log2n ∨ r = .fsize ∨ r = .ovl) ∧
      ∃ g, t = { s with regs := g, cfgv := false } ∧ g.errinfo = s.regs.errinfo) ∨
    ∃ g, t = { s with regs := g } ∧ g.errinfo = s.regs.errinfo ∧ g.log2n = s.regs.log2n ∧
      g.fsize = s.regs.fsize ∧ g.ovl = s.regs.ovl ∧ g.ha = s.regs.ha ∧ g.again = s.regs.again := by
  cases r <;> simp only [State.writeReg, Option.some.injEq, reduceCtorEq] at h
  case cmd => exact .inl ⟨rfl, h.symm⟩
  case sreset => exact .inr (.inl ⟨rfl, h.symm⟩)
  case log2n => exact .inr (.inr (.inl ⟨by simp, _, h.symm, rfl⟩))
  case fsize => exact .inr (.inr (.inl ⟨by simp, _, h.symm, rfl⟩))
  case ovl => exact .inr (.inr (.inl ⟨by simp, _, h.symm, rfl⟩))
  all_goals exact .inr (.inr (.inr ⟨_, h.symm, rfl, rfl, rfl, rfl, rfl, rfl⟩))

/-- What an accepted write can do: a register write, or a change of one memory and nothing else. -/
theorem State.writeLocation_cases {s t : State} {d : BitVec 64} {l : Location}
    (h : s.writeLocation d l = some t) :
    (∃ r, l = .reg r ∧ s.writeReg d r = some t) ∨
    (∃ hi k im, l = .bank hi k im ∧
      t = if hi then { s with x1 := Bank.setPart s.x1 k im d }
        else { s with x0 := Bank.setPart s.x0 k im d }) ∨
    (∃ k, l = .pv k ∧ t = { s with pv := s.pv.set k d }) ∨
    (∃ k, l = .cu k ∧ t = { s with cu := s.cu.set k d }) ∨
    (∃ a, l = .rm a ∧ t = { s with rm := s.rm.set a d }) ∨
    (∃ b, l = .bm b ∧ t = { s with bm := s.bm.writeLE b 8 d.toNat }) := by
  cases l <;> simp only [State.writeLocation, Option.some.injEq, reduceCtorEq] at h
  case reg r => exact .inl ⟨r, rfl, h⟩
  case bank hi k im => exact .inr (.inl ⟨hi, k, im, rfl, h.symm⟩)
  case pv k => exact .inr (.inr (.inl ⟨k, rfl, h.symm⟩))
  case cu k => exact .inr (.inr (.inr (.inl ⟨k, rfl, h.symm⟩)))
  case rm a => exact .inr (.inr (.inr (.inr (.inl ⟨a, rfl, h.symm⟩))))
  case bm b => exact .inr (.inr (.inr (.inr (.inr ⟨b, rfl, h.symm⟩))))

/-- What a step of the HOST can do to the block. -/
theorem State.hostStep_cases (s : State) :
    ∃ u, (u = s ∨ u = s.blockReset ∨
        ∃ haddr d l, s.accepts haddr true = some l ∧ s.writeLocation d l = some u) ∧
      ∃ script resp, s.hostStep = { u with script := script, resp := resp } := by
  unfold State.hostStep
  split
  · exact ⟨s, .inl rfl, s.script, s.resp, rfl⟩
  · exact ⟨s, .inl rfl, _, _, rfl⟩
  · rename_i haddr d rest hs
    rcases s.portWrite_cases haddr d with h | ⟨l, t, hl, ht, h⟩
    · exact ⟨s, .inl rfl, rest, some .refused, by rw [h]⟩
    · exact ⟨t, .inr (.inr ⟨haddr, d, l, hl, ht⟩), rest, some .done, by rw [h]⟩
  · exact ⟨s, .inl rfl, _, _, rfl⟩
  · exact ⟨s.blockReset, .inr (.inl rfl), _, s.resp, rfl⟩

/-! ## Steps -/

/-- What one step of the machine can do. -/
theorem step_cases {s t : State} (h : step s = .next t) :
    t = s ∨ t = s.passTurn.hostStep ∨
      ∃ w, s.pending = some w ∧
        ((∃ why, decode w = .illegal why ∧ t = s.passTurn.faultEntry .illegal) ∨
          ∃ i, decode w = .command i ∧ exec i s.passTurn = .next t) := by
  unfold step at h
  split at h
  · cases h; exact .inl rfl
  · cases h; exact .inr (.inl rfl)
  · split at h
    · cases h; exact .inl rfl
    · rename_i w hw
      refine .inr (.inr ⟨w, hw, ?_⟩)
      unfold engineStep at h
      split at h
      · rename_i why hd
        cases h; exact .inl ⟨why, hd, rfl⟩
      · rename_i i hd
        exact .inr ⟨i, hd, h⟩

theorem State.mover_engine {s : State} (hp : s.pending.isSome = true)
    (h : s.sched.head? ≠ some .host ∨ s.script = []) : s.mover = some .engine := by
  unfold State.mover State.scheduled State.busy
  cases hs : s.sched with
  | nil => simp [hp]
  | cons a l =>
    cases a with
    | engine => simp [hp]
    | host => simp_all

theorem State.mover_host {s : State} (hs : s.script ≠ [])
    (h : s.sched.head? = some .host ∨ s.pending = none) : s.mover = some .host := by
  unfold State.mover State.scheduled State.busy
  cases hl : s.sched with
  | nil => simp_all
  | cons a l =>
    cases a with
    | engine => simp_all
    | host => simp_all

/-- The ENGINE's step on a word that decodes to a command. -/
theorem step_of_command {s : State} {w : BitVec 32} {i : Instr} (hp : s.pending = some w)
    (hd : decode w = .command i) (h : s.sched.head? ≠ some .host ∨ s.script = []) :
    step s = exec i s.passTurn := by
  simp [step, State.mover_engine (by simp [hp]) h, hp, engineStep, hd]

/-! ## Register addresses -/

theorem RegName.number_lt (r : RegName) : r.number < 44 := by cases r <;> decide

theorem RegName.ofNumber_number (r : RegName) : RegName.ofNumber r.number = some r := by
  cases r <;> rfl

theorem locate_reg (z : Sizes) (r : RegName) :
    locate z (BitVec.ofNat 32 (8 * r.number)) = some (.reg r) := by cases r <;> rfl

/-- The tests of the port on a register's address. -/
theorem State.accepts_reg (s : State) (r : RegName) (w : Bool) :
    s.accepts (BitVec.ofNat 32 (8 * r.number)) w =
      if (Location.reg r).forbids w then none
      else if s.busy && !(Location.reg r).allowedWhileBusy w then none
      else if w && decide (r = .cmd) && s.err then none else some (.reg r) := by
  have h := r.number_lt
  unfold State.accepts
  rw [locate_reg, if_neg (by rw [BitVec.toNat_ofNat]; omega)]
  simp

/-- A write that the rights allow has an effect, and a read a value. -/
theorem State.writeReg_isSome {s : State} {r : RegName} {d : BitVec 64} (h : r.access ≠ .readOnly) :
    (s.writeReg d r).isSome = true := by
  cases r <;> simp_all [RegName.access, State.writeReg]

/-- What a read of a register gives. -/
theorem State.readReg_eq {s : State} {r : RegName} (h : r.access ≠ .writeOnly) :
    s.readReg r = some (BitVec.ofNat 64 (s.registerValue r)) := by
  cases r <;> first
    | exact absurd rfl h
    | simp only [State.readReg, State.registerValue, BitVec.ofNat_toNat, BitVec.setWidth_eq]

theorem State.writeLocation_isSome {s : State} {l : Location} {d : BitVec 64}
    (h : l.access ≠ .readOnly) : (s.writeLocation d l).isSome = true := by
  cases l <;> simp_all [Location.access, State.writeLocation, State.writeReg_isSome]

/-- What an accepted read of a location gives. -/
theorem State.readLocation_eq {s : State} {l : Location} (h : l.access ≠ .writeOnly) :
    s.readLocation l = some (BitVec.ofNat 64 (s.valueAt l)) := by
  cases l with
  | reg r => exact State.readReg_eq h
  | bm b => simp only [State.readLocation, State.valueAt, Memory.readLE_eq_sum]
  | _ => simp only [State.readLocation, State.valueAt, BitVec.ofNat_toNat, BitVec.setWidth_eq]

/-- The STATUS word as a number. -/
theorem State.statusWord_toNat (s : State) : s.statusWord.toNat =
    s.busy.toNat + 2 * s.err.toNat + 4 * s.cfgv.toNat + 8 * s.xsel.toNat +
      256 * s.errCode.toNat := by
  have := s.errCode.isLt
  rw [State.statusWord, BitVec.toNat_ofNat]
  cases s.busy <;> cases s.err <;> cases s.cfgv <;> cases s.xsel <;>
    simp only [Bool.toNat_true, Bool.toNat_false] <;> omega

/-- One part of one entry of a bank is written. -/
theorem Cplx.part_setPart (b : Bank) (k : Nat) (im : Bool) (v : F64) (k' : Nat) (im' : Bool) :
    Cplx.part im' ((Bank.setPart b k im v).get k') =
      if k' = k ∧ im' = im then v else Cplx.part im' (b.get k') := by
  unfold Bank.setPart Cplx.part Bank.get
  cases im <;> cases im' <;> simp [Memory.get_set]

/-- The HOST's step takes nothing from the schedule and changes no size. -/
theorem State.hostStep_sched (s : State) :
    s.hostStep.sched = s.sched ∧ s.hostStep.sizes = s.sizes := by
  obtain ⟨u, hu, sc, rs, e⟩ := s.hostStep_cases
  rw [e]
  rcases hu with rfl | rfl | ⟨a, d, l, -, hw⟩
  · exact ⟨rfl, rfl⟩
  · exact ⟨rfl, rfl⟩
  rcases State.writeLocation_cases hw with ⟨r, rfl, h⟩ | ⟨hi, k, im, rfl, rfl⟩ | ⟨k, rfl, rfl⟩ |
    ⟨k, rfl, rfl⟩ | ⟨k, rfl, rfl⟩ | ⟨k, rfl, rfl⟩
  · rcases State.writeReg_cases h with ⟨_, rfl⟩ | ⟨_, rfl⟩ | ⟨_, g, rfl, _⟩ | ⟨g, rfl, _⟩
    · exact ⟨rfl, rfl⟩
    · split <;> exact ⟨rfl, rfl⟩
    · exact ⟨rfl, rfl⟩
    · exact ⟨rfl, rfl⟩
  · cases hi <;> exact ⟨rfl, rfl⟩
  all_goals exact ⟨rfl, rfl⟩

/-! ## Runs -/

theorem run_succ {s t : State} (h : step s = .next t) (k : Nat) :
    Host.Core.run Sys2Proof.core (k + 1) s = Host.Core.run Sys2Proof.core k t := by
  have h' : Sys2Proof.core.step s = .next t := h
  simp only [Host.Core.run, h']

end Sys2Proof.Machine
end

