-- ==== Sys2Proof/Laws/Values.lean ====
section
/-!
SUPPORT. The special values (40_numerics.md R111), the order of the values under the comparisons
(R120), `frint` and `toint` of finite values (R115, R117), and integers through the scalings of the
sample formats (43_codec.md R185, R191).
-/

namespace Sys2Proof.Machine

/-! ## Infinities and zeros -/

theorem pack_of_isInf {a : F64} (h : isInf a = true) : pack (fsign a) infMag = a := by
  have h : fmag a = infMag := by simpa [isInf] using h
  rw [← h, pack_fsign_fmag]

theorem isNaN_of_isInf {a : F64} (h : isInf a = true) : isNaN a = false := by
  simp only [isInf, isNaN, decide_eq_true_eq, decide_eq_false_iff_not] at *; omega

theorem isZero_of_isInf {a : F64} (h : isInf a = true) : isZero a = false := by
  simp only [isInf, isZero, decide_eq_true_eq, decide_eq_false_iff_not] at *; rw [h]; decide

theorem isFinite_of_isZero {a : F64} (h : isZero a = true) : isFinite a = true := by
  simp only [isZero, isFinite, decide_eq_true_eq] at *; rw [h]; decide

theorem isInf_fneg {a : F64} (h : isNaN a = false) : isInf (fneg a) = isInf a := by
  simp only [isInf, fmag_fneg h]

@[simp] theorem isInf_pack_infMag (s : Bool) : isInf (pack s infMag) = true := by
  cases s <;> decide +kernel

@[simp] theorem fsign_pack_infMag (s : Bool) : fsign (pack s infMag) = s := fsign_pack infMag_lt

@[simp] theorem isZero_pack_zero (s : Bool) : isZero (pack s 0) = true := by cases s <;> decide +kernel

@[simp] theorem fsign_pack_zero (s : Bool) : fsign (pack s 0) = s := fsign_pack (by norm_num)

/-- A value of at most 53 significant bits far below the largest is finite. -/
theorem isFinite_of_funits {x : F64} {n e : Nat} (h : isNaN x = false) (hu : funits x = n * 2 ^ e)
    (hn : n ≤ 2 ^ 53) (he : e + 54 ≤ 2046) : isFinite x = true := by
  have hk : fmag x ≤ infMag := by simpa [isNaN] using h
  simp only [isFinite, decide_eq_true_eq]
  refine lt_of_le_of_ne hk fun h => ?_
  obtain ⟨f, hf, h2⟩ := magUnits_infMag
  have gen : n * 2 ^ e < 2 ^ 52 * 2 ^ f := by
    have h4 := Nat.pow_le_pow_right (show 0 < 2 by norm_num) (show e + 54 ≤ f by omega)
    have h5 := Nat.mul_le_mul_right (2 ^ e) hn
    have h6 := Nat.two_pow_pos e
    rw [pow_add] at h4
    nlinarith
  rw [funits, h, h2] at hu
  omega

/-! ## The order of the values -/

/-- The key the comparisons compare is ordered as the values are (40_numerics.md R120). -/
theorem extendedValue_le {a b : F64} (ha : isNaN a = false) (hb : isNaN b = false) :
    extendedValue a ≤ extendedValue b ↔ fkey a ≤ fkey b := by
  have ka : fmag a ≤ infMag := by simpa [isNaN] using ha
  have kb : fmag b ≤ infMag := by simpa [isNaN] using hb
  have hinf : 0 < infMag := by decide
  have inf (x : F64) : isInf x = decide (fmag x = infMag) := rfl
  unfold extendedValue fkey
  rw [inf a, inf b]
  by_cases h1 : fmag a = infMag <;> by_cases h2 : fmag b = infMag
  · simp only [h1, h2, decide_true, if_true]
    cases fsign a <;> cases fsign b <;> simp <;> omega
  · simp only [h1, h2, decide_true, decide_false, if_true, Bool.false_eq_true, if_false]
    cases fsign a <;> cases fsign b <;> simp <;> omega
  · simp only [h1, h2, decide_true, decide_false, if_true, Bool.false_eq_true, if_false]
    cases fsign a <;> cases fsign b <;> simp <;> omega
  · simp only [h1, h2, decide_false, Bool.false_eq_true, if_false, EReal.coe_le_coe_iff, Int.cast_le]
    have m1 := magUnits_le_iff (fb := 52) (m := fmag a) (n := fmag b)
    have m2 := magUnits_le_iff (fb := 52) (m := fmag b) (n := fmag a)
    have z1 := magUnits_le_iff (fb := 52) (m := fmag a) (n := 0)
    have z2 := magUnits_le_iff (fb := 52) (m := fmag b) (n := 0)
    rw [show magUnits 52 0 = 0 by decide] at z1 z2
    unfold fval funits
    generalize magUnits 52 (fmag a) = A at *
    generalize magUnits 52 (fmag b) = B at *
    cases fsign a <;> cases fsign b <;> simp <;> omega

/-! ## Nearest integers -/

theorem oneUnits_pos : 0 < oneUnits := Nat.two_pow_pos 1074

/-- `frint` of a finite value is the nearest integer, exactly (40_numerics.md R115). -/
theorem frint_parts {a : F64} (ha : isFinite a = true) :
    fsign (frint a) = fsign a ∧ funits (frint a) = rneDiv (funits a) oneUnits * oneUnits := by
  rw [frint, if_neg (by simp [isNaN_of_isFinite ha]), if_neg (by simp [isInf_of_isFinite ha])]
  refine packInt_near ha ?_ (fsign a)
  have hU := oneUnits_pos
  unfold rneDiv
  simp only
  split
  · rename_i h
    exact .inr ⟨fun h0 => by rw [h0] at h; omega, rfl⟩
  · exact .inl rfl

theorem fint_frint {a : F64} (ha : isFinite a = true) :
    fint (frint a) = if fsign a then -(rneDiv (funits a) oneUnits : Int)
      else rneDiv (funits a) oneUnits := by
  obtain ⟨h1, h2⟩ := frint_parts ha
  rw [fint, fnat, h1, h2, Nat.mul_div_cancel _ oneUnits_pos]

/-- The integer `toint` takes from a finite value (40_numerics.md R117). -/
theorem nearestInt_frint {a : F64} (ha : isFinite a = true) : NearestInt a (fint (frint a)) := by
  have ho : (2 : Int) ^ 1074 = (oneUnits : Int) := by rw [oneUnits, Nat.cast_pow]; rfl
  obtain ⟨s1, s2, s3, s4⟩ := rneDiv_spec (funits a) oneUnits oneUnits_pos
  suffices key : 2 * |fval a - fint (frint a) * oneUnits| ≤ oneUnits ∧
      (2 * |fval a - fint (frint a) * oneUnits| = oneUnits → fint (frint a) % 2 = 0) from
    ⟨by rw [ho]; exact key.1, by rw [ho]; exact key.2⟩
  rw [fint_frint ha, fval]
  clear ho ha
  generalize rneDiv (funits a) oneUnits = q at *
  generalize funits a = A at *
  generalize oneUnits = U at *
  have hc : ((q * U : Nat) : Int) = (q : Int) * U := Nat.cast_mul _ _
  cases fsign a
  · simp only [Bool.false_eq_true, if_false]
    rw [← hc]
    rcases abs_cases ((A : Int) - ((q * U : Nat) : Int)) with h | h <;> constructor <;> omega
  · simp only [if_true]
    rw [neg_mul, ← hc]
    rcases abs_cases (-(A : Int) - -((q * U : Nat) : Int)) with h | h <;> constructor <;> omega

/-! ## Integers through a scaling -/

theorem f64_parts {n : Int} (hn : n.natAbs ≤ 2 ^ 53) : isFinite (f64 n) = true ∧
    fsign (f64 n) = decide (n < 0) ∧ funits (f64 n) = n.natAbs * oneUnits := by
  obtain ⟨h1, h2⟩ := packInt_small hn (decide (n < 0))
  rw [f64]
  have hN : isNaN (packInt (decide (n < 0)) n.natAbs) = false := by rw [packInt]; simp
  exact ⟨isFinite_of_funits hN h2 hn (by norm_num), h1, h2⟩

/-- `c` is the value `2^p`, with `p` at most 31. -/
structure IsScale (c : F64) (p : Nat) : Prop where
  /-- the exponent -/
  small : p ≤ 31
  /-- positive -/
  sign : fsign c = false
  /-- finite -/
  finite : isFinite c = true
  /-- not zero -/
  nonzero : isZero c = false
  /-- the value -/
  units : funits c = 2 ^ p * oneUnits

theorem isScale_f32768 : IsScale f32768 15 :=
  ⟨by decide, by decide +kernel, by decide +kernel, by decide +kernel, by decide +kernel⟩

theorem isScale_fTwo31 : IsScale fTwo31 31 :=
  ⟨by decide, by decide +kernel, by decide +kernel, by decide +kernel, by decide +kernel⟩

theorem oneUnits_split {p : Nat} (hp : p ≤ 31) : 2 ^ (1074 - p) * 2 ^ p = oneUnits := by
  rw [← pow_add, Nat.sub_add_cancel (by omega), oneUnits]

/-- An integer over a power of two is exact (43_codec.md R185). -/
theorem fdiv_scale {n : Int} (hn : n.natAbs ≤ 2 ^ 53) {c : F64} {p : Nat} (hc : IsScale c p) :
    isFinite (fdiv (f64 n) c) = true ∧ fsign (fdiv (f64 n) c) = decide (n < 0) ∧
      funits (fdiv (f64 n) c) = n.natAbs * 2 ^ (1074 - p) := by
  have hp := hc.small
  obtain ⟨f1, f2, f3⟩ := f64_parts hn
  have d : fdiv (f64 n) c =
      round64 (decide (n < 0)) (n.natAbs * 2 ^ (1074 - p) * funits c) (funits c) := by
    have : funits (f64 n) * oneUnits = n.natAbs * 2 ^ (1074 - p) * funits c := by
      rw [f3, hc.units, ← mul_assoc, mul_assoc n.natAbs (2 ^ _), oneUnits_split hp]
    rw [fdiv]
    simp only [isNaN_of_isFinite f1, isNaN_of_isFinite hc.finite, isInf_of_isFinite f1,
      isInf_of_isFinite hc.finite, hc.nonzero, Bool.or_self, Bool.false_eq_true, if_false]
    rw [this, f2, hc.sign]
    simp
  obtain ⟨k, h1, h2⟩ : ∃ k, k ≤ infMag ∧ magUnits 52 k = n.natAbs * 2 ^ (1074 - p) :=
    exists_magUnits_int hn (by omega)
  have u : funits (fdiv (f64 n) c) = n.natAbs * 2 ^ (1074 - p) := by
    rw [d, funits, fmag_round64, ← h2, roundMag_exact (funits_pos hc.nonzero) h1]
  exact ⟨isFinite_of_funits (by rw [d]; simp) u hn (by omega), by rw [d]; simp, u⟩

/-- Multiplying by the power of two gives the integer back (43_codec.md R191). -/
theorem fmul_fdiv_scale {n : Int} (hn : n.natAbs ≤ 2 ^ 53) {c : F64} {p : Nat} (hc : IsScale c p) :
    fmul (fdiv (f64 n) c) c = f64 n := by
  obtain ⟨f1, f2, f3⟩ := f64_parts hn
  obtain ⟨g1, g2, g3⟩ := fdiv_scale hn hc
  have : n.natAbs * 2 ^ (1074 - p) * (2 ^ p * oneUnits) = n.natAbs * oneUnits * oneUnits := by
    rw [← mul_assoc, mul_assoc n.natAbs (2 ^ _), oneUnits_split hc.small]
  have e := round64_exact (isNaN_of_isFinite f1) oneUnits_pos
  rw [fmul]
  simp only [isNaN_of_isFinite g1, isNaN_of_isFinite hc.finite, isInf_of_isFinite g1,
    isInf_of_isFinite hc.finite, Bool.or_self, Bool.false_eq_true, if_false]
  rw [g2, g3, hc.sign, hc.units, this, ← f3]
  rw [f2] at e
  simpa using e

/-- `toint` of an integer inside its range is the integer. -/
theorem toint_f64 {n lo hi : Int} (hn : n.natAbs ≤ 2 ^ 53) (h1 : lo ≤ n) (h2 : n ≤ hi) :
    toint (f64 n) lo hi = n := by
  obtain ⟨f1, f2, f3⟩ := f64_parts hn
  have e : fint (frint (f64 n)) = n := by
    rw [fint_frint f1, f2, f3, rneDiv_mul _ _ oneUnits_pos]
    clear f1 f2 f3
    by_cases h : n < 0
    · simp only [h, decide_true, if_true]; omega
    · simp only [h, decide_false, Bool.false_eq_true, if_false]; omega
  simp only [toint, isNaN_of_isFinite f1, isInf_of_isFinite f1, Bool.false_eq_true, if_false, e]
  clear f1 f2 f3 e
  split
  · omega
  · split <;> omega

/-- The pattern of the signed value of a raw sample is the sample, and the value is in range. -/
theorem bitsOf_sextBits {k u : Nat} (hk : 0 < k) (hu : u < 2 ^ k) : bitsOf k (sextBits k u) = u ∧
    -(2 ^ (k - 1) : Int) ≤ sextBits k u ∧ sextBits k u ≤ 2 ^ (k - 1) - 1 := by
  obtain ⟨k, rfl⟩ : ∃ j, k = j + 1 := ⟨k - 1, by omega⟩
  have e : (2 : Nat) ^ (k + 1) = 2 * 2 ^ k := by ring
  have c : (2 : Int) ^ k = ((2 ^ k : Nat) : Int) := by push_cast; rfl
  simp only [Nat.add_sub_cancel, bitsOf, sextBits]
  rw [pow_succ (2 : Int), c]
  rw [e] at hu
  generalize 2 ^ k = P at *
  split <;> refine ⟨?_, by omega, by omega⟩
  · rw [Int.emod_eq_of_lt] <;> omega
  · rw [Int.sub_emod_right, Int.emod_eq_of_lt] <;> omega

end Sys2Proof.Machine
end

