-- ==== Sys2Proof/Machine/Sequences.lean ====
section
/-!
DEFINITION. The host's side of the three operations of the source, outside the block
(45_sequences.md): the integers the host computes and the scripts it runs. No step uses them; a claim
about `shift`, `decode` or `encode` is a claim about the block with one of these as `State.script`
(log entry 19).
-/

namespace Sys2Proof.Machine

/-! ## Scalars the host computes -/

/-- The largest `x` with `x^12 ≤ n` that agrees with `r` above bit `k` and has zeros below it, bit by
bit. -/
def root12Bits (n : Nat) : Nat → Nat → Nat
  | 0, r => r
  | k + 1, r => root12Bits n k (if (r + 2 ^ k) ^ 12 ≤ n then r + 2 ^ k else r)

/-- The integer nearest to `2^(52 + r/12)`, for `r < 12`; no such root lies half-way. -/
def octaveStep (r : Nat) : Nat :=
  let m := root12Bits (2 ^ (624 + r)) 54 0
  if (2 * m + 1) ^ 12 ≤ 2 ^ (636 + r) then m + 1 else m

/-- `scale = 2^(steps/12)`, the nearest binary64 value (45_sequences.md R221). -/
def hostScale (steps : Int) : F64 :=
  let m := octaveStep (steps % 12).toNat
  let q := steps / 12
  if 0 ≤ q then round64 false (m * 2 ^ 1022 * 2 ^ q.toNat) 1
  else round64 false (m * 2 ^ 1022) (2 ^ (-q).toNat)

/-- `round` of a finite non-negative value: to nearest, halves away from zero (45_sequences.md R221). -/
def hostRound (v : F64) : Nat := (2 * funits v + oneUnits) / (2 * oneUnits)

/-- `Hs = round(Ha · scale)` (45_sequences.md R221). -/
def hostHop (ha : Nat) (steps : Int) : Nat := hostRound (fmul (f64 ha) (hostScale steps))

/-- `ceildiv(a, b)` (45_sequences.md). -/
def ceilDiv (a b : Nat) : Nat := (a + b - 1) / b

/-- What the host computes for one `shift` (45_sequences.md R222 to R224). -/
structure ShiftPlan where
  /-- `P`: zeros before and after the samples of a channel -/
  pad : Nat
  /-- `Lp`: the padded length -/
  padded : Nat
  /-- `F`: the number of frames -/
  frames : Nat
  /-- `OL`: the length of the output buffer -/
  outLen : Nat
  /-- `S`: the scaled padding stripped from each end -/
  strip : Nat
  /-- `U`: the unpadded length; not positive where the operation is not defined -/
  unpadded : Int
deriving DecidableEq, Repr

/-- The plan for `n0` samples, frame size `n`, overlap factor `v` and hops `ha`, `hs`. -/
def shiftPlan (n0 n v ha hs : Nat) : ShiftPlan :=
  let pad := ha * (v - 1)
  let padded := ceilDiv (n0 + 2 * pad) ha * ha
  let frames := if padded < n then 0 else (padded - n) / ha + 1
  let outLen := if frames = 0 then 0 else (frames - 1) * hs + n
  let strip := hs * (v - 1)
  ⟨pad, padded, frames, outLen, strip, (outLen : Int) - 2 * strip⟩

/-! ## Scripts -/

/-- `wr NAME, v` for a natural number. -/
def scriptWrNat (r : RegName) (v : Nat) : List HostStep := scriptWrReg r.number (BitVec.ofNat 64 v)

/-- `rd NAME`. -/
def scriptRdName (r : RegName) : List HostStep := scriptRdReg r.number

/-- `run C` for a command. -/
def scriptRunCmd (i : Instr) : List HostStep := scriptRun (encode i)

/-- The construction of the pitch shifter (45_sequences.md R225). -/
def constructScript (n v : Nat) : List HostStep :=
  scriptWrNat .fsize n ++ scriptWrNat .ovl v ++ scriptRunCmd .pvcfg ++ scriptRdName .status ++
    scriptRdName .ha

/-- The constants of one invocation (45_sequences.md R225): scratch regions at `ib` and `ob`. -/
def invocationScript (p : ShiftPlan) (hs ib ob : Nat) : List HostStep :=
  scriptWrNat .hs hs ++ scriptWrNat .ilen p.padded ++ scriptWrNat .olen p.outLen ++
    scriptWrNat .ibase ib ++ scriptWrNat .obase ob

/-- One frame (45_sequences.md R225). -/
def frameScript (i : Nat) : List HostStep :=
  scriptRunCmd (.framew i) ++ scriptRunCmd .fft ++ scriptRunCmd .phase ++ scriptRunCmd .ifft ++
    scriptRunCmd (.ola i)

/-- One channel, whose buffer of `n0` samples is at `a` in RM (45_sequences.md R225); `v t` is what the
host's read of sample `t` gave. Where the unpadded length is not positive no `RESAMP` is issued
(R224). -/
def channelScript (p : ShiftPlan) (n0 ib ob a : Nat) (v : Nat → F64) : List HostStep :=
  scriptFill 6 ib fZero p.pad ++
    (List.range n0).flatMap (fun t =>
      .read (wordAddr 6 (a + t)) :: scriptWrWord 6 (ib + p.pad + t) (v t)) ++
    scriptFill 6 (ib + p.pad + n0) fZero (p.padded - (p.pad + n0)) ++
    scriptFill 6 ob fZero p.outLen ++ scriptRunCmd .phrst ++
    (List.range p.frames).flatMap frameScript ++
    if p.unpadded ≤ 0 then []
    else scriptWrNat .rsbase (ob + p.strip) ++ scriptWrNat .rslen p.unpadded.toNat ++
      scriptWrNat .rdbase a ++ scriptWrNat .rdlen n0 ++ scriptRunCmd .resamp

/-- The eight bytes from offset `o` of a file as one word of the port, beyond its end zeros
(45_sequences.md R228: "the last group padded with anything"). -/
def fileGroup (f : List Byte) (o : Nat) : BitVec 64 :=
  BitVec.ofNat 64 ((List.range 8).foldr (fun j acc => (f.getD (o + j) 0).toNat + 256 * acc) 0)

/-- `decode` up to the header (45_sequences.md R228): the file into BM, then `WAVHDR`. -/
def decodeHeaderScript (f : List Byte) : List HostStep :=
  (List.range (ceilDiv f.length 8)).flatMap (fun g => scriptWrWord 7 g (fileGroup f (8 * g))) ++
    scriptWrNat .blen f.length ++ scriptRunCmd .wavhdr ++ scriptRdName .status ++ scriptRdName .nch ++
    scriptRdName .nsamp

/-- The rest of `decode`, with the places the host chose for the channel buffers (45_sequences.md
R228). -/
def decodeSamplesScript (chbase chstride : Nat) : List HostStep :=
  scriptWrNat .chbase chbase ++ scriptWrNat .chstride chstride ++ scriptRunCmd .pcmdec ++
    scriptRdName .status

/-- A whole `shift` (45_sequences.md R225): construction, then one channel after the other; `a c` is the
base of channel `c` and `v c t` its sample `t` as the host reads it. -/
def shiftScript (n0 n ovl ha hs nch ib ob : Nat) (a : Nat → Nat) (v : Nat → Nat → F64) :
    List HostStep :=
  let p := shiftPlan n0 n ovl ha hs
  constructScript n ovl ++ invocationScript p hs ib ob ++
    (List.range nch).flatMap (fun c => channelScript p n0 ib ob (a c) (v c))

/-- `encode` without the optional change of depth, and the read-back of a file of `len` bytes
(45_sequences.md R229). -/
def encodeScript (len : Nat) : List HostStep :=
  scriptRunCmd .wavhdrw ++ scriptRdName .status ++ scriptRunCmd .pcmenc ++ scriptRdName .status ++
    scriptRdName .blen ++ (List.range (ceilDiv len 8)).map (fun g => .read (wordAddr 7 g))

end Sys2Proof.Machine
end

