-- ==== Sys2Proof/Tests/Slice0.lean ====
section
/-!
SUPPORT. Tests. Expected results come from spec/95_test_vectors.md (the vector is named in each
docstring) or from the rule named. The last section shows, for every obligation with hypotheses, a
concrete state and operands that meet them.
-/

namespace Sys2Proof.Tests

open Sys2Proof.Machine

/-! ## Well-formedness: one ill-formed term per check -/

/-- The stage index has five bits (30_encoding.md R92). -/
theorem test_wf_stage : (Instr.stage 31 true).wellFormed = true ∧
    (Instr.stage 32 false).wellFormed = false := by decide

/-- The length of `NPOW2` has 24 bits (30_encoding.md R91). -/
theorem test_wf_npow2 : (Instr.npow2 (2 ^ 24 - 1)).wellFormed = true ∧
    (Instr.npow2 (2 ^ 24)).wellFormed = false := by decide

/-- The frame index of `FRAMEW` has 24 bits (30_encoding.md R91). -/
theorem test_wf_framew : (Instr.framew (2 ^ 24 - 1)).wellFormed = true ∧
    (Instr.framew (2 ^ 24)).wellFormed = false := by decide

/-- The frame index of `OLA` has 24 bits (30_encoding.md R91). -/
theorem test_wf_ola : (Instr.ola (2 ^ 24 - 1)).wellFormed = true ∧
    (Instr.ola (2 ^ 24)).wellFormed = false := by decide

/-! ## Decoding: a word for every constructor, written out from 30_encoding.md R90 to R94 -/

theorem test_decode_nop : decode 0x00000000#32 = .command .nop := by decide
theorem test_decode_cmul : decode 0x10000000#32 = .command .cmul := by decide
theorem test_decode_bfly : decode 0x11000000#32 = .command .bfly := by decide
theorem test_decode_bitrev : decode 0x12000000#32 = .command .bitrev := by decide
/-- opcode 0001 0011, bits 23:9 zero, INV 1, bits 7:5 zero, s 10110 -/
theorem test_decode_stage :
    decode 0b00010011000000000000000100010110#32 = .command (.stage 22 true) := by decide
theorem test_decode_xscale : decode 0x14000000#32 = .command .xscale := by decide
theorem test_decode_fft : decode 0x15000000#32 = .command .fft := by decide
theorem test_decode_ifft : decode 0x16000000#32 = .command .ifft := by decide
/-- opcode 0001 0111, imm24 1000 0000 0000 0000 0000 0001 -/
theorem test_decode_npow2 :
    decode 0b00010111100000000000000000000001#32 = .command (.npow2 8388609) := by decide
theorem test_decode_pvcfg : decode 0x20000000#32 = .command .pvcfg := by decide
theorem test_decode_phrst : decode 0x21000000#32 = .command .phrst := by decide
theorem test_decode_framew : decode 0x22FFFFFF#32 = .command (.framew 16777215) := by decide
theorem test_decode_phase : decode 0x23000000#32 = .command .phase := by decide
theorem test_decode_ola : decode 0x24000102#32 = .command (.ola 258) := by decide
theorem test_decode_resamp : decode 0x25000000#32 = .command .resamp := by decide
theorem test_decode_wavhdr : decode 0x30000000#32 = .command .wavhdr := by decide
theorem test_decode_pcmdec : decode 0x31000000#32 = .command .pcmdec := by decide
theorem test_decode_wavhdrw : decode 0x32000000#32 = .command .wavhdrw := by decide
theorem test_decode_pcmenc : decode 0x33000000#32 = .command .pcmenc := by decide

/-- Words 30_encoding.md R95 calls illegal: a gap in the map, a set must-be-zero bit. -/
theorem test_decode_illegal : decode 0x34000000#32 = .illegal .unassignedOpcode ∧
    decode 0xFF000000#32 = .illegal .unassignedOpcode ∧
    decode 0x00000001#32 = .illegal .nonZeroReserved ∧
    decode 0x13000080#32 = .illegal .nonZeroReserved ∧
    decode 0x13000200#32 = .illegal .nonZeroReserved := by decide

/-! ## Numeric primitives -/

/-- V-N1: WRAP of PI, −3.5, −1000000 and ∞. -/
theorem test_wrap : wrap 0x400921FB54442D18#64 = 0xC00921FB54442D18#64 ∧
    wrap 0xC00C000000000000#64 = 0x400643F6A8885A30#64 ∧
    wrap 0xC12E848000000000#64 = 0x3FD6E254D0E00000#64 ∧
    wrap 0x7FF0000000000000#64 = canonNaN := by decide +kernel

/-- V-N3: ties to even, saturation, NaN, and rounding to binary32 at its midpoints. -/
theorem test_conversions : toint 0x4004000000000000#64 (-32768) 32767 = 2 ∧
    toint 0xBFF8000000000000#64 (-32768) 32767 = -2 ∧
    toint 0xFFF0000000000000#64 (-32768) 32767 = -32768 ∧ toint canonNaN 0 255 = 0 ∧
    f64to32 0x47EFFFFFF0000000#64 = 0x7F800000#32 ∧
    f64to32 0x36A8000000000000#64 = 0x00000002#32 ∧
    f32to64 0x00000001#32 = 0x36A0000000000000#64 ∧
    f32to64 0x7F800001#32 = canonNaN := by decide +kernel

/-- V-P1c and V-P1e: AGAIN for the overlap factors 1 and 3. -/
theorem test_gain : analysisGain 1 = 0x3FF6A09E667F3BCC#64 ∧
    analysisGain 3 = 0x3FEA20BD700C2C3F#64 := by decide +kernel

/-! ## Commands -/

/-- The state a command leaves, or the state itself where the machine stops. -/
def after (i : Instr) (s : State) : State :=
  match exec i s with
  | .next t => t
  | .fault _ => s
  | .refused _ => s

/-- The reset state with other registers. -/
def withRegs (g : Regs) : State := { State.reset with regs := g }

/-- The reset state with the given bytes in BM from offset 0. -/
def withBytes (l : List Byte) (g : Regs) : State :=
  { withRegs g with bm := Memory.splice [] 0 l.length (fun i => l.getD i 0) }

/-- A bank with the given real and imaginary parts. -/
def bankOf (re im : List F64) : Bank :=
  ⟨Memory.splice [] 0 re.length (fun i => re.getD i 0),
    Memory.splice [] 0 im.length (fun i => im.getD i 0)⟩

/-- 44_system.md R210: the slot is emptied. -/
theorem test_nop : (after .nop (State.reset.withPending 0)).pending = none := by decide

/-- V-T1. -/
theorem test_cmul : (after .cmul (withRegs { Regs.zero with
    ca := ⟨0x3FF0000000000000#64, 0x4000000000000000#64⟩
    cb := ⟨0x4008000000000000#64, 0x4010000000000000#64⟩ })).regs.cp =
    ⟨0xC014000000000000#64, 0x4024000000000000#64⟩ := by decide +kernel

/-- V-N2: the row with an infinity. -/
theorem test_cmul_infinity : (after .cmul (withRegs { Regs.zero with
    ca := ⟨0x7FF0000000000000#64, 0#64⟩
    cb := ⟨0#64, 0x3FF0000000000000#64⟩ })).regs.cp =
    ⟨0x7FF8000000000000#64, 0x7FF0000000000000#64⟩ := by decide +kernel

/-- V-T2, its second case. -/
theorem test_bfly :
    let g := (after .bfly (withRegs { Regs.zero with
      ca := ⟨0x3FF8000000000000#64, 0xC000000000000000#64⟩
      cb := ⟨0x3FE0000000000000#64, 0x3FD0000000000000#64⟩
      cw := ⟨0x3FE6A09E667F3BCD#64, 0xBFE6A09E667F3BCD#64⟩ })).regs
    g.cp = ⟨0x40003E1DB337DB36#64, 0xC0016A09E667F3BD#64⟩ ∧
    g.cq = ⟨0x3FEF078933209326#64, 0xBFFD2BEC33301886#64⟩ := by decide +kernel

/-- The start of V-T3: L = 2, X0 = [1, 2, 3, 4]. -/
def fourPoints : State :=
  { withRegs { Regs.zero with log2n := 2 } with
    x0 := bankOf [0x3FF0000000000000#64, 0x4000000000000000#64, 0x4008000000000000#64,
      0x4010000000000000#64] [] }

/-- V-T3, row `BITREV`; entry 1 of X1 is 3. -/
theorem test_bitrev :
    (after .bitrev fourPoints).x1.get 1 = ⟨0x4008000000000000#64, 0#64⟩ ∧
    (after .bitrev fourPoints).xsel = true := by decide +kernel

/-- V-T8: entry 3 set, the forward and the inverse direction. -/
theorem test_stage :
    let s : State := { withRegs { Regs.zero with log2n := 2 } with
      x0 := bankOf [0, 0, 0, 0x3FF0000000000000#64] [] }
    (after (.stage 1 false) s).x1.get 1 = ⟨0#64, 0xBFF0000000000000#64⟩ ∧
    (after (.stage 1 true) s).x1.get 3 = ⟨0#64, 0xBFF0000000000000#64⟩ := by decide +kernel

/-- V-T11: E_OPERAND for a stage index that is too large, E_CONFIG before it. -/
theorem test_stage_faults :
    (after (.stage 2 false) (withRegs { Regs.zero with log2n := 2 })).errCode = 0x02#8 ∧
    (after (.stage 20 false) (withRegs { Regs.zero with log2n := 13 })).errCode = 0x03#8 := by
  decide

/-- V-T3, row `XSCALE`: 16 over 4. -/
theorem test_xscale :
    let s : State := { withRegs { Regs.zero with log2n := 2 } with
      x0 := bankOf [0, 0, 0, 0x4030000000000000#64] [] }
    (after .xscale s).x1.get 3 = ⟨0x4010000000000000#64, 0#64⟩ := by decide +kernel

/-- V-T3, the first three rows: the transform of [1, 2, 3, 4]. -/
theorem test_fft :
    let t := after .fft fourPoints
    t.xsel = true ∧ t.x1.get 0 = ⟨0x4024000000000000#64, 0#64⟩ ∧
    t.x1.get 1 = ⟨0xC000000000000000#64, 0x4000000000000000#64⟩ ∧
    t.x1.get 3 = ⟨0xC000000000000000#64, 0xC000000000000000#64⟩ := by decide +kernel

/-- V-T3, the last four rows: back to [1, 2, 3, 4]. -/
theorem test_ifft :
    let s : State := { withRegs { Regs.zero with log2n := 2 } with
      x0 := bankOf [0x4024000000000000#64, 0xC000000000000000#64, 0xC000000000000000#64,
        0xC000000000000000#64] [0, 0x4000000000000000#64, 0, 0xC000000000000000#64] }
    (after .ifft s).xsel = false ∧
    (after .ifft s).x0.get 1 = ⟨0x4000000000000000#64, 0#64⟩ ∧
    (after .ifft s).x0.get 3 = ⟨0x4010000000000000#64, 0#64⟩ := by decide +kernel

/-- V-T10: rows 1000 and 16777215. -/
theorem test_npow2 :
    ((after (.npow2 1000) State.reset).regs.padlog2 = 10 ∧
      (after (.npow2 1000) State.reset).regs.padamt = 24) ∧
    ((after (.npow2 16777215) State.reset).regs.padlog2 = 24 ∧
      (after (.npow2 16777215) State.reset).regs.padamt = 1) := by decide +kernel

/-- V-P1e: FSIZE = 8, OVL = 3, and the two end weights of that window. -/
theorem test_pvcfg :
    let t := after .pvcfg (withRegs { Regs.zero with fsize := 8, ovl := 3 })
    t.cfgv = true ∧ t.regs.log2n = 3 ∧ t.regs.ha = 2 ∧ t.regs.again = 0x3FEA20BD700C2C3F#64 ∧
    windowWeight 0 8 = 0 ∧ windowWeight 7 8 = 0 := by decide +kernel

/-- V-P1k and V-P1i: a negative overlap factor, a frame no longer than the factor. -/
theorem test_pvcfg_faults :
    (after .pvcfg (withRegs { Regs.zero with fsize := 4, ovl := 0xFFFFFFFF })).errCode = 0x03#8 ∧
    (after .pvcfg (withRegs { Regs.zero with fsize := 4, ovl := 4 })).errCode = 0x03#8 := by
  decide +kernel

/-- V-P1o: every entry up to 4095. -/
theorem test_phrst :
    let s : State := { State.reset with pv := [(3, 1)], cu := [(4095, 1)] }
    (after .phrst s).pv.get 3 = 0 ∧ (after .phrst s).cu.get 4095 = 0 := by
  intro s
  constructor
  · show (s.pv.splice 0 s.nmax _).get 3 = 0
    rw [Memory.get_splice, if_pos (by decide)]; rfl
  · show (s.cu.splice 0 s.nmax _).get 4095 = 0
    rw [Memory.get_splice, if_pos (by decide)]; rfl

/-- The window of V-P1a with its phase state clear. -/
def configured : State :=
  { withRegs { Regs.zero with
      log2n := 2
      ha := 2
      again := 0x3FF0000000000000#64
      ilen := 8
      hs := 2
      obase := 100
      olen := 5 } with
    cfgv := true
    wm := [(1, 0x3FE8000000000000#64), (2, 0x3FE8000000000000#64)] }

/-- V-P3, `FRAMEW 1` on RM = [1 .. 8]: entry 2 is 3.75; and the first frame that does not fit. -/
theorem test_framew :
    let s : State := { configured with
      rm := [(2, 0x4008000000000000#64), (3, 0x4010000000000000#64), (4, 0x4014000000000000#64)] }
    (after (.framew 1) s).x1.get 2 = ⟨0x400E000000000000#64, 0#64⟩ ∧
    (after (.framew 3) s).errCode = 0x04#8 := by decide +kernel

/-- V-P4: zero bins with HS = 0; the angles of R130 in PV, CU unchanged. -/
theorem test_phase :
    let s : State := { configured with
      regs := { configured.regs with hs := 0 }
      cu := [(1, 0x3FF0000000000000#64)]
      x0 := bankOf [0, 0x8000000000000000#64, 0, 0x8000000000000000#64]
        [0, 0, 0x8000000000000000#64, 0x8000000000000000#64] }
    let t := after .phase s
    t.pv.get 1 = 0x400921FB54442D18#64 ∧ t.pv.get 3 = 0xC00921FB54442D18#64 ∧
    t.cu.get 1 = 0x3FF0000000000000#64 ∧ t.cu.get 3 = 0 := by decide +kernel

/-- V-P5, `OLA 1` after `OLA 0`: words 103 and 104 are summed, word 105 lies outside. -/
theorem test_ola :
    let s : State := { configured with
      rm := [(103, 0x4024000000000000#64), (104, 0x4024000000000000#64),
        (105, 0x4024000000000000#64)]
      x0 := bankOf [0x3FF0000000000000#64, 0x4000000000000000#64, 0x4010000000000000#64,
        0x4020000000000000#64] [] }
    let t := after (.ola 1) s
    t.rm.get 103 = 0x4027000000000000#64 ∧ t.rm.get 104 = 0x402A000000000000#64 ∧
    t.rm.get 105 = 0x4024000000000000#64 := by decide +kernel

/-- V-P6: the source [0, 10, 20, 30] at RSBASE = 0, the destination at 10. -/
def resampler (dl : BitVec 32) : State :=
  { withRegs { Regs.zero with rslen := 4, rdbase := 10, rdlen := dl } with
    rm := [(1, 0x4024000000000000#64), (2, 0x4034000000000000#64), (3, 0x403E000000000000#64)] }

/-- V-P6: row RDLEN = 8 at the end of the source, row RDLEN = 3. -/
theorem test_resamp :
    (after .resamp (resampler 8)).rm.get 15 = 0x4039000000000000#64 ∧
    (after .resamp (resampler 8)).rm.get 17 = 0x403E000000000000#64 ∧
    (after .resamp (resampler 3)).rm.get 12 = 0x403AAAAAAAAAAAAA#64 := by decide +kernel

/-- The file of V-C1. -/
def fileC1 : List Byte :=
  [0x52, 0x49, 0x46, 0x46, 0x28, 0x00, 0x00, 0x00, 0x57, 0x41, 0x56, 0x45, 0x66, 0x6D, 0x74, 0x20,
   0x10, 0x00, 0x00, 0x00, 0x01, 0x00, 0x01, 0x00, 0x44, 0xAC, 0x00, 0x00, 0x44, 0xAC, 0x00, 0x00,
   0x01, 0x00, 0x08, 0x00, 0x64, 0x61, 0x74, 0x61, 0x04, 0x00, 0x00, 0x00, 0xFF, 0xFF, 0xFF, 0xFF]

/-- The file of V-C4: the first "data" stands inside another sub-chunk. -/
def fileC4 : List Byte :=
  [0x52, 0x49, 0x46, 0x46, 0x26, 0x00, 0x00, 0x00, 0x57, 0x41, 0x56, 0x45, 0x66, 0x6D, 0x74, 0x20,
   0x10, 0x00, 0x00, 0x00, 0xFE, 0xFF, 0x01, 0x00, 0x40, 0x1F, 0x00, 0x00, 0x80, 0x3E, 0x00, 0x00,
   0x02, 0x00, 0x10, 0x00, 0x00, 0x00, 0x4A, 0x55, 0x4E, 0x4B, 0x0C, 0x00, 0x00, 0x00, 0x78, 0x64,
   0x61, 0x74, 0x61, 0x00, 0x00, 0x00, 0x00, 0x79, 0x79, 0x79, 0x64, 0x61, 0x74, 0x61, 0x02, 0x00,
   0x00, 0x00, 0x34, 0x12]

/-- V-C1: the registers `WAVHDR` writes. -/
theorem test_wavhdr :
    let g := (after .wavhdr (withBytes fileC1 { Regs.zero with blen := 48 })).regs
    g.afmt = 1 ∧ g.nch = 1 ∧ g.srate = 44100 ∧ g.bps = 8 ∧ g.nsamp = 4 ∧ g.datasize = 4 ∧
    g.dataoff = 44 ∧ g.riffsz = 40 ∧ g.fmtsz = 16 ∧ g.byterate = 44100 ∧ g.balign = 1 := by
  decide +kernel

/-- V-C4: the scan; and V-C6: BLEN = 47 is too short. -/
theorem test_wavhdr_scan :
    (after .wavhdr (withBytes fileC4 { Regs.zero with blen := 68 })).regs.dataoff = 55 ∧
    (after .wavhdr (withBytes fileC1 { Regs.zero with blen := 47 })).errCode = 0x17#8 := by
  decide +kernel

/-- V-C1: 0xFF decodes to 1.0. -/
theorem test_pcmdec :
    let s := withBytes fileC1 { Regs.zero with
      blen := 48
      afmt := 1
      nch := 1
      bps := 8
      nsamp := 4
      dataoff := 44 }
    (after .pcmdec s).rm.get 3 = 0x3FF0000000000000#64 := by decide +kernel

/-- V-C2: 16-bit stereo, the second instant of both channels. -/
theorem test_pcmdec_stereo :
    let s : State := { withRegs { Regs.zero with
        blen := 12
        afmt := 1
        nch := 2
        bps := 16
        nsamp := 3
        chbase := 10
        chstride := 8 } with
      bm := [(0, 0x01), (2, 0xFF), (3, 0xFF), (4, 0xFF), (5, 0x7F), (7, 0x80), (9, 0x40), (11, 0xC0)] }
    (after .pcmdec s).rm.get 11 = 0x3FEFFFC000000000#64 ∧
    (after .pcmdec s).rm.get 19 = 0xBFF0000000000000#64 := by decide +kernel

/-- V-C1: the header `WAVHDRW` writes is the first 44 bytes of the file. -/
theorem test_wavhdrw :
    let t := after .wavhdrw (withRegs { Regs.zero with
      afmt := 1
      nch := 1
      srate := 44100
      bps := 8
      nsamp := 4 })
    (∀ i, i < 44 → t.bm.get i = fileC1.getD i 0) ∧ t.regs.blen = 44 ∧ t.regs.riffsz = 40 := by
  decide +kernel

/-- V-C7: BlockAlign of 2^16 and more. -/
theorem test_wavhdrw_range :
    (after .wavhdrw (withRegs { Regs.zero with afmt := 1, nch := 65535, bps := 32 })).errCode
      = 0x04#8 := by decide

/-- V-C2: the codes 0x7FFF and 0x8000 at their interleaved places. -/
theorem test_pcmenc :
    let s : State := { withRegs { Regs.zero with
        afmt := 1
        nch := 2
        bps := 16
        nsamp := 3
        dataoff := 44
        chbase := 10
        chstride := 8 } with
      rm := [(11, 0x3FEFFFC000000000#64), (19, 0xBFF0000000000000#64)] }
    let t := after .pcmenc s
    t.bm.readLE 48 2 = 0x7FFF ∧ t.bm.readLE 50 2 = 0x8000 ∧ t.regs.blen = 56 := by decide +kernel

/-! ## Steps, port and reset -/

/-- A command delivered through the port: CMD is written, then the ENGINE performs it. -/
theorem test_command_through_port :
    let s : State := { State.reset with script := scriptCmd 0x170003E8#32 }
    ∃ t u, step s = .next t ∧ step t = .next u ∧ t.pending = some 0x170003E8#32 ∧
      u.pending = none ∧ u.regs.padlog2 = 10 := by
  exact ⟨_, _, rfl, rfl, by decide +kernel⟩

/-- V-T11: STATUS = 0x0302 after a configuration fault, and SRESET clears it. -/
theorem test_status_after_fault :
    let t := after .fft ((withRegs { Regs.zero with log2n := 13 }).withPending 0x15000000)
    t.portRead (regAddr 0x01) = .data 0x0302 ∧ t.portRead (regAddr 0x02) = .data 0x15000000 ∧
    (t.portWrite (regAddr 0x03) 1).1.portRead (regAddr 0x01) = .data 0 := by decide +kernel

/-- 20_memory.md R72: misaligned, beyond the register file, read-only, and CMD in the error state. -/
theorem test_refusals :
    State.reset.portRead 0x00000004#32 = .refused ∧
    State.reset.portRead (regAddr 0x2C) = .refused ∧
    State.reset.portRead (regAddr 0x2B) = .data 0 ∧
    (State.reset.portWrite (regAddr 0x2B) 1).2 = .refused ∧
    (State.portWrite { State.reset with err := true } (regAddr 0x00) 0).2 = .refused := by
  decide +kernel

/-! ## The host's sequences -/

/-- 45_sequences.md R221: the hops of its examples, and the scale of one semitone. -/
theorem test_host_hops : hostScale 12 = fTwo ∧ hostScale (-12) = fHalf ∧
    hostScale 1 = 0x3FF0F38F92D97963#64 ∧
    [12, -12, 0, 1, 7, -5].map (hostHop 1024) = [2048, 512, 1024, 1085, 1534, 767] ∧
    hostHop 3 (-12) = 2 := by decide +kernel

/-- 45_sequences.md R222 to R224: the worked example. -/
theorem test_host_plan : shiftPlan 44100 4096 4 1024 1024 = ⟨3072, 51200, 47, 51200, 3072, 45056⟩ ∧
    (shiftPlan 44100 4096 4 1024 2048).outLen = 98304 ∧
    (shiftPlan 44100 4096 4 1024 512).outLen = 27648 := by decide +kernel

/-- 45_sequences.md R228: the first eight bytes of a file as a word of the port. -/
theorem test_host_file_group : fileGroup [0x52, 0x49, 0x46, 0x46, 0x24, 0, 0, 0] 0 =
    0x0000002446464952#64 := by decide +kernel

/-! ## Hypotheses that can be met

For every obligation with hypotheses, a state and operands that meet them, at the ends of the ranges
where a range is named. -/

theorem witness_DecodeOfEncode : (Instr.stage 31 true).wellFormed = true ∧
    (Instr.npow2 16777215).wellFormed = true ∧ Instr.nop.wellFormed = true := by decide

theorem witness_EncodeOfDecode : decode 0x1300011F#32 = .command (.stage 31 true) ∧
    decode 0x24FFFFFF#32 = .command (.ola 16777215) := by decide

theorem witness_DecodeFollowsOpcodeMap :
    (∃ r ∈ opcodeMap, r.Selects 0x1300011F#32) ∧ (∃ r ∈ opcodeMap, r.Selects 0x17FFFFFF#32) ∧
    (∃ i, decode 0x1300011F#32 = .command i) := by
  exact ⟨by decide, by decide, _, rfl⟩

theorem witness_StepRunsPendingCommand :
    let s := State.reset.withPending 0x10000000
    let u : State := { s with sched := [.host] }
    (s.pending = some 0x10000000#32 ∧ decode 0x10000000#32 = .command .cmul ∧
      s.sched.head? ≠ some .host) ∧ u.pending = some 0x10000000#32 ∧ u.script = [] := by decide

theorem witness_StepFaultsOnIllegalWord :
    (∃ why, decode 0x01000000#32 = .illegal why) ∧ State.reset.pending = none ∧
    State.reset.err = false ∧ (0x01000000#64).setWidth 32 = 0x01000000#32 ∧
    (State.reset.withPending 0x01000000).pending = some 0x01000000#32 ∧
    (State.reset.withPending 0x01000000).sched.head? ≠ some .host :=
  ⟨⟨_, rfl⟩, rfl, rfl, by decide, rfl, by decide⟩

/-- A script of one step that is the HOST's turn while a command is pending. -/
def hostTurn (a : HostStep) : State :=
  { State.reset with
    pending := some 0
    script := [a]
    sched := [.host] }

theorem witness_StepPerformsHostAccess :
    (State.reset.pending = none ∧ State.reset.script = []) ∧
    (∀ a, (hostTurn a).sched.head? = some .host) ∧
    (∃ a rest, (hostTurn (.read 8)).script = .read a :: rest) ∧
    (∃ a d rest, (hostTurn (.write 0x18 1)).script = .write a d :: rest) ∧
    (∃ rest, (hostTurn .wait).script = .wait :: rest) ∧
    (∃ rest, (hostTurn .resetInput).script = .resetInput :: rest) :=
  ⟨⟨rfl, rfl⟩, fun _ => rfl, ⟨_, _, rfl⟩, ⟨_, _, _, rfl⟩, ⟨_, rfl⟩, ⟨_, rfl⟩⟩

theorem witness_PendingCommandEnds : (hostTurn (.read 8)).pending = some 0 := rfl

theorem witness_CommandFaultsArePrecise :
    (∃ t, exec .nop State.reset = .next t) ∧
    (∃ t, exec .fft (withRegs { Regs.zero with log2n := 13 }) = .next t) :=
  ⟨⟨_, exec_nop _⟩, ⟨_, exec_fft _⟩⟩

/-- A state in which a fault is recorded and the host reads its code. -/
def faulted : State :=
  { (State.reset.withPending 0x15000000).faultEntry .config with script := [.read 8] }

theorem witness_FaultsAreSticky : faulted.FaultRecord ∧ faulted.err = true ∧
    ∃ t, step faulted = .next t :=
  ⟨⟨fun _ => rfl, fun _ => ⟨.config, rfl⟩, nofun, nofun⟩, rfl, _, rfl⟩

theorem witness_StepKeepsFaultRecord : State.FaultRecord (State.reset.withPending 0) ∧
    ∃ t, step (State.reset.withPending 0) = .next t :=
  ⟨⟨nofun, nofun, fun _ => rfl, fun _ => rfl⟩, _, rfl⟩

/-- A state with entries in its memories and a command pending. -/
def filled : State :=
  { configured with
    pending := some 0
    rm := [(0, 1), (2 ^ 20 - 1, 1)]
    bm := [(2 ^ 22 - 1, 1)] }

theorem witness_StepKeepsCanonicalMemories : filled.Canonical ∧ ∃ t, step filled = .next t :=
  ⟨⟨by decide, by decide, by decide, by decide, by decide, by decide, by decide⟩, _, rfl⟩

/-- A state that a successful `PVCFG` leaves, with a command pending. -/
def constructed : State :=
  (withRegs { Regs.zero with fsize := 4, ovl := 2 }).configure.withPending 0

theorem constructed_configured : constructed.Configured where
  positive := by decide
  longer := by decide
  length := by decide
  fits := by decide
  hop := by decide
  gain := rfl
  window n hn := by
    show ((withRegs { Regs.zero with fsize := 4, ovl := 2 }).wm.splice 0 4 _).get n = _
    rw [Memory.get_splice, if_pos ⟨by omega, by have : constructed.len = 4 := (by decide); omega⟩]
    rfl

theorem witness_StepKeepsConfiguration : constructed.cfgv = true ∧ constructed.Configured ∧
    ∃ t, step constructed = .next t := ⟨rfl, constructed_configured, _, rfl⟩

theorem witness_StepKeepsBounds : constructed.Bounded ∧
    (constructed.cfgv = true → constructed.Configured) ∧ ∃ t, step constructed = .next t := by
  refine ⟨⟨by decide, by decide, by decide, ?_, by decide, by decide, by decide, by decide⟩,
    fun _ => constructed_configured, _, rfl⟩
  exact Memory.inside_splice (m := []) (by simp [Memory.inside]) (.inr (by decide)) _

theorem witness_ResetMeetsInvariants : RegName.padamt ≠ .cmd ∧ RegName.padamt ≠ .sreset := by
  decide

theorem witness_PortRefusesExactly : State.reset.sizes.Legal ∧
    State.reset.Refuses 0x4 true ∧ State.reset.Refuses 0x90000000#32 true ∧
    State.reset.Refuses 0x158 true ∧ State.reset.Refuses 0x0 false ∧
    State.Refuses { State.reset with pending := some 0 } 0x20 false ∧
    State.Refuses { State.reset with err := true } 0x0 true ∧
    ¬ State.reset.Refuses 0x20 true ∧ ¬ State.reset.Refuses 0x20 false := by
  have log2n : ∀ l : Location, l.Valid State.reset.sizes → l.address = 0x20 → l = .reg .log2n := by
    intro l _ ha
    cases l with
    | reg r => cases r <;> simp_all [Location.address, RegName.number]
    | bank hi k im => simp only [Location.address] at ha; split at ha <;> omega
    | _ => simp only [Location.address] at ha; omega
  refine ⟨by decide, .inl (by decide), .inr (.inl ?_), .inr (.inr (.inl ⟨.reg .padamt, trivial, rfl, rfl⟩)),
    .inr (.inr (.inl ⟨.reg .cmd, trivial, rfl, rfl⟩)), .inr (.inr (.inr (.inl ⟨rfl, by decide⟩))),
    .inr (.inr (.inr (.inr ⟨rfl, rfl, rfl⟩))), ?_, ?_⟩
  · intro l hv ha
    have e : (0x90000000#32).toNat = 9 * 2 ^ 28 := rfl
    rw [e] at ha
    have z : 2 ^ State.reset.sizes.log2nMax = 4096 := rfl
    have zr : State.reset.sizes.rmWords = 2 ^ 20 := rfl
    have zb : State.reset.sizes.bmBytes = 2 ^ 22 := rfl
    cases l with
    | reg r => have := r.number_lt; simp only [Location.address] at ha; omega
    | bank hi k im =>
      simp only [Location.address, Location.Valid, z] at ha hv
      split at ha <;> split at ha <;> omega
    | tw e im => simp only [Location.address, Location.Valid, z] at ha hv; split at ha <;> omega
    | _ => simp only [Location.address, Location.Valid, z, zr, zb] at ha hv; omega
  all_goals
    rintro (h | h | ⟨l, hv, ha, hacc⟩ | h | h)
    · exact h (by decide)
    · exact h (.reg .log2n) trivial rfl
    · rw [log2n l hv ha] at hacc; cases hacc
    · exact absurd h.1 (by decide)
    · exact absurd h.2.1 (by decide)

theorem witness_AddressMapIsExact : Config.exampleSizes.Legal ∧ (0x607FFFF8#32).toNat % 8 = 0 ∧
    locate Config.exampleSizes 0x607FFFF8#32 = some (.rm (2 ^ 20 - 1)) ∧
    locate Config.exampleSizes 0x60800000#32 = none ∧
    locate Config.exampleSizes 0x703FFFF8#32 = some (.bm (2 ^ 22 - 8)) ∧
    locate Config.exampleSizes 0x80007FF8#32 = some (.tw 2047 true) := by decide

theorem witness_MemoryWriteReadsBack : State.reset.sizes.Legal ∧ State.reset.pending = none ∧
    ((Location.bm (2 ^ 22 - 8)).Valid State.reset.sizes ∧
      (Location.bm (2 ^ 22 - 8)).address = (0x703FFFF8#32).toNat ∧
      (Location.bm (2 ^ 22 - 8)).access = .readWrite) ∧
    ((Location.bank true 4095 true).Valid State.reset.sizes ∧
      (Location.bank true 4095 true).address = (0x2000FFF8#32).toNat ∧
      (Location.bank true 4095 true).access = .readWrite) ∧
    ∀ r, Location.bm (2 ^ 22 - 8) ≠ .reg r :=
  ⟨by decide, rfl, ⟨⟨by decide, by decide⟩, rfl, rfl⟩, ⟨by show 4095 < 4096; decide, rfl, rfl⟩,
    nofun⟩

theorem witness_RegisterWriteReadsBack : State.reset.pending = none ∧
    RegName.access .log2n = .readWrite ∧ RegName.access .cwIm = .readWrite := ⟨rfl, rfl, rfl⟩

theorem witness_HostCannotDisturbCommand : (hostTurn (.write 0x20 1)).pending = some 0 ∧
    (hostTurn (.write 0x18 1)).pending = some 0 := ⟨rfl, rfl⟩

theorem witness_ResetHasItsEffect : (1#64).getLsbD 0 = true ∧
    (hostTurn .resetInput).script = .resetInput :: [] := ⟨by decide, rfl⟩

theorem witness_SresetRegister : (1#64).getLsbD 0 = true ∧ (0#64).getLsbD 0 = false := by decide

theorem witness_CmdRegister : (State.reset.pending = none ∧ State.reset.err = false) ∧
    (hostTurn .wait).pending.isSome = true ∧ faulted.err = true := by decide

theorem witness_RoundingIsToNearestEven : roundMag 52 infMag 1 1 < infMag ∧
    roundMag 52 infMag ((2 ^ 54 - 1) * 2 ^ 2044) 1 = infMag ∧
    roundMag 52 infMag ((2 ^ 54 - 1) * 2 ^ 2044 - 1) 1 < infMag ∧ magUnits 52 0 = 0 ∧
    isFinite fNegOne = true ∧ isFinite fOne = true ∧ isZero fOne = false ∧ fsign fOne = false ∧
    |(2 ^ 53 : Int)| ≤ 2 ^ 53 ∧ (0x7F7FFFFF#32).toNat % 2 ^ 31 < infMag32 ∧
    (isNaN canonNaN = true ∧ isInf (pack false infMag) = true ∧ isInf (pack true infMag) = true) ∧
    (fsign (pack false infMag) = false ∧ isFinite fZero = true ∧ isZero fZero = true) ∧
    (isNaN fNegOne = false ∧ isZero fNegOne = false ∧ fsign fNegOne = true) ∧
    infMag32 < (0x7FC00000#32).toNat % 2 ^ 31 := by
  decide +kernel

theorem witness_ArithmeticCommutes : isNaN fOne = false ∧ isNaN fNegOne = false ∧
    isNaN canonNaN = true ∧ isNaN (pack true infMag) = false := by
  decide +kernel

theorem witness_CosineAndSineProperties : isFinite canonNaN = false ∧ isZero fZero = true ∧
    isFinite fPi = true := by decide +kernel

theorem witness_AngleAndModulusProperties : isNaN canonNaN = true ∧ isNaN fOne = false ∧
    isZero fZero = true ∧ fsign fOne = false ∧ fsign fNegOne = true ∧ isZero fOne = false ∧
    isInf (pack false infMag) = true ∧ isInf (pack true infMag) = true ∧ isFinite fZero = true ∧
    isFinite fOne = true ∧ isInf fOne = false ∧ isInf canonNaN = false := by
  decide +kernel

theorem witness_WindowShape : (1 ≤ 1 ∧ 1 ≤ 24 ∧ 1 < 2 ^ 1 ∧ 1 ≠ 4) ∧
    (1 ≤ 24 ∧ 24 ≤ 24 ∧ 2 ^ 24 - 1 < 2 ^ 24 ∧ 24 ≠ 4) ∧ 15 < 2 ^ 4 := by decide

theorem witness_CmulCompletes :
    isNaN (withRegs { Regs.zero with cb := ⟨0, canonNaN⟩ }).regs.cb.im = true := by decide +kernel

theorem witness_TransformFaults :
    ((withRegs { Regs.zero with log2n := 13 }).sizes.log2nMax
      < (withRegs { Regs.zero with log2n := 13 }).regs.log2n.toNat) ∧
    fourPoints.regs.log2n.toNat ≤ fourPoints.sizes.log2nMax ∧ fourPoints.regs.log2n.toNat ≤ 2 := by
  decide

theorem witness_BitrevCompletes : fourPoints.lenFits ∧ 3 < fourPoints.len ∧ 1 < fourPoints.len2 ∧
    (withRegs { Regs.zero with log2n := 12 }).lenFits := by decide

theorem witness_BitrevTwiceRestores : fourPoints.lenFits ∧ 3 < fourPoints.len := by decide

theorem witness_StageCompletes : fourPoints.lenFits ∧ 1 < fourPoints.len2 ∧
    0 < 2 ^ (fourPoints.len2 - 1 - 1) ∧ 1 < 2 ^ 1 := by decide

theorem witness_XscaleCompletes : fourPoints.lenFits ∧ 3 < fourPoints.len := by decide

theorem witness_FftIsItsPasses : fourPoints.lenFits ∧ State.reset.lenFits := by decide

theorem witness_IfftIsItsPasses : fourPoints.lenFits ∧ State.reset.lenFits := by decide

theorem witness_Npow2Completes : 0 < 2 ^ 24 ∧ 16777215 < 2 ^ 24 := by decide

theorem witness_PvcfgCompletes :
    let s := withRegs { Regs.zero with fsize := 4096, ovl := 4095 }
    0 < s.regs.ovl.toInt ∧ s.regs.ovl.toInt < (s.regs.fsize.toNat : Int) ∧
    s.regs.fsize.toNat = 2 ^ 12 ∧ 12 ≤ s.sizes.log2nMax ∧ 4095 < 2 ^ 12 := by decide

theorem witness_PvcfgRejects :
    (withRegs { Regs.zero with fsize := 4, ovl := 0 }).regs.ovl.toInt ≤ 0 ∧
    ((withRegs { Regs.zero with fsize := 4, ovl := 4 }).regs.fsize.toNat : Int)
      ≤ (withRegs { Regs.zero with fsize := 4, ovl := 4 }).regs.ovl.toInt ∧
    2 ^ 12 < (withRegs { Regs.zero with fsize := 8192, ovl := 4 }).regs.fsize.toNat ∧
    ∀ l, (withRegs { Regs.zero with fsize := 0, ovl := 4 }).regs.fsize.toNat ≠ 2 ^ l :=
  ⟨by decide, by decide, by decide, fun l h => absurd h (Nat.two_pow_pos l).ne⟩

theorem witness_PhrstCompletes : State.reset.sizes.Legal ∧ 4095 < State.reset.nmax := by decide

theorem witness_VocoderFaults : State.reset.cfgv = false ∧ configured.cfgv = true ∧
    configured.regs.ilen.toNat < 3 * configured.regs.ha.toNat + 2 ^ configured.regs.log2n.toNat ∧
    (let s : State := { configured with
        regs := { configured.regs with obase := 0x100000, olen := 1 } };
      s.cfgv = true ∧ s.sizes.rmWords < s.regs.obase.toNat + s.regs.olen.toNat) ∧
    (let s : State := { configured with regs := { configured.regs with ibase := 0xFFFF9 } };
      s.cfgv = true ∧ s.sizes.rmWords < s.regs.ibase.toNat + s.regs.ilen.toNat) ∧
    (let s := withRegs { Regs.zero with rdlen := 1 };
      0 < s.regs.rdlen.toNat ∧ s.regs.rslen.toNat = 0) := by decide

theorem witness_FramewCompletes : configured.cfgv = true ∧
    configured.regs.ibase.toNat + configured.regs.ilen.toNat ≤ configured.sizes.rmWords ∧
    2 * configured.regs.ha.toNat + configured.len ≤ configured.regs.ilen.toNat ∧
    3 < configured.len := by decide

theorem witness_PhaseCompletes : configured.cfgv = true ∧ 3 < configured.len := by decide

theorem witness_OlaCompletes : configured.cfgv = true ∧
    configured.regs.obase.toNat + configured.regs.olen.toNat ≤ configured.sizes.rmWords ∧
    2 < configured.len ∧ 1 * configured.regs.hs.toNat + 2 < configured.regs.olen.toNat := by decide

theorem witness_ResampCompletes :
    let s := resampler 8
    s.regs.rsbase.toNat + s.regs.rslen.toNat ≤ s.sizes.rmWords ∧
    s.regs.rdbase.toNat + s.regs.rdlen.toNat ≤ s.sizes.rmWords ∧
    (0 < s.regs.rdlen.toNat → 0 < s.regs.rslen.toNat) ∧ 7 < s.regs.rdlen.toNat := by decide

theorem witness_WavhdrCompletes :
    let s := withBytes fileC1 { Regs.zero with blen := 48 }
    let u := withBytes fileC4 { Regs.zero with blen := 68 }
    (s.regs.blen.toNat ≤ s.sizes.bmBytes ∧ 36 ≤ s.regs.blen.toNat ∧ ContainerOk s.bm ∧
      DescriptorOk (s.bm.readLE 20 2) (s.bm.readLE 34 2) (s.bm.readLE 22 2) ∧
      DataHeaderAt s.bm s.regs.blen.toNat (s.bm.readLE 20 2) 36 ∧
      36 + 8 + s.bm.readLE 40 4 / s.bm.readLE 22 2 / (s.bm.readLE 34 2 / 8) * s.bm.readLE 22 2 *
        (s.bm.readLE 34 2 / 8) ≤ s.regs.blen.toNat) ∧
    DataHeaderAt u.bm u.regs.blen.toNat (u.bm.readLE 20 2) 47 :=
  ⟨⟨by decide +kernel, by decide +kernel, ⟨by decide +kernel, by decide +kernel, by decide +kernel⟩,
    ⟨by decide +kernel, by decide +kernel, by decide +kernel, by decide +kernel⟩,
    dataCursor_ok.1 (by decide +kernel), by decide +kernel⟩, dataCursor_ok.1 (by decide +kernel)⟩

/-- The file of V-C1 with byte `k` changed to `v`, and the given file length. -/
def damaged (k : Nat) (v : Byte) (bl : BitVec 32) : State :=
  withBytes (fileC1.set k v) { Regs.zero with blen := bl }

/-- V-C6: one field of V-C1 changed for each code. -/
theorem witness_WavhdrFaults :
    (damaged 0 0x52 0x400001).sizes.bmBytes < (damaged 0 0x52 0x400001).regs.blen.toNat ∧
    (damaged 0 0x52 35).regs.blen.toNat < 36 ∧
    (damaged 3 0x58 48).bm.tagAt 0 ≠ tagRIFF ∧
    ((damaged 11 0x58 48).bm.tagAt 0 = tagRIFF ∧ (damaged 11 0x58 48).bm.tagAt 8 ≠ tagWAVE) ∧
    ((damaged 15 0 48).bm.tagAt 8 = tagWAVE ∧ (damaged 15 0 48).bm.tagAt 12 ≠ tagFmt) ∧
    (damaged 20 2 48).bm.readLE 20 2 = 2 ∧
    ((damaged 20 3 48).bm.readLE 20 2 = 3 ∧ (damaged 20 3 48).bm.readLE 34 2 = 8) ∧
    ((damaged 34 12 48).bm.readLE 20 2 = 1 ∧ (damaged 34 12 48).bm.readLE 34 2 = 12) ∧
    (damaged 22 0 48).bm.readLE 22 2 = 0 ∧
    (damaged 36 0x4C 48).bm.tagAt 36 ≠ tagData ∧ (damaged 0 0x52 43).regs.blen.toNat < 44 := by
  decide +kernel

/-- V-C6: the extensible rows, with extension sizes that lead past the end, and data cut short. -/
theorem witness_WavhdrFaults_data :
    ContainerOk (damaged 0 0x52 47).bm ∧ DescriptorOk 1 8 1 ∧ DescriptorOk 0xFFFE 16 1 ∧
    DataHeaderAt (damaged 0 0x52 47).bm 47 1 36 ∧
    47 < 36 + 8 + (damaged 0 0x52 47).bm.readLE 40 4 / 1 / (8 / 8) * 1 * (8 / 8) ∧
    (∀ c, ¬ DataHeaderAt (withBytes fileC4 Regs.zero).bm 50 0xFFFE c) ∧ 38 ≤ 50 ∧ 37 < 38 := by
  have hd : dataCursor (withBytes fileC4 Regs.zero).bm 50 0xFFFE = .error .tagData := by
    decide +kernel
  refine ⟨⟨by decide +kernel, by decide +kernel, by decide +kernel⟩,
    ⟨by decide, by decide, by decide, by decide⟩, ⟨by decide, by decide, by decide, by decide⟩,
    dataCursor_ok.1 (by decide +kernel), by decide +kernel, fun c h => ?_, by decide, by decide⟩
  rw [dataCursor_ok.2 h] at hd; cases hd

theorem witness_NormalisationOfSamples : (1 : Nat) ≠ 3 ∧ (0xFFFE : Nat) ≠ 3 := by decide

theorem witness_SampleRoundTrip : ((1 : Nat) ≠ 3 ∧ 2 ^ 24 - 1 < 2 ^ 24 ∧ 2 ^ 32 - 1 < 2 ^ 32) ∧
    (0xFF800000#32).toNat % 2 ^ 31 ≤ infMag32 ∧ (-32768 : Int) ≤ 32767 ∧
    isNaN canonNaN = true ∧ isInf (pack true infMag) = true ∧ isFinite fHalf = true := by
  decide +kernel

/-- A good descriptor with room for its samples: 16-bit stereo, three instants. -/
def stereo : State :=
  withRegs { Regs.zero with
    blen := 56
    afmt := 1
    nch := 2
    srate := 48000
    bps := 16
    nsamp := 3
    dataoff := 44
    chbase := 10
    chstride := 8 }

theorem stereo_ok :
    DescriptorOk stereo.regs.afmt.toNat stereo.regs.bps.toNat stereo.regs.nch.toNat :=
  ⟨by decide, by decide, by decide, by decide⟩

theorem witness_DescriptorFaults :
    (withRegs { Regs.zero with afmt := 2 }).regs.afmt.toNat = 2 ∧
    ((withRegs { Regs.zero with afmt := 3, bps := 24 }).regs.afmt.toNat = 3 ∧
      (withRegs { Regs.zero with afmt := 3, bps := 24 }).regs.bps.toNat = 24) ∧
    ((withRegs { Regs.zero with afmt := 0xFFFE, bps := 64 }).regs.afmt.toNat = 0xFFFE ∧
      (withRegs { Regs.zero with afmt := 0xFFFE, bps := 64 }).regs.bps.toNat = 64) ∧
    DescriptorOk (withRegs { Regs.zero with afmt := 1, bps := 8 }).regs.afmt.toNat
      (withRegs { Regs.zero with afmt := 1, bps := 8 }).regs.bps.toNat 1 ∧
    (withRegs { Regs.zero with afmt := 1, bps := 8 }).regs.nch.toNat = 0 :=
  ⟨rfl, ⟨rfl, rfl⟩, ⟨rfl, rfl⟩, ⟨by decide, by decide, by decide, by decide⟩, rfl⟩

/-- `stereo` with another register changed keeps its descriptor. -/
theorem witness_CodecRangeFaults :
    let bad (f : Regs → Regs) : Regs := f stereo.regs
    let r1 := bad fun g => { g with blen := 0x400001 }
    let r2 := bad fun g => { g with blen := 55 }
    let r3 := bad fun g => { g with chstride := 2 }
    let r4 := bad fun g => { g with dataoff := 0x3FFFF5 }
    let r5 := bad fun g => { g with srate := 0x80000000 }
    DescriptorOk stereo.regs.afmt.toNat stereo.regs.bps.toNat stereo.regs.nch.toNat ∧
    State.reset.sizes.bmBytes < r1.blen.toNat ∧
    r2.blen.toNat < r2.dataoff.toNat + r2.nsamp.toNat * r2.nch.toNat * (r2.bps.toNat / 8) ∧
    (1 < r3.nch.toNat ∧ r3.chstride.toNat < r3.nsamp.toNat) ∧
    State.reset.sizes.bmBytes
      < r4.dataoff.toNat + r4.nsamp.toNat * r4.nch.toNat * (r4.bps.toNat / 8) ∧
    2 ^ 32 ≤ r5.srate.toNat * r5.nch.toNat * (r5.bps.toNat / 8) :=
  ⟨stereo_ok, by decide, by decide, by decide, by decide, by decide⟩

theorem witness_PcmdecCompletes :
    DescriptorOk stereo.regs.afmt.toNat stereo.regs.bps.toNat stereo.regs.nch.toNat ∧
    stereo.regs.blen.toNat ≤ stereo.sizes.bmBytes ∧
    stereo.regs.dataoff.toNat + stereo.regs.nsamp.toNat * stereo.regs.nch.toNat *
      (stereo.regs.bps.toNat / 8) ≤ stereo.regs.blen.toNat ∧
    (1 < stereo.regs.nch.toNat → stereo.regs.nsamp.toNat ≤ stereo.regs.chstride.toNat) ∧
    stereo.regs.chbase.toNat + (stereo.regs.nch.toNat - 1) * stereo.regs.chstride.toNat +
      stereo.regs.nsamp.toNat ≤ stereo.sizes.rmWords ∧
    1 < stereo.regs.nch.toNat ∧ 2 < stereo.regs.nsamp.toNat :=
  ⟨stereo_ok, by decide, by decide, by decide, by decide, by decide, by decide⟩

theorem witness_PcmencCompletes : stereo.sizes.Legal ∧
    DescriptorOk stereo.regs.afmt.toNat stereo.regs.bps.toNat stereo.regs.nch.toNat ∧
    stereo.regs.dataoff.toNat + stereo.regs.nsamp.toNat * stereo.regs.nch.toNat *
      (stereo.regs.bps.toNat / 8) ≤ stereo.sizes.bmBytes ∧
    (1 < stereo.regs.nch.toNat → stereo.regs.nsamp.toNat ≤ stereo.regs.chstride.toNat) ∧
    stereo.regs.chbase.toNat + (stereo.regs.nch.toNat - 1) * stereo.regs.chstride.toNat +
      stereo.regs.nsamp.toNat ≤ stereo.sizes.rmWords ∧
    1 < stereo.regs.nch.toNat ∧ 2 < stereo.regs.nsamp.toNat ∧ 1 < stereo.regs.bps.toNat / 8 :=
  ⟨by decide, stereo_ok, by decide, by decide, by decide, by decide, by decide, by decide⟩

theorem witness_WavhdrwCompletes :
    DescriptorOk stereo.regs.afmt.toNat stereo.regs.bps.toNat stereo.regs.nch.toNat ∧
    36 + stereo.regs.nsamp.toNat * stereo.regs.nch.toNat * (stereo.regs.bps.toNat / 8) < 2 ^ 32 ∧
    44 ≤ stereo.sizes.bmBytes ∧
    stereo.regs.srate.toNat * stereo.regs.nch.toNat * (stereo.regs.bps.toNat / 8) < 2 ^ 32 ∧
    stereo.regs.nch.toNat * (stereo.regs.bps.toNat / 8) < 2 ^ 16 :=
  ⟨stereo_ok, by decide, by decide, by decide, by decide⟩

theorem witness_WrittenFileParsesBack : stereo.sizes.Legal ∧
    DescriptorOk stereo.regs.afmt.toNat stereo.regs.bps.toNat stereo.regs.nch.toNat ∧
    44 + stereo.regs.nsamp.toNat * stereo.regs.nch.toNat * (stereo.regs.bps.toNat / 8)
      ≤ stereo.sizes.bmBytes ∧
    stereo.regs.srate.toNat * stereo.regs.nch.toNat * (stereo.regs.bps.toNat / 8) < 2 ^ 32 ∧
    stereo.regs.nch.toNat * (stereo.regs.bps.toNat / 8) < 2 ^ 16 ∧
    (1 < stereo.regs.nch.toNat → stereo.regs.nsamp.toNat ≤ stereo.regs.chstride.toNat) ∧
    stereo.regs.chbase.toNat + (stereo.regs.nch.toNat - 1) * stereo.regs.chstride.toNat +
      stereo.regs.nsamp.toNat ≤ stereo.sizes.rmWords :=
  ⟨by decide, stereo_ok, by decide, by decide, by decide, by decide, by decide⟩

theorem witness_UnitsAreIsolated :
    (∃ t, exec .wavhdrw stereo = .next t) ∧ 0x30 ≤ Instr.wavhdrw.opcode ∧
    (∃ t, exec .fft fourPoints = .next t) ∧ Instr.fft.opcode < 0x30 :=
  ⟨⟨_, exec_wavhdrw stereo_ok⟩, by decide, ⟨_, exec_fft _⟩, by decide⟩

end Sys2Proof.Tests
end

section
/-!
PROOFS. What every step keeps of the memories: their canonical form (10_state.md R22 to R26, log entry 2).
-/

namespace Sys2Proof

/-- A loop whose iterations keep the canonical form keeps it. -/
theorem Memory.wf_forUp {w n : Nat} {f : Nat → Memory w → Memory w} {m : Memory w} (hm : m.wf)
    (hf : ∀ i (m : Memory w), m.wf → (f i m).wf) : (forUp n f m).wf :=
  forUp_induction (P := fun _ m => Memory.wf m) hm fun i m _ h => hf i m h

end Sys2Proof

namespace Sys2Proof.Machine

/-! ## The canonical form under the operations on memories and banks -/

/-- Storing one part of one entry keeps a bank canonical. -/
theorem Bank.wf_setPart {b : Bank} (hb : b.wf) (k : Nat) (im : Bool) (v : F64) :
    (Bank.setPart b k im v).wf := by
  obtain ⟨hre, him⟩ := hb
  cases im with
  | false => exact ⟨Memory.wf_set hre k v, him⟩
  | true => exact ⟨hre, Memory.wf_set him k v⟩

theorem wf_writeHeader {bm : Memory 8} (hbm : bm.wf) (tagv n sr brate balign b dsz : Nat) :
    (writeHeader bm tagv n sr brate balign b dsz).wf := by
  have container := Memory.wf_writeTag (Memory.wf_writeTag (Memory.wf_writeLE
    (Memory.wf_writeTag hbm 0 tagRIFF) 4 4 (36 + dsz)) 8 tagWAVE) 12 tagFmt
  have format := Memory.wf_writeLE (Memory.wf_writeLE (Memory.wf_writeLE container 16 4 16)
    20 2 tagv) 22 2 n
  have rates := Memory.wf_writeLE (Memory.wf_writeLE (Memory.wf_writeLE format 24 4 sr)
    28 4 brate) 32 2 balign
  exact Memory.wf_writeLE (Memory.wf_writeTag (Memory.wf_writeLE rates 34 2 b) 36 tagData) 40 4 dsz

namespace State.Canonical

variable {s : State}

theorem wf_resampled (h : s.Canonical) (n : Nat) : (s.resampled n).wf :=
  Memory.wf_forUp h.rm fun _ _ hm => Memory.wf_set hm _ _

theorem wf_decodeSamples (h : s.Canonical) (by' : Nat) : (s.decodeSamples by').wf :=
  Memory.wf_forUp h.rm fun _ _ hm => Memory.wf_forUp hm fun _ _ hm => Memory.wf_set hm _ _

theorem wf_encodeSamples (h : s.Canonical) (by' : Nat) : (s.encodeSamples by').wf :=
  Memory.wf_forUp h.bm fun _ _ hm => Memory.wf_forUp hm fun _ _ hm => Memory.wf_writeLE hm _ _ _

/-! ## The canonical form under the operations on states -/

theorem complete (h : s.Canonical) : s.complete.Canonical := { h with }

theorem faultEntry (h : s.Canonical) (e : ErrCode) : (s.faultEntry e).Canonical := { h with }

theorem blockReset (h : s.Canonical) : s.blockReset.Canonical := { h with }

theorem passTurn (h : s.Canonical) : s.passTurn.Canonical := { h with }

theorem framePass (h : s.Canonical) (n : Nat) (f : Nat → Cplx) : (s.framePass n f).Canonical :=
  { h with
    x0 := by
      rw [State.framePass_x0]
      split
      · exact Bank.wf_fill h.x0 n f
      · exact h.x0
    x1 := by
      rw [State.framePass_x1]
      split
      · exact h.x1
      · exact Bank.wf_fill h.x1 n f }

/-- The writes of a command keep the canonical form. -/
theorem effect {u : State} {i : Instr} (h : s.Canonical) (he : Effect s i u) : u.Canonical := by
  have pass : ∀ t n f, State.Canonical t → (State.framePass t n f).Canonical :=
    fun _ n f ht => ht.framePass n f
  cases i
  case bitrev => exact Effect.transform_keep pass (by simp) h he
  case stage => exact Effect.transform_keep pass (by simp) h he
  case xscale => exact Effect.transform_keep pass (by simp) h he
  case fft => exact Effect.transform_keep pass (by simp) h he
  case ifft => exact Effect.transform_keep pass (by simp) h he
  case framew => cases he; exact h.framePass _ _
  case phase =>
    cases he
    exact { h.framePass s.len s.binOutput with
      pv := Memory.wf_splice h.pv _ _ _, cu := Memory.wf_splice h.cu _ _ _ }
  case pvcfg => cases he; exact { h with wm := Memory.wf_splice h.wm _ _ _ }
  case phrst =>
    cases he
    exact { h with pv := Memory.wf_splice h.pv _ _ _, cu := Memory.wf_splice h.cu _ _ _ }
  case ola => cases he; exact { h with rm := Memory.wf_splice h.rm _ _ _ }
  case resamp => cases he; exact { h with rm := h.wf_resampled _ }
  case pcmdec => cases he; exact { h with rm := h.wf_decodeSamples _ }
  case wavhdrw => cases he; exact { h with bm := wf_writeHeader h.bm _ _ _ _ _ _ _ }
  case pcmenc => cases he; exact { h with bm := h.wf_encodeSamples _ }
  -- the commands that write registers only
  all_goals cases he; exact { h with }

/-- A command keeps the canonical form, whether it completes or faults. -/
theorem exec_next {t : State} {i : Instr} (h : s.Canonical) (he : exec i s = .next t) :
    t.Canonical := by
  rcases exec_cases he with ⟨e, rfl⟩ | ⟨u, hu, rfl⟩
  · exact h.faultEntry e
  · exact (h.effect hu).complete

theorem writeReg {t : State} {d : BitVec 64} {r : RegName} (h : s.Canonical)
    (hw : s.writeReg d r = some t) : t.Canonical := by
  rcases State.writeReg_cases hw with ⟨-, rfl⟩ | ⟨-, rfl⟩ | ⟨-, g, rfl, -⟩ | ⟨g, rfl, -⟩
  · exact { h with }
  · split
    · exact h.blockReset
    · exact h
  · exact { h with }
  · exact { h with }

/-- An accepted write of the host keeps the canonical form. -/
theorem writeLocation {t : State} {d : BitVec 64} {l : Location} (h : s.Canonical)
    (hw : s.writeLocation d l = some t) : t.Canonical := by
  rcases State.writeLocation_cases hw with ⟨r, -, hr⟩ | ⟨hi, k, im, -, rfl⟩ | ⟨k, -, rfl⟩ |
    ⟨k, -, rfl⟩ | ⟨a, -, rfl⟩ | ⟨b, -, rfl⟩
  · exact h.writeReg hr
  · cases hi with
    | false => exact { h with x0 := Bank.wf_setPart h.x0 k im d }
    | true => exact { h with x1 := Bank.wf_setPart h.x1 k im d }
  · exact { h with pv := Memory.wf_set h.pv k d }
  · exact { h with cu := Memory.wf_set h.cu k d }
  · exact { h with rm := Memory.wf_set h.rm a d }
  · exact { h with bm := Memory.wf_writeLE h.bm b 8 d.toNat }

theorem hostStep (h : s.Canonical) : s.hostStep.Canonical := by
  obtain ⟨u, hu, script, resp, e⟩ := s.hostStep_cases
  have hc : u.Canonical := by
    rcases hu with rfl | rfl | ⟨_, _, _, -, hw⟩
    · exact h
    · exact h.blockReset
    · exact h.writeLocation hw
  rw [e]
  exact { hc with }

/-- Either agent's step keeps the canonical form. -/
theorem step_next {t : State} (h : s.Canonical) (hs : step s = .next t) : t.Canonical := by
  rcases step_cases hs with rfl | rfl | ⟨w, -, ⟨why, -, rfl⟩ | ⟨i, -, he⟩⟩
  · exact h
  · exact h.passTurn.hostStep
  · exact h.passTurn.faultEntry .illegal
  · exact h.passTurn.exec_next he

end State.Canonical

/-- Settles O13: idle, the HOST's step, the fault entry on an illegal word and every command keep the
canonical form. -/
theorem stepKeepsCanonicalMemories : Obligations.StepKeepsCanonicalMemories := by
  unfold Obligations.StepKeepsCanonicalMemories
  exact fun _ _ h hs => h.step_next hs

end Sys2Proof.Machine
end

section
/-!
PROOFS. The registers through the host port: STATUS (10_state.md R32), CMD (R31), SRESET (R34), the
registers with access RW (R30, R35, R36), and the values after reset (R50).
-/

namespace Sys2Proof.Machine

/-! ## An access to a register's address -/

section Access

variable {s : State} {r : RegName} {d : BitVec 64}

theorem State.portWrite_reg_refused
    (h : s.accepts (BitVec.ofNat 32 (8 * r.number)) true = none) :
    s.portWrite (BitVec.ofNat 32 (8 * r.number)) d = (s, .refused) := by
  simp only [State.portWrite, h]

theorem State.portWrite_reg_done {t : State}
    (h : s.accepts (BitVec.ofNat 32 (8 * r.number)) true = some (.reg r))
    (hw : s.writeReg d r = some t) :
    s.portWrite (BitVec.ofNat 32 (8 * r.number)) d = (t, .done) := by
  simp only [State.portWrite, h, State.writeLocation, hw]

theorem State.portRead_reg_data {v : BitVec 64}
    (h : s.accepts (BitVec.ofNat 32 (8 * r.number)) false = some (.reg r))
    (hv : s.readReg r = some v) :
    s.portRead (BitVec.ofNat 32 (8 * r.number)) = .data v := by
  simp only [State.portRead, h, State.readLocation, hv]

/-- A register with access RW takes an access in either direction while the slot is empty. -/
theorem State.accepts_reg_of_readWrite (hr : r.access = .readWrite) (hp : s.pending = none)
    (write : Bool) : s.accepts (BitVec.ofNat 32 (8 * r.number)) write = some (.reg r) := by
  have hcmd : r ≠ .cmd := by rintro rfl; cases hr
  cases write <;>
    simp [State.accepts_reg, Location.forbids, Location.access, hr, State.busy, hp, hcmd]

/-- A write-only register refuses every read (20_memory.md R72 test 3). -/
theorem State.portRead_writeOnly (hr : r.access = .writeOnly) :
    s.portRead (BitVec.ofNat 32 (8 * r.number)) = .refused := by
  simp [State.portRead, State.accepts_reg, Location.forbids, Location.access, hr]

/-- A read-only register refuses every write (20_memory.md R72 test 3). -/
theorem State.portWrite_readOnly (hr : r.access = .readOnly) :
    s.portWrite (BitVec.ofNat 32 (8 * r.number)) d = (s, .refused) :=
  State.portWrite_reg_refused (by
    simp [State.accepts_reg, Location.forbids, Location.access, hr])

end Access

/-! ## STATUS -/

/-- One binary digit of a word's number is one of its bits. -/
theorem getLsbD_of_toNat_digit {w i : Nat} {v : BitVec w} {b : Bool}
    (h : v.toNat / 2 ^ i % 2 = b.toNat) : v.getLsbD i = b := by
  rw [BitVec.getLsbD, Nat.testBit_eq_decide_div_mod_eq, h]
  cases b <;> rfl

/-- Each flag stands at its place in STATUS (10_state.md R32). -/
theorem State.statusWord_flags (s : State) :
    s.statusWord.getLsbD 0 = s.busy ∧ s.statusWord.getLsbD 1 = s.err ∧
      s.statusWord.getLsbD 2 = s.cfgv ∧ s.statusWord.getLsbD 3 = s.xsel := by
  have hnum := s.statusWord_toNat
  have hbusy := s.busy.toNat_le
  have herr := s.err.toNat_le
  have hcfgv := s.cfgv.toNat_le
  have hxsel := s.xsel.toNat_le
  exact ⟨getLsbD_of_toNat_digit (by omega), getLsbD_of_toNat_digit (by omega),
    getLsbD_of_toNat_digit (by omega), getLsbD_of_toNat_digit (by omega)⟩

/-- The flags take the four lowest bits of STATUS, ERRCODE the eight from bit 8 on. -/
theorem State.exists_statusWord_toNat (s : State) :
    ∃ flags < 16, s.statusWord.toNat = flags + 256 * s.errCode.toNat := by
  refine ⟨_, ?_, s.statusWord_toNat⟩
  have := s.busy.toNat_le
  have := s.err.toNat_le
  have := s.cfgv.toNat_le
  have := s.xsel.toNat_le
  omega

theorem State.statusWord_gap (s : State) {i : Nat} (h4 : 4 ≤ i) (h8 : i < 8) :
    s.statusWord.getLsbD i = false := by
  obtain ⟨flags, hf, h⟩ := s.exists_statusWord_toNat
  apply getLsbD_of_toNat_digit
  rw [h, Bool.toNat_false]
  interval_cases i <;> omega

theorem State.statusWord_errCode (s : State) : s.statusWord.extractLsb' 8 8 = s.errCode := by
  obtain ⟨flags, hf, h⟩ := s.exists_statusWord_toNat
  apply BitVec.eq_of_toNat_eq
  have hcode := s.errCode.isLt
  rw [BitVec.extractLsb'_toNat, h, Nat.shiftRight_eq_div_pow]
  omega

theorem State.statusWord_high (s : State) {i : Nat} (h16 : 16 ≤ i) :
    s.statusWord.getLsbD i = false := by
  obtain ⟨flags, hf, h⟩ := s.exists_statusWord_toNat
  have hcode := s.errCode.isLt
  have hlt : s.statusWord.toNat < 2 ^ 16 := by omega
  exact Nat.testBit_lt_two_pow (hlt.trans_le (Nat.pow_le_pow_right (by omega) h16))

/-- STATUS can be read at any time, also while BUSY (10_state.md R32). -/
theorem State.portRead_status (s : State) :
    s.portRead (BitVec.ofNat 32 (8 * RegName.status.number)) = .data s.statusWord :=
  State.portRead_reg_data (by
    simp [State.accepts_reg, Location.forbids, Location.access, RegName.access,
      Location.allowedWhileBusy]) rfl

/-- Settles O21: the value read is `statusWord`, whose bits are named one group at a time. -/
theorem statusBits : Obligations.StatusBits := by
  unfold Obligations.StatusBits
  intro s
  obtain ⟨hbusy, herr, hcfgv, hxsel⟩ := s.statusWord_flags
  exact ⟨s.statusWord, s.portRead_status, hbusy, herr, hcfgv, hxsel,
    fun _ h4 h8 => s.statusWord_gap h4 h8, s.statusWord_errCode,
    fun _ h16 => s.statusWord_high h16, fun _ => State.portWrite_readOnly rfl⟩

/-! ## SRESET -/

/-- SRESET takes a write whatever BUSY and ERR are (10_state.md R34). -/
theorem State.accepts_sreset (s : State) :
    s.accepts (BitVec.ofNat 32 (8 * RegName.sreset.number)) true = some (.reg .sreset) := by
  simp [State.accepts_reg, Location.forbids, Location.access, RegName.access,
    Location.allowedWhileBusy]

theorem State.portWrite_sreset (s : State) (d : BitVec 64) :
    s.portWrite (BitVec.ofNat 32 (8 * RegName.sreset.number)) d =
      (if d.getLsbD 0 then s.blockReset else s, .done) :=
  State.portWrite_reg_done s.accepts_sreset rfl

/-- Settles O24: the write is `State.portWrite_sreset`, and SRESET is write-only. -/
theorem sresetRegister : Obligations.SresetRegister := by
  unfold Obligations.SresetRegister
  refine fun s d => ⟨fun hd => ?set, fun hd => ?clear, State.portRead_writeOnly rfl⟩
  case set => exact ⟨s.blockReset, by rw [s.portWrite_sreset, if_pos hd], s.wasReset_blockReset⟩
  case clear => rw [s.portWrite_sreset, hd]; rfl

/-! ## CMD -/

/-- CMD takes a write exactly when BUSY and ERR are 0 (10_state.md R31). -/
theorem State.accepts_cmd (s : State) :
    s.accepts (BitVec.ofNat 32 (8 * RegName.cmd.number)) true =
      if s.pending.isSome = true ∨ s.err = true then none else some (.reg .cmd) := by
  rw [State.accepts_reg]
  cases hp : s.pending.isSome <;> cases he : s.err <;>
    simp [Location.forbids, Location.access, RegName.access, Location.allowedWhileBusy,
      State.busy, hp]

/-- Filling the slot changes no register that holds a value and no memory entry. -/
theorem State.untouched_pending (s : State) (p : Option (BitVec 32)) :
    Untouched s { s with pending := p } noReg noPlace where
  regs _ h _ := State.readReg_congr (s := s) (t := { s with pending := p }) rfl h
  entries q _ := State.entry_congr rfl rfl rfl rfl rfl rfl rfl q
  sizes := rfl
  script := rfl
  sched := rfl
  resp := rfl

/-- Settles O25: the tests of the port on CMD are `State.accepts_cmd`, and CMD is write-only. -/
theorem cmdRegister : Obligations.CmdRegister := by
  unfold Obligations.CmdRegister
  refine fun s d => ⟨fun hp he => ?accepted, fun h => ?refused, State.portRead_writeOnly rfl⟩
  case accepted =>
    have hacc : s.accepts (BitVec.ofNat 32 (8 * RegName.cmd.number)) true = some (.reg .cmd) := by
      rw [s.accepts_cmd, if_neg (by simp [hp, he])]
    have hword : d.setWidth 32 = d.extractLsb' 0 32 := by
      rw [BitVec.setWidth_eq_extractLsb' (by omega)]
    refine ⟨_, State.portWrite_reg_done hacc rfl, congrArg some hword, ?_,
      s.untouched_pending _, rfl, rfl, rfl, rfl⟩
    exact (State.statusWord_flags _).1
  case refused => exact State.portWrite_reg_refused (by rw [s.accepts_cmd, if_pos h])

/-! ## Registers with access RW -/

/-- A write to an RW register changes the register file, and CFGV where it is LOG2N, FSIZE or OVL
(10_state.md R30, R35, R36). -/
theorem State.exists_writeReg {s : State} {r : RegName} (hr : r.access = .readWrite)
    (d : BitVec 64) : ∃ g, s.writeReg d r = some { s with
      regs := g
      cfgv := s.cfgv && !decide (r = .log2n ∨ r = .fsize ∨ r = .ovl) } := by
  cases r <;> first
    | exact absurd hr (by decide)
    | simp [State.writeReg, State.clearCfgv]

/-- An RW register holds the low bits of what was written (20_memory.md R73). -/
theorem State.registerValue_writeReg {s t : State} {r : RegName} {d : BitVec 64}
    (hr : r.access = .readWrite) (hw : s.writeReg d r = some t) :
    t.registerValue r = d.toNat % 2 ^ r.width := by
  cases r <;> first
    | exact absurd hr (by decide)
    | cases hw; exact BitVec.toNat_setWidth ..
    | cases hw; exact (Nat.mod_eq_of_lt d.isLt).symm

theorem State.readReg_writeReg {s t : State} {r : RegName} {d : BitVec 64}
    (hr : r.access = .readWrite) (hw : s.writeReg d r = some t) :
    t.readReg r = some (BitVec.ofNat 64 (d.toNat % 2 ^ r.width)) := by
  rw [State.readReg_eq (by simp [hr]), State.registerValue_writeReg hr hw]

/-- Every other register reads as before. -/
theorem State.readReg_writeReg_of_ne {s t : State} {r r' : RegName} {d : BitVec 64}
    (hr : r.access = .readWrite) (hw : s.writeReg d r = some t) (hne : r' ≠ r)
    (hst : r' ≠ .status) : t.readReg r' = s.readReg r' := by
  cases r <;> first
    | exact absurd hr (by decide)
    | cases hw
      cases r' <;> first
        | rfl
        | exact absurd rfl hne
        | exact absurd rfl hst

/-- Settles O20: what the write stores, and that it stores nothing else. -/
theorem registerWriteReadsBack : Obligations.RegisterWriteReadsBack := by
  unfold Obligations.RegisterWriteReadsBack
  intro s r d hp hr
  obtain ⟨g, hw⟩ := State.exists_writeReg (s := s) hr d
  refine ⟨_, State.portWrite_reg_done (State.accepts_reg_of_readWrite hr hp true) hw,
    State.portRead_reg_data (State.accepts_reg_of_readWrite hr hp false)
      (State.readReg_writeReg hr hw),
    { regs := fun _ hst hne => State.readReg_writeReg_of_ne hr hw hne hst
      entries := fun p _ => State.entry_congr rfl rfl rfl rfl rfl rfl rfl p
      sizes := rfl, script := rfl, sched := rfl, resp := rfl }, hp, rfl, rfl, rfl, rfl⟩

/-! ## After reset -/

/-- The state after reset is one the reset of the block has nothing left to do in. -/
theorem blockReset_reset : State.reset.blockReset = State.reset := rfl

theorem reset_faultRecord : State.reset.FaultRecord where
  idle _ := rfl
  code := nofun
  noCode _ := rfl
  noWord _ := rfl

theorem reset_canonical : State.reset.Canonical := by
  have hnil : ∀ w, Memory.wf ([] : Memory w) := fun _ => ⟨.nil, nofun⟩
  exact ⟨⟨hnil 64, hnil 64⟩, ⟨hnil 64, hnil 64⟩, hnil 64, hnil 64, hnil 64, hnil 64, hnil 8⟩

theorem reset_bounded : State.reset.Bounded where
  legal := by decide
  x0 := ⟨nofun, nofun⟩
  x1 := ⟨nofun, nofun⟩
  wm := nofun
  pv := nofun
  cu := nofun
  rm := nofun
  bm := nofun

/-- Settles O16: `State.reset` is its own block reset, its memories are empty, and CFGV is 0. -/
theorem resetMeetsInvariants : Obligations.ResetMeetsInvariants := by
  unfold Obligations.ResetMeetsInvariants
  have hreset := State.wasReset_blockReset State.reset
  rw [blockReset_reset] at hreset
  exact ⟨hreset.regs, hreset.slot, reset_faultRecord, reset_canonical, reset_bounded, nofun⟩

end Sys2Proof.Machine
end

section
/-!
PROOFS. Which agent's step comes next and what it is (10_state.md R20), and that a pending command
leaves the slot.
-/

namespace Sys2Proof.Machine

/-! ## The ENGINE's step -/

/-- Settles O5: the law of the ENGINE's step, `passTurn` written out. -/
theorem stepRunsPendingCommand : Obligations.StepRunsPendingCommand := by
  unfold Obligations.StepRunsPendingCommand
  exact fun _ _ _ hp hd h => step_of_command hp hd h

/-- Whatever the word is, the ENGINE's step on it empties the slot. -/
theorem engineStep_empties (w : BitVec 32) (s : State) :
    ∃ t, engineStep w s = .next t ∧ t.pending = none := by
  unfold engineStep
  split
  · exact ⟨_, rfl, rfl⟩
  · rename_i i _
    obtain ⟨r, hr⟩ := exec_eq_conclude i s
    rw [hr]
    cases r with
    | ok u => exact ⟨_, s.conclude_ok u, rfl⟩
    | error e => exact ⟨_, s.conclude_error e, rfl⟩

/-- The ENGINE moves when the HOST is not scheduled or has no access to make. -/
theorem step_of_engine {s : State} {w : BitVec 32} (hp : s.pending = some w)
    (h : s.sched.head? ≠ some .host ∨ s.script = []) : step s = engineStep w s.passTurn := by
  simp [step, State.mover_engine (by simp [hp]) h, hp]

/-! ## The HOST's step -/

/-- The HOST moves when it has an access to make, and is scheduled or nothing is pending. -/
theorem step_of_host {s : State} (hs : s.script ≠ [])
    (h : s.sched.head? = some .host ∨ s.pending = none) : step s = .next s.passTurn.hostStep := by
  simp [step, State.mover_host hs h]

/-- The machine idles when neither agent has a step. -/
theorem step_of_idle {s : State} (hs : s.script = []) (hp : s.pending = none) :
    step s = .next s := by
  have hm : s.mover = none := by
    unfold State.mover
    split <;> simp [State.busy, hs, hp]
  simp [step, hm]

theorem State.passTurn_writeReg (s : State) (d : BitVec 64) (r : RegName) :
    s.passTurn.writeReg d r = (s.writeReg d r).map fun t => { t with sched := s.sched.tail } := by
  cases r
  case sreset => simp only [State.writeReg]; split <;> rfl
  all_goals rfl

theorem State.passTurn_writeLocation (s : State) (d : BitVec 64) (l : Location) :
    s.passTurn.writeLocation d l =
      (s.writeLocation d l).map fun t => { t with sched := s.sched.tail } := by
  cases l
  case reg r => exact s.passTurn_writeReg d r
  case bank hi k im => cases hi <;> rfl
  all_goals rfl

/-- A write through the port does not look at the schedule. -/
theorem State.passTurn_portWrite (s : State) (haddr : BitVec 32) (d : BitVec 64) :
    s.passTurn.portWrite haddr d =
      ({ (s.portWrite haddr d).1 with sched := s.sched.tail }, (s.portWrite haddr d).2) := by
  have hacc : s.passTurn.accepts haddr true = s.accepts haddr true := rfl
  unfold State.portWrite
  rw [hacc]
  cases s.accepts haddr true with
  | none => rfl
  | some l =>
    simp only [s.passTurn_writeLocation d l]
    cases s.writeLocation d l <;> rfl

/-- Settles O7: with an access to make the HOST moves, and `hostStep` is read off the script's head. -/
theorem stepPerformsHostAccess : Obligations.StepPerformsHostAccess := by
  unfold Obligations.StepPerformsHostAccess
  intro s h
  have move {a : HostStep} {rest : List HostStep} (hs : s.script = a :: rest) :
      step s = .next s.passTurn.hostStep := step_of_host (by simp [hs]) h
  refine ⟨step_of_idle, fun a rest hs => ?read, fun a d rest hs => ?write, fun rest hs => ?wait,
    fun rest hs => ?resetInput⟩
  all_goals rw [move hs, State.hostStep, State.passTurn_script, hs]
  case read => rfl
  case write => simp only [State.passTurn_portWrite]
  case wait => rw [(State.statusWord_flags _).1]; rfl
  case resetInput => rfl

/-! ## A pending command leaves the slot -/

/-- While a command is pending the only write the port performs is one to SRESET (20_memory.md R72
test 4). -/
theorem State.accepts_write_of_pending {s : State} {haddr : BitVec 32} {l : Location}
    (hp : s.pending.isSome = true) (h : s.accepts haddr true = some l) : l = .reg .sreset := by
  obtain ⟨-, -, -, hbusy, -⟩ := State.accepts_some h
  simpa [Location.allowedWhileBusy] using hbusy hp

/-- While a command is pending a step of the HOST leaves the block as it is, or resets it. -/
theorem State.hostStep_of_pending {s : State} (hp : s.pending.isSome = true) :
    ∃ u, (u = s ∨ u = s.blockReset) ∧
      ∃ script resp, s.hostStep = { u with script := script, resp := resp } := by
  obtain ⟨u, hu, h⟩ := s.hostStep_cases
  refine ⟨u, ?_, h⟩
  rcases hu with hu | hu | ⟨_, d, l, hacc, hw⟩
  · exact .inl hu
  · exact .inr hu
  · obtain rfl := State.accepts_write_of_pending hp hacc
    cases hw
    split
    · exact .inr rfl
    · exact .inl rfl

/-- One step empties the slot when it is the ENGINE's. -/
theorem exists_run_one_empties {s : State} {w : BitVec 32} (hp : s.pending = some w)
    (h : s.sched.head? ≠ some .host ∨ s.script = []) :
    ∃ t, Host.Core.run Sys2Proof.core 1 s = .next t ∧ t.pending = none := by
  obtain ⟨t, ht, hempty⟩ := engineStep_empties w s.passTurn
  exact ⟨t, run_succ ((step_of_engine hp h).trans ht) 0, hempty⟩

/-- The schedule counts down to the ENGINE's turn; a reset by the host empties the slot sooner. -/
theorem exists_run_empties {l : List Agent} : ∀ {s : State} {w : BitVec 32}, s.sched = l →
    s.pending = some w →
    ∃ k t, k ≤ l.length + 1 ∧ Host.Core.run Sys2Proof.core k s = .next t ∧ t.pending = none := by
  induction l with
  | nil =>
    intro s w hl hp
    obtain ⟨t, hrun, hempty⟩ := exists_run_one_empties hp (.inl (by simp [hl]))
    exact ⟨1, t, by simp, hrun, hempty⟩
  | cons a l ih =>
    intro s w hl hp
    by_cases hturn : s.sched.head? ≠ some .host ∨ s.script = []
    · obtain ⟨t, hrun, hempty⟩ := exists_run_one_empties hp hturn
      exact ⟨1, t, by simp, hrun, hempty⟩
    · obtain ⟨hhost, hscript⟩ := not_or.1 hturn
      have hstep := step_of_host hscript (.inl (not_not.1 hhost))
      obtain ⟨u, hu, script, resp, e⟩ :=
        State.hostStep_of_pending (s := s.passTurn) (by simp [hp])
      rcases hu with rfl | rfl
      · obtain ⟨k, t, hk, hrun, hempty⟩ :=
          ih (s := s.passTurn.hostStep) (w := w) (by rw [e]; simp [hl]) (by rw [e]; exact hp)
        exact ⟨k + 1, t, by simpa using hk, (run_succ hstep k).trans hrun, hempty⟩
      · exact ⟨1, _, by simp, run_succ hstep 0, by rw [e]; rfl⟩

/-- Settles O9, by induction on the schedule. -/
theorem pendingCommandEnds : Obligations.PendingCommandEnds := by
  unfold Obligations.PendingCommandEnds
  exact fun _ _ hp => exists_run_empties rfl hp

end Sys2Proof.Machine
end

section
/-!
PROOFS. The host port's address map (20_memory.md R70), its refusals and the values it reads (R72,
R73, R64), its writes to memories, and its silence while a command is pending (R74).
-/

namespace Sys2Proof.Machine

/-! ## Locations and their addresses -/

theorem validWhen_eq_some {ok : Prop} [Decidable ok] {l l' : Location} :
    validWhen ok l = some l' ↔ ok ∧ l = l' := by
  unfold validWhen
  split <;> simp [*]

theorem RegName.number_of_ofNumber {n : Nat} {r : RegName} (h : RegName.ofNumber n = some r) :
    r.number = n := by
  have hmap : ∀ k < 44, ∀ r ∈ RegName.ofNumber k, r.number = k := by decide
  obtain ⟨hn, -⟩ := List.getElem?_eq_some_iff.1 h
  exact hmap n hn r h

/-- An aligned offset in a space of two-word entries is an entry and a part of it. -/
theorem offset_of_part {off : Nat} (h : off % 8 = 0) :
    16 * (off / 16) + (if decide (off % 16 = 8) = true then 8 else 0) = off := by
  simp only [decide_eq_true_eq]
  split <;> omega

theorem part_of_offset (k : Nat) (im : Bool) :
    (16 * k + if im = true then 8 else 0) / 16 = k ∧
      decide ((16 * k + if im = true then 8 else 0) % 16 = 8) = im := by
  cases im with
  | false => exact ⟨by simp, decide_eq_false (by simp)⟩
  | true => exact ⟨by simp only [if_true]; omega, decide_eq_true (by simp only [if_true]; omega)⟩

/-- The location found is valid and has the address. -/
theorem locate_some {z : Sizes} {haddr : BitVec 32} {l : Location} (ha : haddr.toNat % 8 = 0)
    (h : locate z haddr = some l) : l.Valid z ∧ l.address = haddr.toNat := by
  have hpart := offset_of_part (off := haddr.toNat % 2 ^ 28) (by omega)
  simp only [locate] at h
  split at h
  case h_1 hspace =>
    obtain ⟨r, hr, rfl⟩ := Option.map_eq_some_iff.1 h
    have hnum := RegName.number_of_ofNumber hr
    exact ⟨trivial, by simp only [Location.address]; omega⟩
  case h_10 => cases h
  all_goals
    obtain ⟨hv, rfl⟩ := validWhen_eq_some.1 h
    refine ⟨by simp only [Location.Valid]; omega, ?_⟩
    simp only [Location.address, Bool.false_eq_true, if_true, if_false, Nat.add_assoc, hpart]
    omega

/-- The address of a valid location leads to it: the sizes are small enough for the offset to stay
inside the location's space (00_scope.md R5). -/
theorem locate_of_address {z : Sizes} {haddr : BitVec 32} {l : Location} (hz : z.Legal)
    (hv : l.Valid z) (ha : l.address = haddr.toNat) : locate z haddr = some l := by
  obtain ⟨-, hlog, -, hrm, -, hbm, -⟩ := hz
  have hnmax : 2 ^ z.log2nMax ≤ 2 ^ 24 := Nat.pow_le_pow_right (by omega) hlog
  have digits {sp off : Nat} (h : sp * 2 ^ 28 + off = haddr.toNat) (hoff : off < 2 ^ 28) :
      haddr.toNat / 2 ^ 28 = sp ∧ haddr.toNat % 2 ^ 28 = off := by omega
  have hword (n : Nat) : 8 * n / 8 = n := by omega
  have hpart {k : Nat} (im : Bool) (hk : k < 2 ^ 24) :
      (16 * k + if im = true then 8 else 0) < 2 ^ 28 := by split <;> omega
  cases l <;> simp only [Location.Valid, Location.address] at hv ha
  case reg r =>
    have hr := r.number_lt
    obtain ⟨hsp, hoff⟩ := digits (sp := 0) (off := 8 * r.number) (by omega) (by omega)
    simp only [locate, hsp, hoff, hword, RegName.ofNumber_number, Option.map_some]
  case bank hi k im =>
    obtain ⟨hk, him⟩ := part_of_offset k im
    cases hi
    all_goals
      obtain ⟨hsp, hoff⟩ := digits ((Nat.add_assoc ..).symm.trans ha) (hpart im (by omega))
      simp only [Bool.false_eq_true, if_true, if_false] at hsp
      simp only [locate, validWhen_eq_some, hsp, hoff, hk, him, hv, and_self]
  case bm b =>
    obtain ⟨hb, hsize⟩ := hv
    obtain ⟨hsp, hoff⟩ := digits ha (by omega)
    simp only [locate, validWhen_eq_some, hsp, hoff, hsize, and_self]
  case tw e im =>
    obtain ⟨he, him⟩ := part_of_offset e im
    obtain ⟨hsp, hoff⟩ := digits ((Nat.add_assoc ..).symm.trans ha) (hpart im (by omega))
    simp only [locate, validWhen_eq_some, hsp, hoff, he, him, hv, and_self]
  -- the spaces of 64-bit words
  all_goals
    obtain ⟨hsp, hoff⟩ := digits ha (by omega)
    simp only [locate, validWhen_eq_some, hsp, hoff, hword, hv, and_self]

/-- Settles O18: the location found has the address, and the address finds the location. -/
theorem addressMapIsExact : Obligations.AddressMapIsExact := by
  unfold Obligations.AddressMapIsExact
  exact fun _ _ _ hz ha => ⟨locate_some ha, fun ⟨hv, hl⟩ => locate_of_address hz hv hl⟩

/-- Two valid locations with one aligned address are the same. -/
theorem Location.eq_of_address {z : Sizes} {haddr : BitVec 32} {l l' : Location} (hz : z.Legal)
    (hv : l.Valid z) (ha : l.address = haddr.toNat) (hv' : l'.Valid z)
    (ha' : l'.address = haddr.toNat) : l = l' :=
  Option.some.inj ((locate_of_address hz hv ha).symm.trans (locate_of_address hz hv' ha'))

theorem Location.address_aligned {z : Sizes} {l : Location} (hv : l.Valid z) :
    l.address % 8 = 0 := by
  cases l <;> simp only [Location.Valid, Location.address] at hv ⊢
  case bank hi k im => split <;> split <;> omega
  case tw e im => split <;> omega
  all_goals omega

/-- A location is a register exactly when its address is the register's. -/
theorem Location.eq_reg_iff {z : Sizes} {haddr : BitVec 32} {l : Location} {r : RegName}
    (hz : z.Legal) (hv : l.Valid z) (ha : l.address = haddr.toNat) :
    l = .reg r ↔ haddr.toNat = 8 * r.number := by
  constructor
  · rintro rfl
    exact ha.symm
  · exact fun h => Location.eq_of_address hz hv ha (l' := .reg r) trivial h.symm

/-! ## The tests of the port -/

/-- An access that passes the tests of 20_memory.md R72 is performed. -/
theorem State.accepts_of_tests {s : State} {haddr : BitVec 32} {w : Bool} {l : Location}
    (ha : haddr.toNat % 8 = 0) (hl : locate s.sizes haddr = some l) (hdir : l.forbids w = false)
    (hbusy : s.pending.isSome = true → l.allowedWhileBusy w = true)
    (herr : w = true → l = .reg .cmd → s.err = false) : s.accepts haddr w = some l := by
  have hb : (s.busy && !l.allowedWhileBusy w) = false := by
    cases hp : s.pending.isSome <;> simp [State.busy, hp, hbusy]
  have he : (w && decide (l = .reg .cmd) && s.err) = false := by
    cases w <;> by_cases hc : l = .reg .cmd <;> simp [hc, herr]
  simp [State.accepts, ha, hl, hdir, hb, he]

theorem Location.forbids_iff (l : Location) (w : Bool) :
    l.forbids w = true ↔ l.access = if w then .readOnly else .writeOnly := by
  cases w <;> simp [Location.forbids]

/-- The access is one of the three that are allowed while BUSY = 1 (20_memory.md R72 test 4). -/
theorem Location.allowedWhileBusy_iff {z : Sizes} {haddr : BitVec 32} {l : Location} {w : Bool}
    (hz : z.Legal) (hv : l.Valid z) (ha : l.address = haddr.toNat) :
    l.allowedWhileBusy w = true ↔
      (w = false ∧ haddr.toNat = 8 * RegName.status.number) ∨
      (w = false ∧ haddr.toNat = 8 * RegName.errinfo.number) ∨
      (w = true ∧ haddr.toNat = 8 * RegName.sreset.number) := by
  have hreg (r : RegName) : l = .reg r ↔ haddr.toNat = 8 * r.number :=
    Location.eq_reg_iff hz hv ha
  cases w <;> simp [Location.allowedWhileBusy, hreg]

/-- One of the five tests of 20_memory.md R72 is enough for a refusal. -/
theorem State.accepts_of_refuses {s : State} {haddr : BitVec 32} {w : Bool} (hz : s.sizes.Legal)
    (h : s.Refuses haddr w) : s.accepts haddr w = none := by
  refine Option.eq_none_iff_forall_ne_some.2 fun l hacc => ?_
  obtain ⟨halign, hl, hdir, hbusy, herr⟩ := State.accepts_some hacc
  obtain ⟨hv, ha⟩ := locate_some halign hl
  rcases h with hodd | hnone | ⟨l', hv', ha', hforbid⟩ | ⟨hpend, hstatus, herrinfo, hsreset⟩ |
    ⟨hw, hcmd, hset⟩
  · exact hodd halign
  · exact hnone l hv ha
  · obtain rfl := Location.eq_of_address hz hv ha hv' ha'
    simp [(l.forbids_iff w).2 hforbid] at hdir
  · rcases (Location.allowedWhileBusy_iff hz hv ha).1 (hbusy hpend) with h | h | h
    · exact hstatus h
    · exact herrinfo h
    · exact hsreset h
  · simp [herr hw ((Location.eq_reg_iff hz hv ha).2 hcmd)] at hset

/-- Where none of the five tests holds the access is performed on the location addressed. -/
theorem State.exists_accepts_of_not_refuses {s : State} {haddr : BitVec 32} {w : Bool}
    (hz : s.sizes.Legal) (h : ¬ s.Refuses haddr w) :
    ∃ l : Location, l.Valid s.sizes ∧ l.address = haddr.toNat ∧ s.accepts haddr w = some l := by
  simp only [State.Refuses, not_or] at h
  obtain ⟨halign, hsome, hdir, hbusy, herr⟩ := h
  obtain ⟨l, hl⟩ := not_forall.1 hsome
  obtain ⟨hv, ha⟩ := Classical.not_imp.1 hl
  have ha := not_not.1 ha
  have hforbids : l.forbids w = false :=
    Bool.eq_false_iff.2 fun hf => hdir ⟨l, hv, ha, (l.forbids_iff w).1 hf⟩
  refine ⟨l, hv, ha, State.accepts_of_tests (not_not.1 halign)
    (locate_of_address hz hv ha) hforbids (fun hp => ?busy) fun hw hcmd => ?err⟩
  case busy =>
    rw [Location.allowedWhileBusy_iff hz hv ha]
    by_contra hnot
    simp only [not_or] at hnot
    exact hbusy ⟨hp, hnot⟩
  case err =>
    exact Bool.eq_false_iff.2 fun he => herr ⟨hw, (Location.eq_reg_iff hz hv ha).1 hcmd, he⟩

/-! ## Accepted accesses -/

/-- An accepted write is performed: test 3 has shut out the read-only locations. -/
theorem State.exists_portWrite_done {s : State} {haddr : BitVec 32} {l : Location} (d : BitVec 64)
    (hacc : s.accepts haddr true = some l) :
    ∃ t, s.writeLocation d l = some t ∧ s.portWrite haddr d = (t, .done) := by
  obtain ⟨-, -, hdir, -, -⟩ := State.accepts_some hacc
  have hw : (s.writeLocation d l).isSome = true :=
    State.writeLocation_isSome fun h => by simp [(l.forbids_iff true).2 h] at hdir
  obtain ⟨t, ht⟩ := Option.isSome_iff_exists.1 hw
  exact ⟨t, ht, by simp only [State.portWrite, hacc, ht]⟩

/-- An accepted read gives the number the location holds. -/
theorem State.portRead_data {s : State} {haddr : BitVec 32} {l : Location}
    (hacc : s.accepts haddr false = some l) :
    s.portRead haddr = .data (BitVec.ofNat 64 (s.valueAt l)) := by
  obtain ⟨-, -, hdir, -, -⟩ := State.accepts_some hacc
  have hv := State.readLocation_eq (s := s) (l := l) fun h => by
    simp [(l.forbids_iff false).2 h] at hdir
  simp only [State.portRead, hacc, hv]

/-! ## The twiddle ROM (40_numerics.md R127) -/

theorem isFinite_finiteOrZero (v : F64) : isFinite (finiteOrZero v) = true := by
  unfold finiteOrZero
  split
  · assumption
  · decide

theorem isFinite_twiddle (lmax e : Nat) (im : Bool) :
    isFinite (Cplx.part im (twiddle lmax e)) = true := by
  unfold twiddle
  split
  · cases im <;> decide
  · split
    · cases im <;> decide
    · cases im <;> exact isFinite_finiteOrZero _

/-- TW-AXIS at entry NMAX/4. -/
theorem twiddle_quarter {lmax : Nat} (h : 2 ≤ lmax) :
    twiddle lmax (2 ^ lmax / 4) = ⟨fZero, fNegOne⟩ := by
  have hq : 2 ^ lmax / 4 = 2 ^ (lmax - 2) := Nat.pow_div h (by omega)
  have hpos : 2 ^ (lmax - 2) ≠ 0 := by positivity
  rw [hq, twiddle, if_neg hpos, if_pos rfl]

/-- Settles O17: the tests decide whether the access is performed, and the rights of the location
that it can be. -/
theorem portRefusesExactly : Obligations.PortRefusesExactly := by
  unfold Obligations.PortRefusesExactly
  intro s haddr d hz
  have hlog : 2 ≤ s.sizes.log2nMax := hz.1
  refine ⟨fun h => ?writeRefused, fun h => ?writeDone, fun h => ?readRefused, fun h => ?readData,
    fun e im => isFinite_twiddle _ e im, rfl, twiddle_quarter hlog⟩
  case writeRefused => simp only [State.portWrite, State.accepts_of_refuses hz h]
  case writeDone =>
    obtain ⟨l, -, -, hacc⟩ := State.exists_accepts_of_not_refuses hz h
    obtain ⟨t, -, hdone⟩ := State.exists_portWrite_done d hacc
    rw [hdone]
  case readRefused => simp only [State.portRead, State.accepts_of_refuses hz h]
  case readData =>
    obtain ⟨l, hv, ha, hacc⟩ := State.exists_accepts_of_not_refuses hz h
    exact ⟨l, hv, ha, State.portRead_data hacc⟩

/-! ## Writes to a memory (20_memory.md R73, R64) -/

section MemoryWrite

variable {s t : State} {l : Location} {d : BitVec 64}

/-- Byte `i` of a word, as the word's number gives it. -/
theorem extractLsb'_byte (d : BitVec 64) (i : Nat) :
    d.extractLsb' (8 * i) 8 = BitVec.ofNat 8 (d.toNat / 256 ^ i) := by
  apply BitVec.eq_of_toNat_eq
  rw [BitVec.extractLsb'_toNat, BitVec.toNat_ofNat, Nat.shiftRight_eq_div_pow, pow_mul,
    show 2 ^ 8 = 256 from rfl]

/-- A write to a memory location changes memories and nothing else. -/
theorem State.writeLocation_memory (hl : ∀ r, l ≠ .reg r) (hw : s.writeLocation d l = some t) :
    ∃ x0 x1 pv cu rm bm,
      t = { s with x0 := x0, x1 := x1, pv := pv, cu := cu, rm := rm, bm := bm } := by
  rcases State.writeLocation_cases hw with ⟨r, rfl, -⟩ | ⟨hi, k, im, -, rfl⟩ | ⟨k, -, rfl⟩ |
    ⟨k, -, rfl⟩ | ⟨a, -, rfl⟩ | ⟨b, -, rfl⟩
  · exact absurd rfl (hl r)
  · cases hi <;> exact ⟨_, _, _, _, _, _, rfl⟩
  all_goals exact ⟨_, _, _, _, _, _, rfl⟩

/-- The entries that the location does not consist of are as before. -/
theorem State.entry_writeLocation (hl : ∀ r, l ≠ .reg r) (hw : s.writeLocation d l = some t)
    {p : Place} (hp : ¬ l.Holds p) : t.entry p = s.entry p := by
  cases l
  case reg r => exact absurd rfl (hl r)
  case bank hi k im =>
    cases hw
    cases p with
    | bank hi' k' im' =>
      have hne : hi' = hi → ¬ (k' = k ∧ im' = im) := by
        rintro rfl ⟨rfl, rfl⟩
        exact hp rfl
      cases hi <;> cases hi' <;> simp_all [State.entry, Cplx.part_setPart]
    | _ => cases hi <;> rfl
  case bm b =>
    cases hw
    cases p with
    | bm b' =>
      have hout : ¬ (b ≤ b' ∧ b' < b + 8) := fun ⟨h1, h2⟩ =>
        hp ⟨b' - b, by omega, by rw [Nat.add_sub_cancel' h1]⟩
      simp only [State.entry, Memory.get_writeLE, if_neg hout]
    | _ => rfl
  case wm n => cases hw
  case tw e im => cases hw
  -- PV, CU and RM: another place is another memory or another index
  all_goals
    cases hw
    cases p <;> simp_all [State.entry, Location.Holds, Memory.get_set]

/-- The location reads back the word written. -/
theorem State.readLocation_writeLocation (hl : ∀ r, l ≠ .reg r)
    (hw : s.writeLocation d l = some t) : t.readLocation l = some d := by
  cases l
  case reg r => exact absurd rfl (hl r)
  case bank hi k im =>
    cases hw
    cases hi <;> simp [State.readLocation, Cplx.part_setPart]
  case bm b =>
    cases hw
    have hd : d.toNat % 256 ^ 8 = d.toNat := Nat.mod_eq_of_lt d.isLt
    simp only [State.readLocation, Memory.readLE_writeLE, hd, BitVec.ofNat_toNat,
      BitVec.setWidth_eq]
  case wm n => cases hw
  case tw e im => cases hw
  all_goals
    cases hw
    simp [State.readLocation, Memory.get_set]

/-- BM takes the word little-endian (20_memory.md R64). -/
theorem State.get_bm_writeLocation {b i : Nat} (hw : s.writeLocation d (.bm b) = some t)
    (hi : i < 8) : t.bm.get (b + i) = d.extractLsb' (8 * i) 8 := by
  cases hw
  rw [Memory.get_writeLE, if_pos ⟨by omega, by omega⟩, Nat.add_sub_cancel_left, extractLsb'_byte]

theorem State.untouched_writeLocation (hl : ∀ r, l ≠ .reg r) (hw : s.writeLocation d l = some t) :
    Untouched s t noReg l.Holds := by
  have hentry := fun p => State.entry_writeLocation (p := p) hl hw
  obtain ⟨x0, x1, pv, cu, rm, bm, rfl⟩ := State.writeLocation_memory hl hw
  exact { regs := fun r hr _ => State.readReg_congr rfl hr, entries := hentry, sizes := rfl,
          script := rfl, sched := rfl, resp := rfl }

/-- A read-write memory location takes an access in either direction while the slot is empty. -/
theorem State.accepts_memory {haddr : BitVec 32} (hz : s.sizes.Legal) (hp : s.pending = none)
    (hv : l.Valid s.sizes) (ha : l.address = haddr.toNat) (hrw : l.access = .readWrite)
    (hl : ∀ r, l ≠ .reg r) (w : Bool) : s.accepts haddr w = some l := by
  have halign : haddr.toNat % 8 = 0 := ha ▸ Location.address_aligned hv
  exact State.accepts_of_tests halign (locate_of_address hz hv ha)
    (by cases w <;> simp [Location.forbids, hrw]) (by simp [hp]) fun _ h => absurd h (hl _)

end MemoryWrite

/-- Settles O19: the write is accepted before and the read after it, and the frame is that of
`writeLocation`. -/
theorem memoryWriteReadsBack : Obligations.MemoryWriteReadsBack := by
  unfold Obligations.MemoryWriteReadsBack
  intro s haddr l d hz hp hv ha hrw hl
  obtain ⟨t, hw, hdone⟩ :=
    State.exists_portWrite_done d (State.accepts_memory hz hp hv ha hrw hl true)
  have hframe := State.untouched_writeLocation hl hw
  have hread := State.readLocation_writeLocation hl hw
  have hbytes : ∀ b, l = .bm b → ∀ i, i < 8 → t.bm.get (b + i) = d.extractLsb' (8 * i) 8 := by
    rintro b rfl i hi
    exact State.get_bm_writeLocation hw hi
  obtain ⟨x0, x1, pv, cu, rm, bm, rfl⟩ := State.writeLocation_memory hl hw
  have hacc := State.accepts_memory (s := { s with
    x0 := x0, x1 := x1, pv := pv, cu := cu, rm := rm, bm := bm }) hz hp hv ha hrw hl false
  exact ⟨_, hdone, by simp only [State.portRead, hacc, hread], hbytes, hframe, rfl, rfl, rfl, rfl,
    rfl⟩

/-! ## While a command is pending (20_memory.md R74) -/

/-- The agents' side is not part of the block, so a reset may change it too. -/
theorem WasReset.withHost {s t : State} (h : WasReset s t) (script : List HostStep)
    (resp : Option BusResponse) : WasReset s { t with script := script, resp := resp } where
  slot := h.slot
  regs r h1 h2 := by rw [← h.regs r h1 h2]; cases r <;> rfl
  entries p := by rw [← h.entries p]; cases p <;> rfl
  sizes := h.sizes

/-- Settles O22: the HOST's step leaves the block as it is, or resets it. -/
theorem hostCannotDisturbCommand : Obligations.HostCannotDisturbCommand := by
  unfold Obligations.HostCannotDisturbCommand
  intro s w hp
  obtain ⟨u, hu, script, resp, hstep⟩ := State.hostStep_of_pending (s := s) (by simp [hp])
  simp only [hstep]
  rcases hu with rfl | rfl
  · exact .inr ⟨hp, rfl, rfl, rfl, rfl, rfl, fun p => State.entry_congr rfl rfl rfl rfl rfl rfl rfl p⟩
  · exact .inl (s.wasReset_blockReset.withHost script resp)

end Sys2Proof.Machine
end

section
/-!
PROOFS. Command words (30_encoding.md R90 to R99). The decoder is characterised once, on the two
fields of a word: it answers the one well-formed command that has them. Both directions of the round
trip come from that, and with the rows' masks the agreement with the opcode map.
-/

namespace Sys2Proof

/-! ## The decoder on the two fields of a word -/

/-- The operand field of a stage in range meets the zero bits of format S (30_encoding.md R92). -/
theorem decodeS_operandField {s : Nat} (hs : s < 2 ^ 5) (inv : Bool) :
    decodeS (Instr.stage s inv).operandField = .command (.stage s inv) := by
  cases inv with
  | false =>
    rw [show (Instr.stage s false).operandField = s from Nat.zero_add s]
    exact decodeS_eq_command.2 ⟨by omega, by omega,
      congrArg₂ Instr.stage (by omega) (decide_eq_false (by omega)).symm⟩
  | true =>
    rw [show (Instr.stage s true).operandField = 2 ^ 8 + s from rfl]
    exact decodeS_eq_command.2 ⟨by omega, by omega,
      congrArg₂ Instr.stage (by omega) (decide_eq_true (by omega)).symm⟩

/-- What format Z reads has the opcode of the row's command and fills the operand field. -/
theorem fields_of_decodeZ {arg : Nat} {i j : Instr} (h : decodeZ arg j = .command i)
    (hwf : j.wellFormed = true) (hfield : j.operandField = 0) :
    i.wellFormed = true ∧ i.opcode = j.opcode ∧ i.operandField = arg := by
  obtain ⟨rfl, rfl⟩ := decodeZ_eq_command.1 h
  exact ⟨hwf, rfl, hfield⟩

/-- What format S reads is a stage whose two operands make up the operand field. -/
theorem fields_of_decodeS {arg : Nat} {i : Instr} (h : decodeS arg = .command i) :
    i.wellFormed = true ∧ i.opcode = 0x13 ∧ i.operandField = arg := by
  obtain ⟨hhigh, hmid, rfl⟩ := decodeS_eq_command.1 h
  refine ⟨decide_eq_true (Nat.mod_lt _ (by decide)), rfl, ?_⟩
  simp only [Instr.operandField, decide_eq_true_eq]
  split
  · omega
  · omega

/-- Every command the decoder answers is well formed and has the fields that were decoded. -/
theorem fields_of_decodeFields {op arg : Nat} {i : Instr} (ha : arg < 2 ^ 24)
    (h : decodeFields op arg = .command i) :
    i.wellFormed = true ∧ i.opcode = op ∧ i.operandField = arg := by
  unfold decodeFields at h
  split at h
  -- format S
  case h_5 => exact fields_of_decodeS h
  -- format I
  case h_9 | h_12 | h_14 =>
    cases h
    exact ⟨decide_eq_true ha, rfl, rfl⟩
  -- no row
  case h_20 => cases h
  -- format Z
  all_goals exact fields_of_decodeZ h rfl rfl

/-- The decoder answers every well-formed command on its own fields. -/
theorem decodeFields_fields {i : Instr} (h : i.wellFormed = true) :
    decodeFields i.opcode i.operandField = .command i := by
  cases i with
  | stage s inv => exact decodeS_operandField (of_decide_eq_true h) inv
  | _ => rfl

/-! ## The round trip -/

/-- Settles O1: the encoded word has the command's fields, and the decoder answers it on them. -/
theorem decodeOfEncode : Obligations.DecodeOfEncode := by
  unfold Obligations.DecodeOfEncode
  intro i hi
  rw [encode, decode_ofNat i.opcode_lt (Instr.operandField_lt hi), decodeFields_fields hi]

/-- Settles O2: the command has the fields of the word, and a word is its two fields. -/
theorem encodeOfDecode : Obligations.EncodeOfDecode := by
  unfold Obligations.EncodeOfDecode
  intro w i h
  obtain ⟨hwf, hop, harg⟩ := fields_of_decodeFields (Nat.mod_lt _ (by decide)) h
  refine ⟨hwf, ?_⟩
  rw [encode, hop, harg, Nat.div_add_mod', BitVec.ofNat_toNat, BitVec.setWidth_eq]

/-! ## The opcode map -/

/-- 30_encoding.md R99: a word that selects the row decodes to a command of the row's mnemonic. -/
def OpcodeRow.Decodes (r : OpcodeRow) : Prop :=
  ∀ w, r.Selects w → ∃ i, decode w = .command i ∧ i.mnemonic = r.mnemonic

/-- A field of bits that the row's mask covers is fixed by the row's pattern. -/
theorem OpcodeRow.Selects.field {r : OpcodeRow} {w : BitVec 32} (h : r.Selects w) {start len : Nat}
    (hmask : r.mask.extractLsb' start len = BitVec.allOnes len) :
    w.toNat / 2 ^ start % 2 ^ len = r.pattern.toNat / 2 ^ start % 2 ^ len := by
  have hfield : w.extractLsb' start len = r.pattern.extractLsb' start len := by
    rw [← h, BitVec.extractLsb'_and, hmask, BitVec.and_allOnes]
  simpa only [BitVec.extractLsb'_toNat, Nat.shiftRight_eq_div_pow] using
    congrArg BitVec.toNat hfield

/-- A mask that covers the top eight bits fixes the opcode. -/
theorem OpcodeRow.Selects.opcode {r : OpcodeRow} {w : BitVec 32} (h : r.Selects w)
    (hmask : r.mask.extractLsb' 24 8 = BitVec.allOnes 8) :
    w.toNat / 2 ^ 24 = r.pattern.toNat / 2 ^ 24 := by
  have hfield := h.field hmask
  rwa [Nat.mod_eq_of_lt (by omega), Nat.mod_eq_of_lt (by omega)] at hfield

/-- A row of format Z: the pattern is the only word that selects it. -/
theorem OpcodeRow.Decodes.of_formatZ {r : OpcodeRow} (i : Instr) (hmask : r.mask = 0xFFFFFFFF#32)
    (hdec : decode r.pattern = .command i) (hname : i.mnemonic = r.mnemonic) : r.Decodes := by
  intro w hw
  have hpat : w = r.pattern := by
    rw [← hw, hmask]
    exact BitVec.and_allOnes.symm
  exact ⟨i, hpat ▸ hdec, hname⟩

/-- A row of format I: the opcode is fixed and every operand field is a command. -/
theorem OpcodeRow.Decodes.of_formatI {r : OpcodeRow} (f : Nat → Instr)
    (hmask : r.mask = 0xFF000000#32)
    (hdec : ∀ arg, decodeFields (r.pattern.toNat / 2 ^ 24) arg = .command (f arg))
    (hname : ∀ arg, (f arg).mnemonic = r.mnemonic) : r.Decodes := by
  intro w hw
  have hop := hw.opcode (by rw [hmask]; decide)
  exact ⟨f (w.toNat % 2 ^ 24), by rw [decode, hop, hdec], hname _⟩

/-- The row of format S: the opcode and the zero bits are fixed. -/
theorem OpcodeRow.Decodes.of_formatS :
    (⟨"STAGE", 0x13000000, 0xFFFFFEE0⟩ : OpcodeRow).Decodes := by
  intro w hw
  have hop : w.toNat / 2 ^ 24 = 0x13 := hw.opcode (by decide)
  have hhigh : w.toNat / 2 ^ 9 % 2 ^ 15 = 0 := hw.field (by decide)
  have hmid : w.toNat / 2 ^ 5 % 2 ^ 3 = 0 := hw.field (by decide)
  have hdec := decodeS_eq_command (arg := w.toNat % 2 ^ 24).2 ⟨by omega, by omega, rfl⟩
  exact ⟨_, by rw [decode, hop]; exact hdec, rfl⟩

/-- 30_encoding.md R94, row by row. -/
theorem opcodeMap_decodes : ∀ r ∈ opcodeMap, r.Decodes := by
  simp only [opcodeMap, List.forall_mem_cons, List.not_mem_nil, false_implies, implies_true,
    and_true]
  exact ⟨.of_formatZ .nop rfl rfl rfl,
    .of_formatZ .cmul rfl rfl rfl,
    .of_formatZ .bfly rfl rfl rfl,
    .of_formatZ .bitrev rfl rfl rfl,
    .of_formatS,
    .of_formatZ .xscale rfl rfl rfl,
    .of_formatZ .fft rfl rfl rfl,
    .of_formatZ .ifft rfl rfl rfl,
    .of_formatI .npow2 rfl (fun _ => rfl) fun _ => rfl,
    .of_formatZ .pvcfg rfl rfl rfl,
    .of_formatZ .phrst rfl rfl rfl,
    .of_formatI .framew rfl (fun _ => rfl) fun _ => rfl,
    .of_formatZ .phase rfl rfl rfl,
    .of_formatI .ola rfl (fun _ => rfl) fun _ => rfl,
    .of_formatZ .resamp rfl rfl rfl,
    .of_formatZ .wavhdr rfl rfl rfl,
    .of_formatZ .pcmdec rfl rfl rfl,
    .of_formatZ .wavhdrw rfl rfl rfl,
    .of_formatZ .pcmenc rfl rfl rfl⟩

/-- No two rows share a mnemonic. -/
theorem opcodeMap_mnemonic_injective :
    ∀ r ∈ opcodeMap, ∀ r' ∈ opcodeMap, r.mnemonic = r'.mnemonic → r = r' := by decide

/-- Every command's word selects the row of its mnemonic. -/
theorem selectsOwnRow (i : Instr) : Laws.SelectsOwnRow.Statement i :=
  match i with
  | .nop => Laws.SelectsOwnRow.nop
  | .cmul => Laws.SelectsOwnRow.cmul
  | .bfly => Laws.SelectsOwnRow.bfly
  | .bitrev => Laws.SelectsOwnRow.bitrev
  | .stage s inv => Laws.SelectsOwnRow.stage s inv
  | .xscale => Laws.SelectsOwnRow.xscale
  | .fft => Laws.SelectsOwnRow.fft
  | .ifft => Laws.SelectsOwnRow.ifft
  | .npow2 n => Laws.SelectsOwnRow.npow2 n
  | .pvcfg => Laws.SelectsOwnRow.pvcfg
  | .phrst => Laws.SelectsOwnRow.phrst
  | .framew n => Laws.SelectsOwnRow.framew n
  | .phase => Laws.SelectsOwnRow.phase
  | .ola n => Laws.SelectsOwnRow.ola n
  | .resamp => Laws.SelectsOwnRow.resamp
  | .wavhdr => Laws.SelectsOwnRow.wavhdr
  | .pcmdec => Laws.SelectsOwnRow.pcmdec
  | .wavhdrw => Laws.SelectsOwnRow.wavhdrw
  | .pcmenc => Laws.SelectsOwnRow.pcmenc

/-- Settles O3: two rows selected by one word have the mnemonic of the one command it decodes to,
and the word of a command, which is its encoding, selects the command's row. -/
theorem decodeFollowsOpcodeMap : Obligations.DecodeFollowsOpcodeMap := by
  unfold Obligations.DecodeFollowsOpcodeMap
  refine ⟨fun w r hr r' hr' hw hw' => ?disjoint, fun w i h => ?row,
    fun w r hr => opcodeMap_decodes r hr w⟩
  case disjoint =>
    obtain ⟨i, hi, hname⟩ := opcodeMap_decodes r hr w hw
    obtain ⟨i', hi', hname'⟩ := opcodeMap_decodes r' hr' w hw'
    obtain rfl : i = i' := Decoded.command.inj (hi.symm.trans hi')
    exact opcodeMap_mnemonic_injective r hr r' hr' (hname.symm.trans hname')
  case row =>
    obtain ⟨hwf, rfl⟩ := encodeOfDecode w i h
    obtain ⟨-, r, hr, hname, hsel⟩ := selectsOwnRow i hwf
    exact ⟨r, hr, hsel, hname⟩

/-! ## The example words -/

/-- Settles O4: each word is evaluated. -/
theorem sampleCommandWords : Obligations.SampleCommandWords := by
  unfold Obligations.SampleCommandWords
  exact ⟨by decide, by decide, by decide, by decide, by decide, by decide, by decide, by decide⟩

end Sys2Proof
end

section
/-!
PROOFS. What the operations of 40_numerics.md answer, by the kind of their operands: negation and
magnitude (R113), the comparisons (R120), and each operation at NaNs, infinities and finite values (R111,
R112, R114).
-/

namespace Sys2Proof.Machine

/-! ## Kinds of patterns -/

/-- Every pattern is a NaN, an infinity or finite (40_numerics.md R110). -/
theorem isNaN_or_isInf_or_isFinite (a : F64) :
    isNaN a = true ∨ isInf a = true ∨ isFinite a = true := by
  simp only [isNaN, isInf, isFinite, decide_eq_true_eq]
  omega

theorem isInf_of_isNaN {a : F64} (h : isNaN a = true) : isInf a = false := by
  simp only [isNaN, isInf, decide_eq_true_eq, decide_eq_false_iff_not] at *; omega

theorem isZero_of_isNaN {a : F64} (h : isNaN a = true) : isZero a = false := by
  simp only [isNaN, isZero, decide_eq_true_eq, decide_eq_false_iff_not] at *; omega

theorem isFinite_of_not_isNaN {a : F64} (hN : isNaN a = false) (hI : isInf a = false) :
    isFinite a = true := by
  simp only [isNaN, isInf, isFinite, decide_eq_true_eq, decide_eq_false_iff_not] at *; omega

theorem isNaN_of_isZero {a : F64} (h : isZero a = true) : isNaN a = false :=
  isNaN_of_isFinite (isFinite_of_isZero h)

theorem isInf_of_isZero {a : F64} (h : isZero a = true) : isInf a = false :=
  isInf_of_isFinite (isFinite_of_isZero h)

/-- Infinities differ in their sign only. -/
theorem eq_of_isInf {a b : F64} (ha : isInf a = true) (hb : isInf b = true)
    (hs : fsign a = fsign b) : a = b := by
  rw [← pack_of_isInf ha, ← pack_of_isInf hb, hs]

/-! ## Negation and magnitude (40_numerics.md R113) -/

theorem fneg_of_isNaN {a : F64} (h : isNaN a = true) : fneg a = canonNaN := if_pos h

theorem fabs_of_isNaN {a : F64} (h : isNaN a = true) : fabs a = canonNaN := if_pos h

theorem fabs_of_not_isNaN {a : F64} (h : isNaN a = false) : fabs a = pack false (fmag a) :=
  if_neg (by simp [h])

theorem fsign_eq_msb (a : F64) : fsign a = a.msb := (BitVec.msb_eq_decide a).symm

theorem fmag_eq_setWidth (a : F64) : fmag a = (a.setWidth 63).toNat :=
  (BitVec.toNat_setWidth 63 a).symm

/-- The negation inverts the sign bit. -/
theorem fneg_eq_xor {a : F64} (h : isNaN a = false) : fneg a = a ^^^ 0x8000000000000000#64 := by
  apply ext_pattern
  · rw [fsign_fneg h, fsign_eq_msb, fsign_eq_msb, BitVec.msb_xor,
      show (0x8000000000000000#64).msb = true by decide, Bool.xor_true]
  · rw [fmag_fneg h, fmag_eq_setWidth, fmag_eq_setWidth, BitVec.setWidth_xor,
      show (0x8000000000000000#64).setWidth 63 = 0#63 by decide, BitVec.xor_zero]

/-- The magnitude clears the sign bit. -/
theorem fabs_eq_and {a : F64} (h : isNaN a = false) : fabs a = a &&& 0x7FFFFFFFFFFFFFFF#64 := by
  rw [fabs_of_not_isNaN h]
  apply ext_pattern
  · rw [fsign_pack (fmag_lt a), fsign_eq_msb, BitVec.msb_and,
      show (0x7FFFFFFFFFFFFFFF#64).msb = false by decide, Bool.and_false]
  · rw [fmag_pack (fmag_lt a), fmag_eq_setWidth, fmag_eq_setWidth, BitVec.setWidth_and,
      show (0x7FFFFFFFFFFFFFFF#64).setWidth 63 = BitVec.allOnes 63 by decide, BitVec.and_allOnes]

@[simp] theorem isInf_fneg_eq (a : F64) : isInf (fneg a) = isInf a := by
  by_cases h : isNaN a = true
  · rw [isInf_of_isNaN h, isInf_of_isNaN (by rw [isNaN_fneg, h])]
  · exact isInf_fneg (eq_false_of_ne_true h)

@[simp] theorem isZero_fneg (a : F64) : isZero (fneg a) = isZero a := by
  by_cases h : isNaN a = true
  · rw [isZero_of_isNaN h, isZero_of_isNaN (by rw [isNaN_fneg, h])]
  · simp only [isZero, fmag_fneg (eq_false_of_ne_true h)]

/-! ## Comparisons (40_numerics.md R120) -/

theorem flt_iff {a b : F64} (ha : isNaN a = false) (hb : isNaN b = false) :
    flt a b = true ↔ fkey a < fkey b := by
  simp [flt, ha, hb]

theorem fle_iff {a b : F64} (ha : isNaN a = false) (hb : isNaN b = false) :
    fle a b = true ↔ fkey a ≤ fkey b := by
  simp [fle, ha, hb]

theorem feq_iff {a b : F64} (ha : isNaN a = false) (hb : isNaN b = false) :
    feq a b = true ↔ fkey a = fkey b := by
  simp [feq, ha, hb]

theorem compare_of_isNaN {a b : F64} (h : isNaN a = true ∨ isNaN b = true) :
    flt a b = false ∧ fle a b = false ∧ feq a b = false := by
  rcases h with h | h <;> simp [flt, fle, feq, h]

/-- Comparable values are not NaNs. -/
theorem not_isNaN_of_fle {a b : F64} (h : fle a b = true) : isNaN a = false ∧ isNaN b = false := by
  simp only [fle, Bool.and_eq_true, Bool.not_eq_true'] at h
  exact h.1

theorem extendedValue_lt {a b : F64} (ha : isNaN a = false) (hb : isNaN b = false) :
    extendedValue a < extendedValue b ↔ fkey a < fkey b := by
  rw [← not_le, extendedValue_le hb ha, not_le]

theorem extendedValue_eq {a b : F64} (ha : isNaN a = false) (hb : isNaN b = false) :
    extendedValue a = extendedValue b ↔ fkey a = fkey b := by
  rw [le_antisymm_iff, extendedValue_le ha hb, extendedValue_le hb ha, ← le_antisymm_iff]

/-- Negation reverses the order. -/
theorem fle_fneg {a b : F64} (h : fle a b = true) : fle (fneg b) (fneg a) = true := by
  obtain ⟨ha, hb⟩ := not_isNaN_of_fle h
  rw [fle_iff ha hb] at h
  rw [fle_iff (by rw [isNaN_fneg, hb]) (by rw [isNaN_fneg, ha]), fkey_fneg ha, fkey_fneg hb]
  omega

/-! ## A NaN operand (40_numerics.md R111) -/

section NaN

variable {a b : F64} (h : isNaN a = true ∨ isNaN b = true)
include h

theorem isNaN_or_eq_true : (isNaN a || isNaN b) = true := by
  rwa [Bool.or_eq_true]

theorem fadd_of_isNaN : fadd a b = canonNaN := by
  rw [fadd, if_pos (isNaN_or_eq_true h)]

theorem fsub_of_isNaN : fsub a b = canonNaN :=
  fadd_of_isNaN (by rwa [isNaN_fneg])

theorem fmul_of_isNaN : fmul a b = canonNaN := by
  rw [fmul]
  exact if_pos (isNaN_or_eq_true h)

theorem fdiv_of_isNaN : fdiv a b = canonNaN := by
  rw [fdiv]
  exact if_pos (isNaN_or_eq_true h)

theorem fmod_of_isNaN : fmod a b = canonNaN := by
  rw [fmod, if_pos (by rw [isNaN_or_eq_true h]; rfl)]

end NaN

/-! ## Two infinities -/

section Infinities

variable {a b : F64} (ha : isInf a = true) (hb : isInf b = true)
include ha hb

theorem fadd_of_isInf : fadd a b = if fsign a = fsign b then a else canonNaN := by
  rw [fadd]
  simp only [isNaN_of_isInf ha, isNaN_of_isInf hb, ha, hb, pack_of_isInf]
  cases fsign a <;> cases fsign b <;> rfl

theorem fsub_of_isInf : fsub a b = if fsign a = fsign b then canonNaN else a := by
  rw [fsub, fadd_of_isInf ha (by rwa [isInf_fneg_eq]), fsign_fneg (isNaN_of_isInf hb)]
  cases fsign a <;> cases fsign b <;> rfl

theorem fdiv_of_isInf : fdiv a b = canonNaN := by
  rw [fdiv]
  simp [isNaN_of_isInf ha, isNaN_of_isInf hb, ha, hb]

end Infinities

/-- The product of an infinity and a value that is not zero is an infinity. -/
theorem fmul_of_isInf {a b : F64} (ha : isInf a = true) (hb : isNaN b = false) :
    fmul a b = if isZero b then canonNaN else pack (fsign a != fsign b) infMag := by
  rw [fmul]
  simp [isNaN_of_isInf ha, hb, ha, isZero_of_isInf ha]

/-- The remainder of an infinity does not exist (40_numerics.md R114). -/
theorem fmod_of_isInf_left {a b : F64} (ha : isInf a = true) : fmod a b = canonNaN := by
  rw [fmod]
  simp [ha]

/-- There is no remainder modulo zero (40_numerics.md R114). -/
theorem fmod_of_isZero_right {a b : F64} (hb : isZero b = true) : fmod a b = canonNaN := by
  rw [fmod]
  simp [hb]

/-! ## An infinity and a finite value -/

section InfinityFinite

variable {a b : F64} (ha : isInf a = true) (hb : isFinite b = true)
include ha hb

theorem fadd_isInf_isFinite : fadd a b = a := by
  rw [fadd]
  simp [isNaN_of_isInf ha, isNaN_of_isFinite hb, ha, isInf_of_isFinite hb, pack_of_isInf]

theorem fadd_isFinite_isInf : fadd b a = a := by
  rw [fadd]
  simp [isNaN_of_isInf ha, isNaN_of_isFinite hb, ha, isInf_of_isFinite hb, pack_of_isInf]

theorem fsub_isInf_isFinite : fsub a b = a :=
  fadd_isInf_isFinite ha (by rwa [isFinite_fneg])

theorem fsub_isFinite_isInf : fsub b a = fneg a :=
  fadd_isFinite_isInf (by rwa [isInf_fneg_eq]) hb

theorem fdiv_isInf_isFinite : fdiv a b = pack (fsign a != fsign b) infMag := by
  rw [fdiv]
  simp [isNaN_of_isInf ha, isNaN_of_isFinite hb, ha, isInf_of_isFinite hb]

theorem fdiv_isFinite_isInf : fdiv b a = pack (fsign b != fsign a) 0 := by
  rw [fdiv]
  simp [isNaN_of_isInf ha, isNaN_of_isFinite hb, ha, isInf_of_isFinite hb]

theorem fmod_isFinite_isInf : fmod b a = b := by
  rw [fmod]
  simp [isNaN_of_isInf ha, isNaN_of_isFinite hb, ha, isInf_of_isFinite hb, isZero_of_isInf ha]

end InfinityFinite

/-! ## Two finite values -/

section Finite

variable {a b : F64} (ha : isFinite a = true) (hb : isFinite b = true)
include ha hb

theorem fadd_of_isFinite : fadd a b =
    if fval a + fval b = 0 then pack (fsign a && fsign b) 0
    else round64 (decide (fval a + fval b < 0)) (fval a + fval b).natAbs 1 := by
  rw [fadd]
  simp [isNaN_of_isFinite ha, isNaN_of_isFinite hb, isInf_of_isFinite ha, isInf_of_isFinite hb]

theorem fmul_of_isFinite :
    fmul a b = round64 (fsign a != fsign b) (funits a * funits b) oneUnits := by
  rw [fmul]
  simp [isNaN_of_isFinite ha, isNaN_of_isFinite hb, isInf_of_isFinite ha, isInf_of_isFinite hb]

theorem fdiv_of_isFinite (hz : isZero b = false) :
    fdiv a b = round64 (fsign a != fsign b) (funits a * oneUnits) (funits b) := by
  rw [fdiv]
  simp [isNaN_of_isFinite ha, isNaN_of_isFinite hb, isInf_of_isFinite ha, isInf_of_isFinite hb, hz]

theorem fdiv_of_isZero (hz : isZero b = true) :
    fdiv a b = if isZero a then canonNaN else pack (fsign a != fsign b) infMag := by
  rw [fdiv]
  simp [isNaN_of_isFinite ha, isNaN_of_isFinite hb, isInf_of_isFinite ha, isInf_of_isFinite hb, hz]

theorem fmod_of_isFinite (hz : isZero b = false) :
    fmod a b = round64 (fsign a) (funits a % funits b) 1 := by
  rw [fmod]
  simp [isNaN_of_isFinite ha, isNaN_of_isFinite hb, isInf_of_isFinite ha, isInf_of_isFinite hb, hz]

end Finite

/-! ## Commutation -/

theorem fadd_comm (a b : F64) : fadd a b = fadd b a := by
  rcases isNaN_or_isInf_or_isFinite a with ha | ha | ha
  · rw [fadd_of_isNaN (.inl ha), fadd_of_isNaN (.inr ha)]
  · rcases isNaN_or_isInf_or_isFinite b with hb | hb | hb
    · rw [fadd_of_isNaN (.inr hb), fadd_of_isNaN (.inl hb)]
    · rw [fadd_of_isInf ha hb, fadd_of_isInf hb ha]
      by_cases hs : fsign a = fsign b
      · rw [if_pos hs, if_pos hs.symm, eq_of_isInf ha hb hs]
      · rw [if_neg hs, if_neg (Ne.symm hs)]
    · rw [fadd_isInf_isFinite ha hb, fadd_isFinite_isInf ha hb]
  · rcases isNaN_or_isInf_or_isFinite b with hb | hb | hb
    · rw [fadd_of_isNaN (.inr hb), fadd_of_isNaN (.inl hb)]
    · rw [fadd_isFinite_isInf hb ha, fadd_isInf_isFinite hb ha]
    · rw [fadd_of_isFinite ha hb, fadd_of_isFinite hb ha, add_comm, Bool.and_comm]

theorem fmul_comm (a b : F64) : fmul a b = fmul b a := by
  rw [fmul, fmul, bne_comm, Bool.or_comm (isNaN a), Bool.or_comm (isInf a), Bool.or_comm (isZero a),
    Nat.mul_comm]

/-- The two products of each part change places, or their factors do (40_numerics.md R124). -/
theorem cmul_comm (a b : Cplx) : cmul a b = cmul b a := by
  rw [cmul, cmul, fmul_comm a.re, fmul_comm a.im, fadd_comm, fmul_comm a.im, fmul_comm a.re]

/-- Settles O27: negation and magnitude change one bit, and the comparisons compare a key that is
ordered as the values are. -/
theorem arithmeticCommutes : Obligations.ArithmeticCommutes := by
  unfold Obligations.ArithmeticCommutes
  refine ⟨fadd_comm, fmul_comm, cmul_comm, fun _ _ _ _ => rfl, fun a => ⟨fun h => ?nan, fun h => ?bits⟩,
    fun _ _ => compare_of_isNaN, fun a b ha hb => ?order⟩
  case nan => exact ⟨fneg_of_isNaN h, fabs_of_isNaN h⟩
  case bits => exact ⟨fneg_eq_xor h, fabs_eq_and h⟩
  case order =>
    rw [flt_iff ha hb, fle_iff ha hb, feq_iff ha hb, extendedValue_lt ha hb, extendedValue_le ha hb,
      extendedValue_eq ha hb]
    exact ⟨Iff.rfl, Iff.rfl, Iff.rfl⟩

end Sys2Proof.Machine
end

section
/-!
PROOFS. The exact named properties of the cosine, the sine, the angle and the modulus (40_numerics.md
R128 to R131): each function is read off at one kind of operand at a time, and the free values lie in
their named ranges.
-/

namespace Sys2Proof.Machine

/-! ## Ranges -/

theorem fle_fNegOne_fZero : fle fNegOne fZero = true := by decide

theorem fle_fZero_fOne : fle fZero fOne = true := by decide

theorem fneg_fOne : fneg fOne = fNegOne := by decide

/-- A free value kept inside a range is not a NaN. -/
theorem isNaN_within {lo hi : F64} (h : fle lo fZero = true) (h' : fle fZero hi = true) (v : F64) :
    isNaN (within lo hi v) = false :=
  (not_isNaN_of_fle (within_mem h h' v).2).1

/-- A symmetric range is closed under adding a sign. -/
theorem withSign_mem {hi v : F64} (hhi : isNaN hi = false)
    (h : fle (fneg hi) v = true ∧ fle v hi = true) (s : Bool) :
    fle (fneg hi) (withSign s v) = true ∧ fle (withSign s v) hi = true := by
  cases s with
  | false => exact h
  | true =>
    have hneg := fle_fneg h.1
    rw [fneg_fneg hhi] at hneg
    exact ⟨fle_fneg h.2, hneg⟩

/-- Adding the other sign is the negation. -/
theorem withSign_not {v : F64} (h : isNaN v = false) (s : Bool) :
    withSign (!s) v = fneg (withSign s v) := by
  cases s with
  | false => rfl
  | true => exact (fneg_fneg h).symm

theorem withSign_fZero (s : Bool) : withSign s fZero = pack s 0 := by
  cases s <;> decide

theorem fneg_canonNaN : fneg canonNaN = canonNaN := by decide

/-! ## The cosine and the sine (40_numerics.md R128, R129) -/

section Trigonometric

variable {x : F64}

theorem cfgCos_of_not_isFinite (h : isFinite x = false) : cfgCos x = canonNaN := by
  simp [cfgCos, h]

theorem cfgSin_of_not_isFinite (h : isFinite x = false) : cfgSin x = canonNaN := by
  simp [cfgSin, h]

theorem cfgCos_of_isZero (h : isZero x = true) : cfgCos x = fOne := by
  simp [cfgCos, h, isFinite_of_isZero h]

theorem cfgSin_of_isZero (h : isZero x = true) : cfgSin x = x := by
  simp [cfgSin, h, isFinite_of_isZero h]

/-- The cosine off zero: −1 at the magnitude of PI, elsewhere a free value of the magnitude. -/
theorem cfgCos_of_isFinite (h : isFinite x = true) (hz : isZero x = false) :
    cfgCos x = if fmag x = fmag fPi then fNegOne
      else within fNegOne fOne (Config.cosFree (fabs x)) := by
  simp [cfgCos, h, hz]

/-- The sine off zero: a free value of the magnitude, with the sign of the operand. -/
theorem cfgSin_of_isFinite (h : isFinite x = true) (hz : isZero x = false) :
    cfgSin x = withSign (fsign x) (within fNegOne fOne (Config.sinFree (fabs x))) := by
  simp [cfgSin, h, hz]

/-- COS-RANGE. -/
theorem cfgCos_mem (h : isFinite x = true) :
    fle fNegOne (cfgCos x) = true ∧ fle (cfgCos x) fOne = true := by
  cases hz : isZero x with
  | true => rw [cfgCos_of_isZero hz]; decide
  | false =>
    rw [cfgCos_of_isFinite h hz]
    split
    · decide
    · exact within_mem fle_fNegOne_fZero fle_fZero_fOne _

/-- SIN-RANGE at a zero. -/
theorem fle_of_isZero (hz : isZero x = true) : fle fNegOne x = true ∧ fle x fOne = true := by
  have hm : fmag x = 0 := by simpa [isZero] using hz
  rw [← pack_fsign_fmag x, hm]
  cases fsign x <;> decide

/-- SIN-RANGE. -/
theorem cfgSin_mem (h : isFinite x = true) :
    fle fNegOne (cfgSin x) = true ∧ fle (cfgSin x) fOne = true := by
  cases hz : isZero x with
  | true => rw [cfgSin_of_isZero hz]; exact fle_of_isZero hz
  | false =>
    rw [cfgSin_of_isFinite h hz, ← fneg_fOne]
    refine withSign_mem (by decide) ?_ _
    rw [fneg_fOne]
    exact within_mem fle_fNegOne_fZero fle_fZero_fOne _

/-- COS-EVEN: the cosine depends on the magnitude alone. -/
theorem cfgCos_fneg (x : F64) : cfgCos (fneg x) = cfgCos x := by
  cases h : isFinite x with
  | false => rw [cfgCos_of_not_isFinite h, cfgCos_of_not_isFinite (by rw [isFinite_fneg, h])]
  | true =>
    cases hz : isZero x with
    | true => rw [cfgCos_of_isZero hz, cfgCos_of_isZero (by rw [isZero_fneg, hz])]
    | false =>
      rw [cfgCos_of_isFinite h hz,
        cfgCos_of_isFinite (by rw [isFinite_fneg, h]) (by rw [isZero_fneg, hz]),
        fmag_fneg (isNaN_of_isFinite h), fabs_fneg]

/-- SIN-ODD: the sine takes its sign from the operand. -/
theorem cfgSin_fneg (x : F64) : cfgSin (fneg x) = fneg (cfgSin x) := by
  cases h : isFinite x with
  | false =>
    rw [cfgSin_of_not_isFinite h, cfgSin_of_not_isFinite (by rw [isFinite_fneg, h]), fneg_canonNaN]
  | true =>
    cases hz : isZero x with
    | true => rw [cfgSin_of_isZero hz, cfgSin_of_isZero (by rw [isZero_fneg, hz])]
    | false =>
      rw [cfgSin_of_isFinite h hz,
        cfgSin_of_isFinite (by rw [isFinite_fneg, h]) (by rw [isZero_fneg, hz]),
        fsign_fneg (isNaN_of_isFinite h), fabs_fneg,
        withSign_not (isNaN_within fle_fNegOne_fZero fle_fZero_fOne _)]

end Trigonometric

/-- COS-PI. -/
theorem cfgCos_fPi : cfgCos fPi = fNegOne := by
  rw [cfgCos_of_isFinite (by decide) (by decide), if_pos rfl]

/-- Settles O28: one named property after the other. -/
theorem cosineAndSineProperties : Obligations.CosineAndSineProperties := by
  unfold Obligations.CosineAndSineProperties
  intro x
  refine ⟨fun h => ⟨cfgCos_of_not_isFinite h, cfgSin_of_not_isFinite h⟩,
    fun h => ⟨cfgCos_of_isZero h, cfgSin_of_isZero h⟩, fun h => ?range, cfgCos_fneg x, cfgSin_fneg x,
    cfgCos_fPi⟩
  case range =>
    obtain ⟨cosLow, cosHigh⟩ := cfgCos_mem h
    exact ⟨cosLow, cosHigh, cfgSin_mem h⟩

/-! ## The angle (40_numerics.md R130) -/

section Angle

variable {re im : F64}

/-- ARG-NAN. -/
theorem cfgArg_of_isNaN (h : isNaN re = true ∨ isNaN im = true) : cfgArg re im = canonNaN :=
  if_pos (isNaN_or_eq_true h)

/-- ARG-AXIS with two infinite parts: an odd quarter of PI. -/
theorem cfgArg_of_isInf (hre : isInf re = true) (him : isInf im = true) :
    cfgArg re im = withSign (fsign im)
      (if fsign re then fmul fThree (fdiv fPi fFour) else fdiv fPi fFour) := by
  simp [cfgArg, isNaN_of_isInf hre, isNaN_of_isInf him, hre, him]

/-- ARG-AXIS along the real axis: the real part is infinite or the imaginary part is a zero. -/
theorem cfgArg_real (hre : isNaN re = false) (him : isFinite im = true)
    (h : isInf re = true ∨ isZero im = true) :
    cfgArg re im = withSign (fsign im) (if fsign re then fPi else fZero) := by
  have hcond : (isInf re || isZero im) = true := by rwa [Bool.or_eq_true]
  simp [cfgArg, hre, isNaN_of_isFinite him, isInf_of_isFinite him, hcond]

/-- ARG-AXIS along the imaginary axis: the imaginary part is infinite or the real part is a zero. -/
theorem cfgArg_imaginary (hre : isFinite re = true) (him : isNaN im = false) (hz : isZero im = false)
    (h : isInf im = true ∨ isZero re = true) :
    cfgArg re im = withSign (fsign im) (fdiv fPi fTwo) := by
  have hI := isInf_of_isFinite hre
  have hN := isNaN_of_isFinite hre
  rcases h with h | h
  · simp [cfgArg, hN, him, hI, h]
  · cases him' : isInf im with
    | true => simp [cfgArg, hN, him, hI, him']
    | false => simp [cfgArg, hN, him, hI, him', hz, h]

/-- Off the axes the angle is a free value in range. -/
theorem cfgArg_off_axes (hre : isFinite re = true) (him : isFinite im = true)
    (hzre : isZero re = false) (hzim : isZero im = false) :
    cfgArg re im = within (fneg fPi) fPi (Config.argFree re im) := by
  simp [cfgArg, isNaN_of_isFinite hre, isNaN_of_isFinite him, isInf_of_isFinite hre,
    isInf_of_isFinite him, hzre, hzim]

/-- The angle along the negative real axis is PI with the sign of the imaginary part. -/
theorem cfgArg_negative (hre : isNaN re = false) (him : isFinite im = true)
    (h : isInf re = true ∨ isZero im = true) (hs : fsign re = true) :
    cfgArg re im = if fsign im then fneg fPi else fPi := by
  rw [cfgArg_real hre him h, hs]; rfl

/-- The angle along the positive real axis is zero with the sign of the imaginary part. -/
theorem cfgArg_positive (hre : isNaN re = false) (him : isFinite im = true)
    (h : isInf re = true ∨ isZero im = true) (hs : fsign re = false) :
    cfgArg re im = pack (fsign im) 0 := by
  rw [cfgArg_real hre him h, hs]; exact withSign_fZero _

/-- The angles of ARG-AXIS: a half, a quarter and three quarters of PI, each rounded as the rule says. -/
theorem axisAngles : fdiv fPi fTwo = 0x3FF921FB54442D18#64 ∧ fdiv fPi fFour = 0x3FE921FB54442D18#64 ∧
    fmul fThree (fdiv fPi fFour) = 0x4002D97C7F3321D2#64 := by decide +kernel

/-- ARG-RANGE. -/
theorem cfgArg_mem (hre : isNaN re = false) (him : isNaN im = false) :
    fle (fneg fPi) (cfgArg re im) = true ∧ fle (cfgArg re im) fPi = true := by
  have hPi : isNaN fPi = false := by decide
  obtain ⟨half, quarter, threeQuarters⟩ := axisAngles
  cases hI : isInf im with
  | true =>
    cases hR : isInf re with
    | true =>
      rw [cfgArg_of_isInf hR hI, threeQuarters, quarter]
      exact withSign_mem hPi (by cases fsign re <;> decide) _
    | false =>
      rw [cfgArg_imaginary (isFinite_of_not_isNaN hre hR) him (isZero_of_isInf hI) (.inl hI), half]
      exact withSign_mem hPi (by decide) _
  | false =>
    have hfin := isFinite_of_not_isNaN him hI
    by_cases hreal : isInf re = true ∨ isZero im = true
    · rw [cfgArg_real hre hfin hreal]
      exact withSign_mem hPi (by cases fsign re <;> decide) _
    · rw [not_or, Bool.not_eq_true, Bool.not_eq_true] at hreal
      obtain ⟨hR, hz⟩ := hreal
      have hfinRe := isFinite_of_not_isNaN hre hR
      cases hzre : isZero re with
      | true =>
        rw [cfgArg_imaginary hfinRe him hz (.inr hzre), half]
        exact withSign_mem hPi (by decide) _
      | false =>
        rw [cfgArg_off_axes hfinRe hfin hzre hz]
        exact within_mem (by decide) (by decide) _

end Angle

/-! ## The modulus (40_numerics.md R131) -/

section Modulus

variable {re im : F64}

/-- MAG-INF. -/
theorem cfgMag_of_isInf (h : isInf re = true ∨ isInf im = true) : cfgMag re im = pack false infMag :=
  if_pos (by rwa [Bool.or_eq_true])

/-- MAG-NAN. -/
theorem cfgMag_of_isNaN (hre : isInf re = false) (him : isInf im = false)
    (h : isNaN re = true ∨ isNaN im = true) : cfgMag re im = canonNaN := by
  rw [cfgMag, if_neg (by simp [hre, him]), if_pos (isNaN_or_eq_true h)]

/-- The magnitude of an infinity is +∞. -/
theorem fabs_of_isInf {x : F64} (h : isInf x = true) : fabs x = pack false infMag := by
  rw [fabs_of_not_isNaN (isNaN_of_isInf h), show fmag x = infMag by simpa [isInf] using h]

/-- MAG-AXIS on the real axis. -/
theorem cfgMag_real (hz : isZero im = true) (hre : isNaN re = false) : cfgMag re im = fabs re := by
  cases hR : isInf re with
  | true => rw [cfgMag_of_isInf (.inl hR), fabs_of_isInf hR]
  | false => simp [cfgMag, hR, isInf_of_isZero hz, hre, isNaN_of_isZero hz, hz]

/-- The modulus of finite values off the axes, by the larger magnitude. -/
theorem cfgMag_off_axes (hre : isFinite re = true) (him : isFinite im = true)
    (hzre : isZero re = false) (hzim : isZero im = false) :
    cfgMag re im = if fmag im ≤ fmag re then modulusValue (Config.magFree (fabs re) (fabs im))
      else modulusValue (Config.magFree (fabs im) (fabs re)) := by
  simp [cfgMag, isNaN_of_isFinite hre, isNaN_of_isFinite him, isInf_of_isFinite hre,
    isInf_of_isFinite him, hzre, hzim]

/-- MAG-AXIS on the imaginary axis. -/
theorem cfgMag_imaginary (hz : isZero re = true) (him : isNaN im = false) :
    cfgMag re im = fabs im := by
  cases hI : isInf im with
  | true => rw [cfgMag_of_isInf (.inr hI), fabs_of_isInf hI]
  | false =>
    cases hzim : isZero im with
    | false => simp [cfgMag, hI, isInf_of_isZero hz, him, isNaN_of_isZero hz, hz, hzim]
    | true =>
      have hm {x : F64} (h : isZero x = true) : fmag x = 0 := by simpa [isZero] using h
      rw [cfgMag_real hzim (isNaN_of_isZero hz), fabs_of_not_isNaN (isNaN_of_isZero hz),
        fabs_of_not_isNaN him, hm hz, hm hzim]

/-- Values of equal magnitude bits have equal magnitudes. -/
theorem fabs_congr {a b : F64} (h : fmag a = fmag b) : fabs a = fabs b := by
  rw [fabs, fabs, isNaN, isNaN, h]

/-- MAG-SYM under swapping: the free value is taken at the larger magnitude first. -/
theorem cfgMag_swap (re im : F64) : cfgMag im re = cfgMag re im := by
  by_cases hI : isInf re = true ∨ isInf im = true
  · rw [cfgMag_of_isInf hI, cfgMag_of_isInf hI.symm]
  rw [not_or, Bool.not_eq_true, Bool.not_eq_true] at hI
  obtain ⟨hIre, hIim⟩ := hI
  by_cases hN : isNaN re = true ∨ isNaN im = true
  · rw [cfgMag_of_isNaN hIre hIim hN, cfgMag_of_isNaN hIim hIre hN.symm]
  rw [not_or, Bool.not_eq_true, Bool.not_eq_true] at hN
  obtain ⟨hNre, hNim⟩ := hN
  cases hzim : isZero im with
  | true => rw [cfgMag_real hzim hNre, cfgMag_imaginary hzim hNre]
  | false =>
    cases hzre : isZero re with
    | true => rw [cfgMag_real hzre hNim, cfgMag_imaginary hzre hNim]
    | false =>
      have hre := isFinite_of_not_isNaN hNre hIre
      have him := isFinite_of_not_isNaN hNim hIim
      rw [cfgMag_off_axes hre him hzre hzim, cfgMag_off_axes him hre hzim hzre]
      rcases Nat.lt_trichotomy (fmag re) (fmag im) with h | h | h
      · rw [if_pos h.le, if_neg h.not_ge]
      · rw [if_pos h.le, if_pos h.ge, fabs_congr h]
      · rw [if_neg h.not_ge, if_pos h.le]

/-- MAG-SYM under negating: the sign of a part is never read. -/
theorem cfgMag_fneg (re im : F64) : cfgMag (fneg re) im = cfgMag re im := by
  by_cases h : isNaN re = true
  · cases hI : isInf im with
    | true => rw [cfgMag_of_isInf (.inr hI), cfgMag_of_isInf (.inr hI)]
    | false =>
      have hre := isInf_of_isNaN h
      rw [cfgMag_of_isNaN hre hI (.inl h),
        cfgMag_of_isNaN (by rw [isInf_fneg_eq, hre]) hI (.inl (by rw [isNaN_fneg, h]))]
  · rw [Bool.not_eq_true] at h
    unfold cfgMag
    rw [isInf_fneg_eq, isNaN_fneg, isZero_fneg, fabs_fneg, fmag_fneg h]

theorem fabs_not_negative {x : F64} (h : isNaN x = false) :
    isNaN (fabs x) = false ∧ fsign (fabs x) = false := by
  rw [fabs_of_not_isNaN h, fsign_pack (fmag_lt x), isNaN, fmag_pack (fmag_lt x)]
  exact ⟨h, rfl⟩

theorem modulusValue_not_negative (v : F64) :
    isNaN (modulusValue v) = false ∧ fsign (modulusValue v) = false := by
  cases h : isNaN v with
  | true => rw [modulusValue, if_pos h]; decide
  | false => rw [modulusValue, if_neg (by simp [h])]; exact fabs_not_negative h

/-- MAG-SIGN, and the modulus of values that are not NaNs is not a NaN. -/
theorem cfgMag_not_negative (hre : isNaN re = false) (him : isNaN im = false) :
    isNaN (cfgMag re im) = false ∧ fsign (cfgMag re im) = false := by
  by_cases hI : isInf re = true ∨ isInf im = true
  · rw [cfgMag_of_isInf hI]; decide
  rw [not_or, Bool.not_eq_true, Bool.not_eq_true] at hI
  obtain ⟨hIre, hIim⟩ := hI
  cases hzim : isZero im with
  | true => rw [cfgMag_real hzim hre]; exact fabs_not_negative hre
  | false =>
    cases hzre : isZero re with
    | true => rw [cfgMag_imaginary hzre him]; exact fabs_not_negative him
    | false =>
      rw [cfgMag_off_axes (isFinite_of_not_isNaN hre hIre) (isFinite_of_not_isNaN him hIim) hzre
        hzim]
      split
      · exact modulusValue_not_negative _
      · exact modulusValue_not_negative _

end Modulus

/-- Settles O29: the angle and the modulus at each kind of operands. -/
theorem angleAndModulusProperties : Obligations.AngleAndModulusProperties := by
  unfold Obligations.AngleAndModulusProperties
  intro re im
  refine ⟨cfgArg_of_isNaN, cfgArg_mem, fun him hre hs => ?positive, fun him hre hs => ?negative,
    fun hre him hz => ?imaginary, fun hre him => ?infiniteReal, fun hre him => ?infiniteImaginary,
    fun hre him => ?quarters, cfgMag_of_isInf, cfgMag_of_isNaN, cfgMag_real, cfgMag_imaginary,
    cfgMag_swap re im, cfgMag_fneg re im, cfgMag_not_negative⟩
  case positive => exact cfgArg_positive hre (isFinite_of_isZero him) (.inr him) hs
  case negative => exact cfgArg_negative hre (isFinite_of_isZero him) (.inr him) hs
  case imaginary => exact cfgArg_imaginary (isFinite_of_isZero hre) him hz (.inr hre)
  case infiniteReal =>
    cases hs : fsign re with
    | false => exact cfgArg_positive (isNaN_of_isInf hre) him (.inl hre) hs
    | true => exact cfgArg_negative (isNaN_of_isInf hre) him (.inl hre) hs
  case infiniteImaginary =>
    exact cfgArg_imaginary hre (isNaN_of_isInf him) (isZero_of_isInf him) (.inl him)
  case quarters => exact cfgArg_of_isInf hre him

end Sys2Proof.Machine
end

section
/-!
PROOFS. Rounding to nearest, ties to even (40_numerics.md R110 to R118): a quotient that lies where an
exact result lies, beside every midpoint of two magnitudes that are near it, rounds to the magnitude
nearest to that result. For the rational operations the quotient is the result; for the square root it
is the half integer beside the root.
-/

namespace Sys2Proof.Machine

/-! ## Quotients beside midpoints -/

/-- The quotient `num / den` and the exact magnitude `x` lie on the same side of the midpoint `S / 2`, or
both on it. -/
structure SameSide (num den : Nat) (x : ℝ) (S : Nat) : Prop where
  /-- not below the midpoint -/
  le_iff : S * den ≤ 2 * num ↔ (S : ℝ) ≤ 2 * x
  /-- on the midpoint -/
  eq_iff : S * den = 2 * num ↔ (S : ℝ) = 2 * x

theorem SameSide.ge_iff {num den S : Nat} {x : ℝ} (h : SameSide num den x S) :
    2 * num ≤ S * den ↔ 2 * x ≤ (S : ℝ) := by
  rw [← not_lt, ← not_lt, lt_iff_le_and_ne, lt_iff_le_and_ne, Ne, Ne, h.le_iff, h.eq_iff]

/-- A quotient lies where its real value lies. -/
theorem sameSide_quotient {num den : Nat} (hd : 0 < den) (S : Nat) :
    SameSide num den ((num : ℝ) / den) S := by
  have hden : (0 : ℝ) < den := by exact_mod_cast hd
  constructor
  · rw [mul_div_assoc', le_div_iff₀ hden]
    exact_mod_cast Iff.rfl
  · rw [mul_div_assoc', eq_div_iff hden.ne']
    exact_mod_cast Iff.rfl

section Format

variable {fb inf E num den : Nat} {x : ℝ}

/-- The exact value at which a format overflows, half a unit in the last place above the largest finite
magnitude (40_numerics.md R111). -/
def overflowUnits (fb E : Nat) : Nat := (2 ^ (fb + 2) - 1) * 2 ^ (E - 3)

theorem overflowUnits_cast (fb E : Nat) :
    (overflowUnits fb E : ℝ) = (2 ^ (fb + 2) - 1) * 2 ^ (E - 3) := by
  rw [overflowUnits, Nat.cast_mul, Nat.cast_pred (Nat.two_pow_pos _)]
  push_cast
  rfl

/-- The midpoint below a result, moved from the quotient to `x`. -/
theorem below_of_sameSide {m n : Nat} {P : Prop}
    (h : (m + n) * den ≤ 2 * num ∧ ((m + n) * den = 2 * num → P))
    (side : SameSide num den x (m + n)) :
    (m : ℝ) + n ≤ 2 * x ∧ ((m : ℝ) + n = 2 * x → P) := by
  obtain ⟨hle, heq⟩ := h
  rw [← Nat.cast_add]
  exact ⟨side.le_iff.1 hle, fun he => heq (side.eq_iff.2 he)⟩

/-- The midpoint above a result, moved from the quotient to `x`. -/
theorem above_of_sameSide {m n : Nat} {P : Prop}
    (h : 2 * num ≤ (m + n) * den ∧ (2 * num = (m + n) * den → P))
    (side : SameSide num den x (m + n)) :
    2 * x ≤ (m : ℝ) + n ∧ (2 * x = (m : ℝ) + n → P) := by
  obtain ⟨hle, heq⟩ := h
  rw [← Nat.cast_add]
  exact ⟨side.ge_iff.1 hle, fun he => heq (side.eq_iff.2 he.symm).symm⟩

/-- The rounded quotient is nearest to every `x` that no relevant midpoint separates from it: those of
neighbours from the one below the result on, and the overflow. -/
theorem nearestEven_roundMag (hfb : 1 ≤ fb) (hE : 3 ≤ E) (hinf : inf = E * 2 ^ fb) (hd : 0 < den)
    (hmid : ∀ k, roundMag fb inf num den ≤ k + 1 →
      SameSide num den x (magUnits fb k + magUnits fb (k + 1)))
    (htop : SameSide num den x (2 * overflowUnits fb E)) :
    NearestEven fb inf x (roundMag fb inf num den) := by
  have hdiv : inf / 2 ^ fb = E := by rw [hinf, Nat.mul_div_cancel _ (Nat.two_pow_pos fb)]
  have near (hlt : roundMag fb inf num den < inf) (m : Nat) := by
    obtain ⟨hbelow, hle, heven⟩ := roundMag_neighbours hfb hd rfl hlt
    exact nearest_of_neighbours (x := x) (fun k hk => below_of_sameSide (hbelow k hk) (hk ▸ hmid k hk.le))
      (above_of_sameSide ⟨hle, heven⟩ (hmid _ (Nat.le_succ _))) m
  refine ⟨roundMag_le _ _, ?overflow, fun hlt m _ => (near hlt m).1, fun hlt m _ => (near hlt m).2⟩
  case overflow =>
    have side := htop.le_iff
    rw [roundMag_eq_inf hE hinf num den hd, hdiv, ← overflowUnits_cast, ← overflowUnits]
    rw [mul_assoc, Nat.mul_le_mul_left_iff (by norm_num), Nat.cast_mul, Nat.cast_ofNat,
      mul_le_mul_iff_right₀ (by norm_num)] at side
    exact side

/-- A rounded quotient is nearest to the quotient. -/
theorem nearestEven_quotient (hfb : 1 ≤ fb) (hE : 3 ≤ E) (hinf : inf = E * 2 ^ fb) (num : Nat)
    (hd : 0 < den) : NearestEven fb inf ((num : ℝ) / den) (roundMag fb inf num den) :=
  nearestEven_roundMag hfb hE hinf hd (fun _ _ => sameSide_quotient hd _) (sameSide_quotient hd _)

end Format

theorem nearestEven_binary64 (num : Nat) {den : Nat} (hd : 0 < den) :
    NearestEven 52 infMag ((num : ℝ) / den) (roundMag 52 infMag num den) :=
  nearestEven_quotient (by norm_num) (by norm_num) infMag_eq num hd

theorem nearestEven_binary32 (num : Nat) {den : Nat} (hd : 0 < den) :
    NearestEven 23 infMag32 ((num : ℝ) / den) (roundMag 23 infMag32 num den) :=
  nearestEven_quotient (by norm_num) (by norm_num) infMag32_eq num hd

theorem oneUnits_cast : (oneUnits : ℝ) = 2 ^ 1074 := by
  rw [oneUnits, Nat.cast_pow, Nat.cast_ofNat]

theorem oneUnits_intCast : (oneUnits : Int) = 2 ^ 1074 := by
  rw [oneUnits, Nat.cast_pow, Nat.cast_ofNat]

/-! ## Sum, product and quotient (40_numerics.md R112) -/

section Operations

variable {a b : F64} (ha : isFinite a = true) (hb : isFinite b = true)
include ha hb

/-- An exact zero sum is the zero the rounding gives. -/
theorem fmag_fadd : fmag (fadd a b) = roundMag 52 infMag (fval a + fval b).natAbs 1 := by
  rw [fadd_of_isFinite ha hb]
  split
  next h => rw [h, fmag_pack (by norm_num)]; decide
  next => rw [fmag_round64]

theorem nearestEven_fadd : NearestEven 52 infMag |((fval a + fval b : Int) : ℝ)| (fmag (fadd a b)) := by
  have h := nearestEven_binary64 (fval a + fval b).natAbs Nat.one_pos
  rwa [Nat.cast_one, div_one, Nat.cast_natAbs, Int.cast_abs, ← fmag_fadd ha hb] at h

theorem fsign_fadd : fsign (fadd a b) =
    if fval a + fval b = 0 then fsign a && fsign b else decide (fval a + fval b < 0) := by
  rw [fadd_of_isFinite ha hb]
  split
  next => exact fsign_pack_zero _
  next => exact fsign_round64 _ _ _

theorem nearestEven_fmul :
    NearestEven 52 infMag ((funits a : ℝ) * funits b / 2 ^ 1074) (fmag (fmul a b)) := by
  have h := nearestEven_binary64 (funits a * funits b) oneUnits_pos
  rwa [Nat.cast_mul, oneUnits_cast, ← fmag_round64 (fsign a != fsign b), ← fmul_of_isFinite ha hb] at h

theorem fsign_fmul : fsign (fmul a b) = (fsign a != fsign b) := by
  rw [fmul_of_isFinite ha hb, fsign_round64]

theorem nearestEven_fdiv (hz : isZero b = false) :
    NearestEven 52 infMag ((funits a : ℝ) * 2 ^ 1074 / funits b) (fmag (fdiv a b)) := by
  have h := nearestEven_binary64 (funits a * oneUnits) (funits_pos hz)
  rwa [Nat.cast_mul, oneUnits_cast, ← fmag_round64 (fsign a != fsign b),
    ← fdiv_of_isFinite ha hb hz] at h

theorem fsign_fdiv (hz : isZero b = false) : fsign (fdiv a b) = (fsign a != fsign b) := by
  rw [fdiv_of_isFinite ha hb hz, fsign_round64]

/-! ## Remainder (40_numerics.md R114) -/

theorem fsign_fmod (hz : isZero b = false) : fsign (fmod a b) = fsign a := by
  rw [fmod_of_isFinite ha hb hz, fsign_round64]

/-- The remainder is representable, so nothing is rounded. -/
theorem funits_fmod (hz : isZero b = false) : funits (fmod a b) = funits a % funits b := by
  obtain ⟨k, hk⟩ := exists_magUnits_mod (m := fmag a) (funits_pos hz)
  have hle : k ≤ fmag a := magUnits_le_iff.1 (hk.trans_le (Nat.mod_le _ _))
  rw [fmod_of_isFinite ha hb hz]
  exact funits_round64 hk (hle.trans (fmag_of_isFinite ha).le)

/-- The exact remainder has the sign of the dividend. -/
theorem fval_fmod (hz : isZero b = false) : fval (fmod a b) = (fval a).tmod (fval b) := by
  rw [fval_eq (fsign_fmod ha hb hz) (funits_fmod ha hb hz), fval, fval, Int.ofNat_tmod]
  cases fsign a <;> cases fsign b <;> simp only [Bool.false_eq_true, if_true, if_false,
    Int.neg_tmod, Int.tmod_neg]

end Operations

/-! ## Square root (40_numerics.md R112) -/

/-- A half integer of at least `2^(g+1)` units rounds to a magnitude whose lower neighbour has at least
`2^g` units. -/
theorem le_magUnits_of_roundMag {num k g : Nat} (hg : g ≤ 1700) (hnum : 2 ^ (g + 2) ≤ num)
    (hk : roundMag 52 infMag num 2 ≤ k + 1) : 2 ^ g ≤ magUnits 52 k := by
  obtain ⟨lo, -, hlo⟩ := exists_magUnits_int (q := 1) (e := g) (by norm_num) (by omega)
  obtain ⟨hi, hhi, hhi'⟩ := exists_magUnits_int (q := 1) (e := g + 1) (by norm_num) (by omega)
  rw [one_mul] at hlo hhi'
  have hround : hi ≤ roundMag 52 infMag num 2 := by
    rw [← roundMag_exact (den := 2) (by norm_num) hhi, hhi', ← pow_succ]
    exact roundMag_mono (by norm_num) hnum
  have hlt : lo < hi := by
    by_contra hge
    have hle := magUnits_le_iff (fb := 52).2 (not_lt.1 hge)
    have hpos := Nat.two_pow_pos g
    rw [hlo, hhi', pow_succ] at hle
    omega
  rw [← hlo]
  exact magUnits_le_iff.2 (by omega)

/-- The half integer that `fsqrt` takes for `√m`. -/
def rootHalves (m : Nat) : Nat :=
  if isqrt m * isqrt m = m then 2 * isqrt m else 2 * isqrt m + 1

theorem le_rootHalves {m p : Nat} (h : 2 ^ (2 * p) ≤ m) : 2 ^ (p + 1) ≤ rootHalves m := by
  obtain ⟨side, -⟩ := isqrt_halves m (2 ^ p)
  rw [pow_succ, Nat.mul_comm]
  refine side.2 (Real.le_sqrt_of_sq_le ?_)
  rw [Nat.cast_pow, ← pow_mul, Nat.mul_comm p]
  exact_mod_cast h

/-- The half integer and the root lie beside every even multiple of the power of two taken out. -/
theorem sameSide_rootHalves (m h : Nat) {S : Nat} (hS : 2 ^ (h + 1) ∣ S) :
    SameSide (rootHalves m * 2 ^ h) 2 (√m * 2 ^ h) S := by
  obtain ⟨M, rfl⟩ := hS
  obtain ⟨hle, heq⟩ := isqrt_halves m M
  have hpos : (0 : ℝ) < 2 ^ (h + 1) := by positivity
  have hnat : 2 ^ (h + 1) * M * 2 = 2 ^ (h + 1) * (2 * M) := by ring
  have hnum : 2 * (rootHalves m * 2 ^ h) = 2 ^ (h + 1) * rootHalves m := by ring
  have hreal : 2 * (√(m : ℝ) * 2 ^ h) = 2 ^ (h + 1) * √m := by ring
  rw [← rootHalves] at hle heq
  constructor
  · rw [hnat, hnum, hreal, Nat.mul_le_mul_left_iff (Nat.two_pow_pos _), hle, Nat.cast_mul,
      Nat.cast_pow, Nat.cast_ofNat, mul_le_mul_iff_right₀ hpos]
  · rw [hnat, hnum, hreal, Nat.mul_right_inj (Nat.two_pow_pos _).ne', heq, Nat.cast_mul,
      Nat.cast_pow, Nat.cast_ofNat, mul_right_inj' hpos.ne']

theorem sqrt_mul_four_pow (m h : Nat) : √((m * 4 ^ h : Nat) : ℝ) = √m * 2 ^ h := by
  have hfour : ((4 ^ h : Nat) : ℝ) = (2 ^ h) ^ 2 := by
    rw [← pow_mul, mul_comm, pow_mul]; norm_num
  rw [Nat.cast_mul, hfour, Real.sqrt_mul (Nat.cast_nonneg m), Real.sqrt_sq (by positivity)]

/-- The half integer rounds as the root does: the midpoints near the root and the overflow are
multiples of `2^(h+1)`. -/
theorem nearestEven_root {m h : Nat} (hm : 2 ^ 126 ≤ m) (hh : h ≤ 1600) :
    NearestEven 52 infMag √((m * 4 ^ h : Nat) : ℝ)
      (roundMag 52 infMag (rootHalves m * 2 ^ h) 2) := by
  obtain ⟨E, hE, hinf⟩ : ∃ E, E = 2047 ∧ infMag = E * 2 ^ 52 := ⟨2047, rfl, infMag_eq⟩
  have hlarge : 2 ^ (h + 62 + 2) ≤ rootHalves m * 2 ^ h := by
    rw [show h + 62 + 2 = 63 + 1 + h by omega, pow_add]
    exact Nat.mul_le_mul_right _ (le_rootHalves hm)
  rw [sqrt_mul_four_pow]
  refine nearestEven_roundMag (by norm_num) (by omega) hinf (by norm_num) (fun k hk => ?_) ?_
  · have hlow := le_magUnits_of_roundMag (by omega) hlarge hk
    have hdvd {j : Nat} (hj : k ≤ j) : 2 ^ (h + 1) ∣ magUnits 52 j :=
      dvd_magUnits (le_trans (Nat.pow_le_pow_right (by norm_num) (by omega))
        (hlow.trans (magUnits_le_iff.2 hj)))
    exact sameSide_rootHalves m h (Nat.dvd_add (hdvd le_rfl) (hdvd (Nat.le_succ k)))
  · refine sameSide_rootHalves m h ?_
    rw [overflowUnits, Nat.mul_left_comm, ← pow_succ']
    exact Dvd.dvd.mul_left (pow_dvd_pow _ (by omega)) _

theorem fsqrt_of_isZero {a : F64} (hz : isZero a = true) : fsqrt a = a := by
  rw [fsqrt]
  simp [isNaN_of_isZero hz, hz]

theorem fsqrt_of_negative {a : F64} (hN : isNaN a = false) (hz : isZero a = false)
    (hs : fsign a = true) : fsqrt a = canonNaN := by
  rw [fsqrt]
  simp [hN, hz, hs]

theorem fsqrt_of_isNaN {a : F64} (h : isNaN a = true) : fsqrt a = canonNaN := by
  rw [fsqrt, if_pos h]

theorem fsqrt_of_isInf {a : F64} (h : isInf a = true) (hs : fsign a = false) : fsqrt a = a := by
  rw [fsqrt]
  simp [isNaN_of_isInf h, isZero_of_isInf h, hs, h]

theorem nearestEven_fsqrt {a : F64} (ha : isFinite a = true) (hs : fsign a = false) :
    NearestEven 52 infMag √((funits a : ℝ) * 2 ^ 1074) (fmag (fsqrt a)) ∧
      fsign (fsqrt a) = false := by
  rw [← oneUnits_cast, ← Nat.cast_mul]
  cases hz : isZero a with
  | true =>
    have hm : fmag a = 0 := by simpa [isZero] using hz
    have hu : funits a = 0 := by rw [funits, hm]; decide
    have hround := nearestEven_binary64 0 Nat.one_pos
    rw [show roundMag 52 infMag 0 1 = 0 by decide, Nat.cast_zero, zero_div] at hround
    rw [fsqrt_of_isZero hz, hm, hu, Nat.zero_mul, Nat.cast_zero, Real.sqrt_zero]
    exact ⟨hround, hs⟩
  | false =>
    obtain ⟨h, m, hunits, hm, hh, hroot⟩ := fsqrt_parts ha hz hs
    rw [hroot, hunits, fmag_round64, fsign_round64]
    exact ⟨nearestEven_root hm hh, rfl⟩

/-! ## Integers (40_numerics.md R115, R116) -/

/-- A number of units with a sign. -/
def signed (s : Bool) (n : Nat) : Int := if s then -(n : Int) else n

theorem fval_eq_signed (a : F64) : fval a = signed (fsign a) (funits a) := rfl

theorem signed_not (s : Bool) (n : Nat) : signed (!s) n = -signed s n := by
  cases s with
  | false => rfl
  | true => exact (neg_neg _).symm

theorem signed_mul (s : Bool) (n k : Nat) : signed s (n * k) = signed s n * k := by
  cases s with
  | false => exact Nat.cast_mul n k
  | true => rw [signed, if_pos rfl, Nat.cast_mul, ← neg_mul]; rfl

theorem signed_natAbs (n : Int) : signed (decide (n < 0)) n.natAbs = n := by
  by_cases h : n < 0
  · rw [signed, if_pos (decide_eq_true h)]; omega
  · rw [signed, if_neg (by simpa using h)]; omega

/-- Rounding a signed quotient down moves a negative one with a remainder away from zero. -/
theorem signed_ediv (s : Bool) (n : Nat) {k : Nat} (hk : 0 < k) :
    signed s n / k = signed s (if s = true ∧ n % k ≠ 0 then n / k + 1 else n / k) := by
  cases s with
  | false => rw [if_neg (by simp)]; rfl
  | true =>
    have hsign : Int.sign (k : Int) = 1 := Int.sign_eq_one_of_pos (by exact_mod_cast hk)
    simp only [signed, if_true, true_and]
    rw [Int.neg_ediv, hsign, ← Int.natCast_ediv]
    by_cases h : k ∣ n
    · rw [if_pos (Int.natCast_dvd_natCast.2 h), if_neg (not_not.2 (Nat.mod_eq_zero_of_dvd h)), sub_zero]
    · rw [if_neg (mt Int.natCast_dvd_natCast.1 h), if_pos (mt Nat.dvd_of_mod_eq_zero h), Nat.cast_succ,
        neg_add, sub_eq_add_neg]

section Integral

variable {a : F64} (ha : isFinite a = true)
include ha

theorem ffloor_parts : fsign (ffloor a) = fsign a ∧ funits (ffloor a) =
    (if fsign a = true ∧ funits a % oneUnits ≠ 0 then funits a / oneUnits + 1
      else funits a / oneUnits) * oneUnits := by
  rw [ffloor, if_neg (by simp [isNaN_of_isFinite ha]), if_neg (by simp [isInf_of_isFinite ha])]
  refine packInt_near ha ?_ (fsign a)
  split
  next h => exact .inr ⟨h.2, rfl⟩
  next => exact .inl rfl

theorem fceil_parts : fsign (fceil a) = fsign a ∧ funits (fceil a) =
    (if ¬ fsign a = true ∧ funits a % oneUnits ≠ 0 then funits a / oneUnits + 1
      else funits a / oneUnits) * oneUnits := by
  rw [fceil, if_neg (by simp [isNaN_of_isFinite ha]), if_neg (by simp [isInf_of_isFinite ha])]
  refine packInt_near ha ?_ (fsign a)
  split
  next h => exact .inr ⟨h.2, rfl⟩
  next => exact .inl rfl

theorem fval_ffloor : fval (ffloor a) = fval a / 2 ^ 1074 * 2 ^ 1074 := by
  obtain ⟨hs, hu⟩ := ffloor_parts ha
  rw [fval_eq_signed, fval_eq_signed, hs, hu, ← oneUnits_intCast,
    signed_ediv _ _ oneUnits_pos, signed_mul]

/-- The ceiling is the floor of the negation, negated. -/
theorem fval_fceil : fval (fceil a) = -(-fval a / 2 ^ 1074) * 2 ^ 1074 := by
  obtain ⟨hs, hu⟩ := fceil_parts ha
  rw [fval_eq_signed, fval_eq_signed, hs, hu, ← oneUnits_intCast, ← signed_not,
    signed_ediv _ _ oneUnits_pos, signed_not, neg_neg, signed_mul]
  simp only [Bool.not_eq_true', Bool.not_eq_true]

theorem fval_frint : fval (frint a) = fint (frint a) * 2 ^ 1074 := by
  obtain ⟨hs, hu⟩ := frint_parts ha
  rw [fval_eq_signed, hs, hu, fint_frint ha, ← oneUnits_intCast, signed_mul, signed]

end Integral

theorem fval_f64 {n : Int} (hn : |n| ≤ 2 ^ 53) :
    fval (f64 n) = n * 2 ^ 1074 ∧ fsign (f64 n) = decide (n < 0) := by
  rw [Int.abs_eq_natAbs] at hn
  obtain ⟨-, hs, hu⟩ := f64_parts (n := n) (by exact_mod_cast hn)
  refine ⟨?_, hs⟩
  rw [fval_eq_signed, hs, hu, signed_mul, signed_natAbs, oneUnits_intCast]

theorem integral_of_isNaN {a : F64} (h : isNaN a = true) :
    ffloor a = canonNaN ∧ fceil a = canonNaN ∧ frint a = canonNaN :=
  ⟨if_pos h, if_pos h, if_pos h⟩

theorem integral_of_isInf {a : F64} (h : isInf a = true) :
    ffloor a = a ∧ fceil a = a ∧ frint a = a := by
  simp [ffloor, fceil, frint, isNaN_of_isInf h, h]

/-! ## binary32 (40_numerics.md R118) -/

theorem f64to32_of_isNaN {a : F64} (h : isNaN a = true) : f64to32 a = 0x7FC00000#32 := if_pos h

theorem f64to32_of_isInf {a : F64} (h : isInf a = true) :
    f64to32 a = if fsign a then 0xFF800000#32 else 0x7F800000#32 := by
  rw [f64to32, if_neg (by simp [isNaN_of_isInf h]), if_pos h]
  cases fsign a <;> decide

/-- A binary32 pattern has the sign and the magnitude bits it is put together from. -/
theorem binary32_parts {s : Bool} {m : Nat} (h : m < 2 ^ 31) :
    (BitVec.ofNat 32 ((if s then 2 ^ 31 else 0) + m)).toNat % 2 ^ 31 = m ∧
      decide (2 ^ 31 ≤ (BitVec.ofNat 32 ((if s then 2 ^ 31 else 0) + m)).toNat) = s := by
  rw [BitVec.toNat_ofNat]
  cases s
  · rw [if_neg Bool.false_ne_true, decide_eq_false_iff_not]; omega
  · rw [if_pos rfl, decide_eq_true_eq]; omega

theorem f64to32_parts {a : F64} (h : isFinite a = true) :
    (f64to32 a).toNat % 2 ^ 31 = roundMag 23 infMag32 (funits a) (2 ^ 925) ∧
      decide (2 ^ 31 ≤ (f64to32 a).toNat) = fsign a := by
  rw [f64to32, if_neg (by simp [isNaN_of_isFinite h]), if_neg (by simp [isInf_of_isFinite h])]
  exact binary32_parts (lt_of_le_of_lt (roundMag_le _ _) (by decide))

theorem nearestEven_binary32_two_pow (num p : Nat) :
    NearestEven 23 infMag32 ((num : ℝ) / 2 ^ p) (roundMag 23 infMag32 num (2 ^ p)) := by
  have h := nearestEven_binary32 num (Nat.two_pow_pos p)
  rwa [Nat.cast_pow, Nat.cast_ofNat] at h

theorem nearestEven_f64to32 {a : F64} (h : isFinite a = true) :
    NearestEven 23 infMag32 ((funits a : ℝ) / 2 ^ 925) ((f64to32 a).toNat % 2 ^ 31) := by
  obtain ⟨hmag, -⟩ := f64to32_parts h
  rw [hmag]
  exact nearestEven_binary32_two_pow (funits a) 925

/-- Every finite binary32 magnitude is a binary64 magnitude. -/
theorem exists_magUnits_binary32 {m : Nat} (h : m < infMag32) :
    ∃ k, k ≤ infMag ∧ magUnits 52 k = magUnits 23 m * 2 ^ 925 := by
  obtain ⟨sh, t, hm, -, ht, hu⟩ := exists_grid 23 m
  rw [infMag32_eq] at h
  obtain ⟨k, hk, hk'⟩ := exists_magUnits_int (q := t) (e := sh + 925) (by omega) (by omega)
  exact ⟨k, hk, by rw [hk', hu, pow_add, mul_assoc]⟩

/-- Widening a finite value is exact. -/
theorem f32to64_parts {u : BitVec 32} (h : u.toNat % 2 ^ 31 < infMag32) :
    funits (f32to64 u) = magUnits 23 (u.toNat % 2 ^ 31) * 2 ^ 925 ∧
      fsign (f32to64 u) = decide (2 ^ 31 ≤ u.toNat) := by
  obtain ⟨k, hk, hk'⟩ := exists_magUnits_binary32 h
  rw [f32to64, if_neg h.le.not_gt, if_neg h.ne, fsign_round64]
  exact ⟨funits_round64 hk' hk, rfl⟩

theorem f32to64_of_isNaN {u : BitVec 32} (h : infMag32 < u.toNat % 2 ^ 31) :
    f32to64 u = canonNaN := if_pos h

/-! ## The obligation -/

/-- Settles O26: the rounding and each exact operation at finite operands, then the special operands. -/
theorem roundingIsToNearestEven : Obligations.RoundingIsToNearestEven := by
  unfold Obligations.RoundingIsToNearestEven
  refine ⟨fun num den hd => ⟨nearestEven_binary64 num hd, nearestEven_binary32 num hd⟩,
    fun a b ha hb => ?binary, fun a ha => ?unary, fun n => fval_f64, fun u => f32to64_parts,
    fun a b h => ?binaryNaN, fun a h => ?unaryNaN, fun a b ha hb => ?infinities,
    fun a b ha hb => ?infinityFinite, fun a b ha hb => ?zeroDivisor, fun a => ?unarySpecial,
    fun u => f32to64_of_isNaN, by decide, by decide⟩
  case binary =>
    exact ⟨nearestEven_fadd ha hb, fsign_fadd ha hb, nearestEven_fmul ha hb, fsign_fmul ha hb,
      fun hz => ⟨nearestEven_fdiv ha hb hz, fsign_fdiv ha hb hz, fval_fmod ha hb hz,
        fsign_fmod ha hb hz⟩⟩
  case unary =>
    obtain ⟨-, narrowSign⟩ := f64to32_parts ha
    obtain ⟨floorSign, -⟩ := ffloor_parts ha
    obtain ⟨ceilSign, -⟩ := fceil_parts ha
    obtain ⟨rintSign, -⟩ := frint_parts ha
    exact ⟨nearestEven_fsqrt ha, nearestEven_f64to32 ha, narrowSign, fval_ffloor ha, floorSign,
      fval_fceil ha, ceilSign, rintSign, fint (frint a), fval_frint ha, nearestInt_frint ha⟩
  case binaryNaN =>
    exact ⟨fadd_of_isNaN h, fsub_of_isNaN h, fmul_of_isNaN h, fdiv_of_isNaN h, fmod_of_isNaN h⟩
  case unaryNaN =>
    obtain ⟨floorNaN, ceilNaN, rintNaN⟩ := integral_of_isNaN h
    exact ⟨fsqrt_of_isNaN h, floorNaN, ceilNaN, rintNaN, f64to32_of_isNaN h⟩
  case infinities =>
    have hmul : fmul a b = pack (fsign a != fsign b) infMag := by
      rw [fmul_of_isInf ha (isNaN_of_isInf hb), isZero_of_isInf hb]; rfl
    rw [hmul, isInf_pack_infMag, fsign_pack_infMag]
    exact ⟨fadd_of_isInf ha hb, fsub_of_isInf ha hb, rfl, rfl, fdiv_of_isInf ha hb,
      fmod_of_isInf_left ha⟩
  case infinityFinite =>
    have hmul := fmul_of_isInf ha (isNaN_of_isFinite hb)
    rw [fmul_comm b a, hmul, fdiv_isInf_isFinite ha hb, fdiv_isFinite_isInf ha hb, isInf_pack_infMag,
      fsign_pack_infMag, isZero_pack_zero, fsign_pack_zero]
    refine ⟨fadd_isInf_isFinite ha hb, fadd_isFinite_isInf ha hb, fsub_isInf_isFinite ha hb,
      fsub_isFinite_isInf ha hb, fun hz => ?_, fun hz => ?_, rfl, rfl, rfl, rfl, fmod_of_isInf_left ha,
      fmod_isFinite_isInf ha hb⟩
    · rw [if_pos hz]; exact ⟨rfl, rfl⟩
    · rw [if_neg (by simp [hz]), isInf_pack_infMag, fsign_pack_infMag]; exact ⟨rfl, rfl, rfl⟩
  case zeroDivisor =>
    rw [fdiv_of_isZero ha (isFinite_of_isZero hb) hb]
    refine ⟨fun hz => if_pos hz, fun hz => ?_, fmod_of_isZero_right hb⟩
    rw [if_neg (by simp [hz]), isInf_pack_infMag, fsign_pack_infMag]
    exact ⟨rfl, rfl⟩
  case unarySpecial =>
    refine ⟨fsqrt_of_isZero, fsqrt_of_negative, fun h => ?_⟩
    obtain ⟨floorInf, ceilInf, rintInf⟩ := integral_of_isInf h
    exact ⟨floorInf, ceilInf, rintInf, fsqrt_of_isInf h, f64to32_of_isInf h⟩

end Sys2Proof.Machine
end

section
/-!
PROOFS. The transform commands that work on registers (41_transform.md R141, R142, R148): the complex
product, the butterfly and the padding of a length.
-/

namespace Sys2Proof.Machine

/-! ## Commands that write registers only -/

/-- A command that writes registers, and none outside `R`, completes. -/
theorem State.completed_regs (s : State) (g : Regs) {R : RegName → Prop}
    (h : ∀ r, r ≠ .status → ¬ R r → State.readReg { s with regs := g } r = s.readReg r) :
    Completed s (State.complete { s with regs := g }) R noPlace where
  slot := rfl
  err := rfl
  errCode := rfl
  untouched := Untouched.complete
    { regs := h
      entries := fun p _ => State.entry_congr rfl rfl rfl rfl rfl rfl rfl p
      sizes := rfl
      script := rfl
      sched := rfl
      resp := rfl }

/-! ## The complex product and the butterfly -/

/-- Each part of a product has every part of both factors in it, so a NaN in one reaches both
(40_numerics.md R111, R124). -/
theorem cmul_of_isNaN {a b : Cplx}
    (h : isNaN a.re = true ∨ isNaN a.im = true ∨ isNaN b.re = true ∨ isNaN b.im = true) :
    cmul a b = ⟨canonNaN, canonNaN⟩ := by
  have hnan : isNaN canonNaN = true := by decide
  rw [cmul, Cplx.mk.injEq]
  rcases h with h | h | h | h
  · rw [fmul_of_isNaN (.inl h), fmul_of_isNaN (.inl h)]
    exact ⟨fsub_of_isNaN (.inl hnan), fadd_of_isNaN (.inl hnan)⟩
  · rw [fmul_of_isNaN (a := a.im) (.inl h), fmul_of_isNaN (a := a.im) (.inl h)]
    exact ⟨fsub_of_isNaN (.inr hnan), fadd_of_isNaN (.inr hnan)⟩
  · rw [fmul_of_isNaN (b := b.re) (.inr h), fmul_of_isNaN (b := b.re) (.inr h)]
    exact ⟨fsub_of_isNaN (.inl hnan), fadd_of_isNaN (.inr hnan)⟩
  · rw [fmul_of_isNaN (b := b.im) (.inr h), fmul_of_isNaN (b := b.im) (.inr h)]
    exact ⟨fsub_of_isNaN (.inr hnan), fadd_of_isNaN (.inl hnan)⟩

/-- Settles O32: `CMUL` writes the pair CP only; its corner cases are evaluated. -/
theorem cmulCompletes : Obligations.CmulCompletes := by
  unfold Obligations.CmulCompletes
  refine ⟨fun s => ⟨_, exec_cmul s, s.completed_regs _ fun r _ hr => ?frame, rfl, rfl, rfl, rfl,
    fun h => ?nan⟩, by decide +kernel, by decide +kernel, by decide +kernel⟩
  case frame =>
    cases r
    case cpRe => exact absurd (.inl rfl) hr
    case cpIm => exact absurd (.inr rfl) hr
    all_goals rfl
  case nan =>
    have hcp := cmul_of_isNaN h
    exact ⟨congrArg (fun z : Cplx => some z.re) hcp, congrArg (fun z : Cplx => some z.im) hcp⟩

/-- Settles O33: `BFLY` writes the pairs CP and CQ only; its example is evaluated. -/
theorem bflyCompletes : Obligations.BflyCompletes := by
  unfold Obligations.BflyCompletes
  refine ⟨fun s => ⟨_, exec_bfly s, s.completed_regs _ fun r _ hr => ?frame, rfl, rfl, rfl, rfl, rfl,
    rfl⟩, by decide +kernel⟩
  cases r
  case cpRe => exact absurd (.inl rfl) hr
  case cpIm => exact absurd (.inr (.inl rfl)) hr
  case cqRe => exact absurd (.inr (.inr (.inl rfl))) hr
  case cqIm => exact absurd (.inr (.inr (.inr rfl))) hr
  all_goals rfl

/-! ## Padding to a power of two -/

/-- The word of a command of format I is its opcode's word and its operand side by side (30_encoding.md
R91). -/
theorem ofNat_opcode_add (op : Nat) {n : Nat} (hn : n < 2 ^ 24) :
    BitVec.ofNat 32 (op * 2 ^ 24 + n) = BitVec.ofNat 32 (op * 2 ^ 24) ||| BitVec.ofNat 32 n := by
  rw [mul_comm, Nat.two_pow_add_eq_or_of_lt hn]
  exact BitVec.ofNat_or

/-- Settles O41: PADLOG2 holds `padLog n`, the least sufficient exponent, which its five bits can hold,
and PADAMT the rest up to that power. -/
theorem npow2Completes : Obligations.Npow2Completes := by
  unfold Obligations.Npow2Completes
  intro s n hn
  have hlog : padLog n ≤ 24 := padLog_le_iff.2 hn.le
  have hpow : 2 ^ padLog n ≤ 2 ^ 24 := Nat.pow_le_pow_right (by decide) hlog
  have hfit : n ≤ 2 ^ padLog n := padLog_le_iff.1 le_rfl
  have padlog2 : (BitVec.ofNat 5 (padLog n)).toNat = padLog n :=
    Nat.mod_eq_of_lt (by omega)
  have padamt : (BitVec.ofNat 32 (2 ^ padLog n - n)).toNat = 2 ^ padLog n - n :=
    Nat.mod_eq_of_lt (by omega)
  refine ⟨_, exec_npow2 n s, s.completed_regs _ fun r _ hr => ?frame, rfl, rfl, ?_⟩
  case frame =>
    cases r
    case padlog2 => exact absurd (.inl rfl) hr
    case padamt => exact absurd (.inr rfl) hr
    all_goals rfl
  simp only [State.complete_regs, padlog2, padamt]
  exact ⟨hfit, fun _ => padLog_le_iff.2, Nat.sub_add_cancel hfit, ofNat_opcode_add 0x17 hn⟩

end Sys2Proof.Machine
end

section
/-!
PROOFS. The transform commands that work on the frame (41_transform.md R143 to R147, R152): their
faults, what one pass writes, and the two transforms as their passes performed one by one.
-/

namespace Sys2Proof.Machine

/-! ## Faults -/

/-- Settles O34: the capacity is checked before anything else, the stage index of `STAGE` after it. -/
theorem transformFaults : Obligations.TransformFaults := by
  unfold Obligations.TransformFaults
  refine fun s st inv => ⟨fun hover i hi => ?config, fun hfits hstage => ?operand⟩
  case config =>
    have hfits : ¬ s.lenFits := not_le.2 hover
    refine ⟨_, ?_, s.faulted_faultEntry .config⟩
    rcases hi with rfl | rfl | rfl | rfl | rfl
    · rw [exec_bitrev, if_neg hfits]
    · rw [exec_stage, if_neg hfits]
    · rw [exec_xscale, if_neg hfits]
    · rw [exec_fft, if_neg hfits]
    · rw [exec_ifft, if_neg hfits]
  case operand =>
    have hlast : ¬ st < s.len2 := not_lt.2 hstage
    refine ⟨_, ?_, s.faulted_faultEntry .operand⟩
    rw [exec_stage, if_pos (show s.lenFits from hfits), if_neg hlast]

/-! ## Commands of one pass -/

theorem exec_bitrev_of_lenFits {s : State} (h : s.lenFits) :
    exec .bitrev s = .next s.bitrevPass.complete := by
  rw [exec_bitrev, if_pos h]

theorem exec_stage_of_lt {s : State} {st : Nat} (h : s.lenFits) (hst : st < s.len2) (inv : Bool) :
    exec (.stage st inv) s = .next (s.stagePass st inv).complete := by
  rw [exec_stage, if_pos h, if_pos hst]

theorem exec_xscale_of_lenFits {s : State} (h : s.lenFits) :
    exec .xscale s = .next s.xscalePass.complete := by
  rw [exec_xscale, if_pos h]

/-- What `BITREV` leaves at an entry of the frame (41_transform.md R143). -/
theorem State.bitrevPass_get (s : State) {i : Nat} (hi : i < s.len) :
    s.bitrevPass.complete.active.get i = s.active.get (rev i s.len2) :=
  s.framePass_get _ hi

/-- Settles O35: one pass, whose index function is `rev`. -/
theorem bitrevCompletes : Obligations.BitrevCompletes := by
  unfold Obligations.BitrevCompletes
  exact fun s h => ⟨_, exec_bitrev_of_lenFits h, s.completed_framePass _ _, rfl, rfl,
    fun i hi => ⟨s.bitrevPass_get hi, rev_lt i s.len2, fun _ => testBit_rev⟩⟩

/-- A second `BITREV` undoes the first, since the reversal is an involution. -/
theorem State.bitrevPass_bitrevPass_get (s : State) {i : Nat} (hi : i < s.len) :
    s.bitrevPass.complete.bitrevPass.complete.active.get i = s.active.get i := by
  calc s.bitrevPass.complete.bitrevPass.complete.active.get i
      = s.bitrevPass.complete.active.get (rev i s.len2) := s.bitrevPass.complete.bitrevPass_get hi
    _ = s.active.get (rev (rev i s.len2) s.len2) := s.bitrevPass_get (rev_lt i s.len2)
    _ = s.active.get i := by rw [rev_rev hi]

/-- Settles O36: the banks are exchanged twice, too. -/
theorem bitrevTwiceRestores : Obligations.BitrevTwiceRestores := by
  unfold Obligations.BitrevTwiceRestores
  exact fun s h => ⟨_, _, exec_bitrev_of_lenFits h,
    exec_bitrev_of_lenFits (s := s.bitrevPass.complete) h, Bool.not_not s.xsel,
    fun _ hi => s.bitrevPass_bitrevPass_get hi⟩

/-- The twiddle factor of position `j` does not depend on the group (41_transform.md R144). -/
theorem State.stageTwiddle_position (s : State) {st g j : Nat} (inv : Bool) (hj : j < 2 ^ st) :
    s.stageTwiddle st inv (g * 2 ^ (st + 1) + j) =
      let w := twiddle s.sizes.log2nMax
        (j * 2 ^ (s.len2 - st - 1) * 2 ^ (s.sizes.log2nMax - s.len2))
      if inv then ⟨w.re, fneg w.im⟩ else w := by
  rw [State.stageTwiddle, (lower_index hj).2, twiddleN, Nat.shiftLeft_eq, Nat.shiftLeft_eq]
  rfl

/-- The two entries of a butterfly lie inside the frame. -/
theorem upper_index_lt {l st g j : Nat} (hst : st < l) (hg : g < 2 ^ (l - st - 1)) (hj : j < 2 ^ st) :
    g * 2 ^ (st + 1) + j + 2 ^ st < 2 ^ l := by
  calc g * 2 ^ (st + 1) + j + 2 ^ st
      < (g + 1) * 2 ^ (st + 1) := by rw [add_mul, pow_succ]; omega
    _ ≤ 2 ^ (l - st - 1) * 2 ^ (st + 1) := Nat.mul_le_mul_right _ hg
    _ = 2 ^ l := by rw [← pow_add]; congr 1; omega

/-- What `STAGE` leaves at the lower index of a butterfly (41_transform.md R144). -/
theorem State.stagePass_get_lower (s : State) {st g j : Nat} (inv : Bool) (hj : j < 2 ^ st)
    (hk : g * 2 ^ (st + 1) + j < s.len) :
    (s.stagePass st inv).complete.active.get (g * 2 ^ (st + 1) + j) =
      (s.stageButterfly st inv (g * 2 ^ (st + 1) + j)).1 := by
  rw [State.stagePass, s.framePass_get _ hk, if_pos (lower_index hj).1]

/-- What `STAGE` leaves at its upper index. -/
theorem State.stagePass_get_upper (s : State) {st g j : Nat} (inv : Bool) (hj : j < 2 ^ st)
    (hk : g * 2 ^ (st + 1) + j + 2 ^ st < s.len) :
    (s.stagePass st inv).complete.active.get (g * 2 ^ (st + 1) + j + 2 ^ st) =
      (s.stageButterfly st inv (g * 2 ^ (st + 1) + j)).2 := by
  rw [State.stagePass, s.framePass_get _ hk, if_neg (upper_index hj), Nat.add_sub_cancel]

/-- Settles O37: each entry is the lower or the upper one of its butterfly. -/
theorem stageCompletes : Obligations.StageCompletes := by
  unfold Obligations.StageCompletes
  refine fun s st inv h hst => ⟨_, exec_stage_of_lt h hst inv, s.completed_framePass _ _, rfl, rfl,
    fun g j hg hj => ?_⟩
  have hupper : g * 2 ^ (st + 1) + j + 2 ^ st < s.len := upper_index_lt hst hg hj
  dsimp only
  rw [s.stagePass_get_lower inv hj (by omega), s.stagePass_get_upper inv hj hupper,
    State.stageButterfly, s.stageTwiddle_position inv hj]
  exact ⟨rfl, rfl⟩

/-- Settles O38: one pass, whose divisor `f64(N)` is that of `2^L`. -/
theorem xscaleCompletes : Obligations.XscaleCompletes := by
  unfold Obligations.XscaleCompletes
  refine fun s h => ⟨_, exec_xscale_of_lenFits h, s.completed_framePass _ _, rfl, rfl,
    fun k hk => ?_⟩
  have hlen : (s.len : Int) = 2 ^ s.regs.log2n.toNat := Nat.cast_pow 2 _
  rw [State.xscalePass, s.framePass_get _ hk, hlen]

/-! ## Transforms -/

theorem execAll_cons {i : Instr} {is : List Instr} {s t : State} (h : exec i s = .next t) :
    execAll (i :: is) s = execAll is t := by
  rw [execAll, h]

/-- Stages change neither the length nor the capacity. -/
theorem State.lenFits_stages {s : State} (h : s.lenFits) (inv : Bool) (n : Nat) :
    (s.stages inv n).complete.lenFits := by
  obtain ⟨hlen2, hsizes, -, -⟩ := s.stages_fields inv n
  rw [State.lenFits, State.complete_len2, hlen2, State.complete_sizes, hsizes]
  exact h

/-- The first stages performed as commands, one after the other, leave what they leave inside a
transform (41_transform.md R146). -/
theorem execAll_stages {s : State} (h : s.lenFits) (inv : Bool) {n : Nat} (hn : n ≤ s.len2) :
    execAll ((List.range n).map fun st => .stage st inv) s.complete =
      .next (s.stages inv n).complete := by
  induction n with
  | zero => rfl
  | succ n ih =>
    obtain ⟨hlen2, -, -, -⟩ := s.stages_fields inv n
    have hlast : n < (s.stages inv n).complete.len2 := by
      rw [State.complete_len2, hlen2]
      exact hn
    have hstage : exec (.stage n inv) (s.stages inv n).complete =
        .next (s.stages inv (n + 1)).complete :=
      exec_stage_of_lt (State.lenFits_stages h inv n) hlast inv
    rw [List.range_succ, List.map_append, execAll_append (ih (Nat.le_of_succ_le hn))]
    exact execAll_cons hstage

/-- `BITREV` and all stages performed as commands. -/
theorem execAll_bitrev_stages {s : State} (h : s.lenFits) (inv : Bool) :
    execAll (.bitrev :: (List.range s.len2).map fun st => .stage st inv) s =
      .next (s.bitrevPass.stages inv s.len2).complete := by
  rw [execAll_cons (exec_bitrev_of_lenFits h)]
  exact execAll_stages (s := s.bitrevPass) h inv le_rfl

/-- `BITREV` and the stages touch the first `N` entries of the banks only. -/
theorem State.untouched_bitrev_stages (s : State) (inv : Bool) (n : Nat) :
    Untouched s (s.bitrevPass.stages inv n) noReg (BankBelow s.len) :=
  ((Untouched.refl s _).framePass (fun _ hp => hp) _).stages rfl inv n

theorem decide_odd_succ (n : Nat) : decide ((n + 1) % 2 = 1) = !decide (n % 2 = 1) := by
  rw [← decide_not, decide_eq_decide]
  omega

/-- Every stage inverts XSEL, and so did `BITREV` before them. -/
theorem State.bitrev_stages_xsel (s : State) (inv : Bool) (n : Nat) :
    (s.bitrevPass.stages inv n).xsel = (s.xsel ^^ decide ((n + 1) % 2 = 1)) := by
  rw [State.stages_xsel, show s.bitrevPass.xsel = !s.xsel from rfl, decide_odd_succ, Bool.not_xor,
    Bool.xor_not]

/-- A command completes whose writes lie in the named registers and entries. -/
theorem Effect.completed {s u : State} {i : Instr} {R : RegName → Prop} {P : Place → Prop}
    (h : Effect s i u) (hu : Untouched s u R P) : Completed s u.complete R P :=
  ⟨rfl, h.keeps.err, h.keeps.errCode, hu.complete⟩

/-- Settles O39: performed as one command or as `L + 1` commands, the passes are the same. -/
theorem fftIsItsPasses : Obligations.FftIsItsPasses := by
  unfold Obligations.FftIsItsPasses
  intro s h
  obtain ⟨-, -, -, hcfgv⟩ := s.bitrevPass.stages_fields false s.len2
  exact ⟨_, by rw [exec_fft, if_pos h],
    (Effect.fft h).completed (s.untouched_bitrev_stages false s.len2), hcfgv,
    s.bitrev_stages_xsel false s.len2, execAll_bitrev_stages h false⟩

/-- Settles O40: `XSCALE` is one more pass over the same frame. -/
theorem ifftIsItsPasses : Obligations.IfftIsItsPasses := by
  unfold Obligations.IfftIsItsPasses
  intro s h
  obtain ⟨hlen2, -, -, hcfgv⟩ := s.bitrevPass.stages_fields true s.len2
  have hfits : (s.bitrevPass.stages true s.len2).complete.lenFits :=
    State.lenFits_stages (s := s.bitrevPass) h true s.len2
  have hlen : (s.bitrevPass.stages true s.len2).len = s.len := congrArg (2 ^ ·) hlen2
  have hframe : Untouched s (s.bitrevPass.stages true s.len2).xscalePass noReg (BankBelow s.len) :=
    (s.untouched_bitrev_stages true s.len2).framePass (fun _ hp => hlen ▸ hp) _
  refine ⟨_, by rw [exec_ifft, if_pos h], (Effect.ifft h).completed hframe, hcfgv, ?xsel, ?passes⟩
  case xsel =>
    calc (!(s.bitrevPass.stages true s.len2).xsel)
        = !(s.xsel ^^ decide ((s.len2 + 1) % 2 = 1)) := by rw [s.bitrev_stages_xsel]
      _ = (s.xsel ^^ decide ((s.len2 + 2) % 2 = 1)) := by
        rw [decide_odd_succ (s.len2 + 1), Bool.xor_not]
  case passes =>
    rw [execAll_append (execAll_bitrev_stages h true)]
    exact execAll_cons (exec_xscale_of_lenFits hfits)

end Sys2Proof.Machine
end

section
/-!
PROOFS. The construction of the vocoder (42_vocoder.md R160 to R162): what `PVCFG` leaves, what it
rejects, and that CFGV = 1 means a valid construction after every step.
-/

namespace Sys2Proof.Machine

/-! ## The registers and the window `PVCFG` leaves -/

/-- The test of `PVCFG` passes exactly on a frame size that is a power of two inside the capacity. -/
theorem isPow2_and_log2_le_iff {n lmax : Nat} :
    isPow2 n = true ∧ n.log2 ≤ lmax ↔ ∃ l, n = 2 ^ l ∧ l ≤ lmax := by
  rw [isPow2_iff]
  constructor
  · rintro ⟨⟨l, rfl⟩, hl⟩
    exact ⟨l, rfl, by rwa [Nat.log2_two_pow] at hl⟩
  · rintro ⟨l, rfl, hl⟩
    exact ⟨⟨l, rfl⟩, by rwa [Nat.log2_two_pow]⟩

/-- LOG2N has room for the exponent of every power of two that fits FSIZE. -/
theorem toNat_ofNat_log2 {n : BitVec 32} (h : isPow2 n.toNat = true) :
    (BitVec.ofNat 5 n.toNat.log2).toNat = n.toNat.log2 := by
  obtain ⟨k, hk⟩ := isPow2_iff.1 h
  have hlt : k < 32 := (Nat.pow_lt_pow_iff_right (by norm_num)).1 (hk ▸ n.isLt)
  rw [hk, Nat.log2_two_pow]
  exact Nat.mod_eq_of_lt (by omega)

theorem State.configure_len {s : State} (h : isPow2 s.regs.fsize.toNat = true) :
    s.configure.len = s.regs.fsize.toNat := by
  have hlog := toNat_ofNat_log2 h
  calc s.configure.len = 2 ^ (BitVec.ofNat 5 s.regs.fsize.toNat.log2).toNat := rfl
    _ = s.regs.fsize.toNat := by rw [hlog, ← log2_of_isPow2 h]

/-- HA has room for the hop. -/
theorem State.configure_hopA (s : State) (hv : 0 < s.overlap) :
    (s.configure.hopA : Int) = s.regs.fsize.toNat / s.overlap := by
  have hfit : s.regs.fsize.toNat / s.overlap.toNat < 2 ^ 32 :=
    (Nat.div_le_self _ _).trans_lt s.regs.fsize.isLt
  have hhop : s.configure.hopA = s.regs.fsize.toNat / s.overlap.toNat := Nat.mod_eq_of_lt hfit
  rw [hhop, Int.natCast_ediv, Int.toNat_of_nonneg hv.le]

/-- A successful `PVCFG` leaves the construction CFGV = 1 promises (42_vocoder.md R160, R162). -/
theorem State.configured_configure {s : State} (hv : 0 < s.overlap)
    (hp : isPow2 s.regs.fsize.toNat = true) (hl : s.overlap < (s.regs.fsize.toNat : Int))
    (hf : s.regs.fsize.toNat.log2 ≤ s.sizes.log2nMax) : s.configure.Configured where
  positive := hv
  longer := hl
  length := (State.configure_len hp).symm
  fits := (toNat_ofNat_log2 hp).trans_le hf
  hop := by rw [State.configure_len hp]; exact s.configure_hopA hv
  gain := rfl
  window n hn := by
    rw [State.configure_len hp] at hn ⊢
    have hget := Memory.get_splice_inside (m := s.wm) (base := 0)
      (f := fun i => windowWeight i s.regs.fsize.toNat) hn
    rwa [Nat.zero_add] at hget

/-! ## The invariant -/

/-- CFGV = 1 means a valid construction (42_vocoder.md R162). -/
def State.ConfigurationSound (s : State) : Prop := s.cfgv = true → s.Configured

/-- `t` has the capacity, the construction and the CFGV of `s`. -/
structure SameConfiguration (s t : State) : Prop where
  /-- the sizes -/
  sizes : t.sizes = s.sizes
  /-- CFGV -/
  cfgv : t.cfgv = s.cfgv
  /-- LOG2N -/
  log2n : t.regs.log2n = s.regs.log2n
  /-- FSIZE -/
  fsize : t.regs.fsize = s.regs.fsize
  /-- OVL -/
  ovl : t.regs.ovl = s.regs.ovl
  /-- HA -/
  ha : t.regs.ha = s.regs.ha
  /-- AGAIN -/
  again : t.regs.again = s.regs.again
  /-- WM -/
  wm : t.wm = s.wm

theorem SameConfiguration.refl (s : State) : SameConfiguration s s :=
  ⟨rfl, rfl, rfl, rfl, rfl, rfl, rfl, rfl⟩

theorem SameConfiguration.configured {s t : State} (h : SameConfiguration s t)
    (hs : s.Configured) : t.Configured := by
  have hoverlap : t.overlap = s.overlap := congrArg BitVec.toInt h.ovl
  have hlen2 : t.len2 = s.len2 := congrArg BitVec.toNat h.log2n
  have hlen : t.len = s.len := congrArg (2 ^ ·) hlen2
  have hhop : t.hopA = s.hopA := congrArg BitVec.toNat h.ha
  constructor
  · rw [hoverlap]; exact hs.positive
  · rw [hoverlap, h.fsize]; exact hs.longer
  · rw [hlen, h.fsize]; exact hs.length
  · rw [State.lenFits, hlen2, h.sizes]; exact hs.fits
  · rw [hhop, hlen, hoverlap]; exact hs.hop
  · rw [h.again, hoverlap]; exact hs.gain
  · rw [hlen, h.wm]; exact hs.window

/-- Only `PVCFG` and the host change the construction or CFGV. -/
theorem Effect.sameConfiguration {s u : State} {i : Instr} (h : Effect s i u) (hi : i ≠ .pvcfg) :
    SameConfiguration s u := by
  have pass : ∀ t n f, SameConfiguration s t → SameConfiguration s (State.framePass t n f) :=
    fun _ _ _ ht => { ht with }
  have start := SameConfiguration.refl s
  cases i
  case pvcfg => exact absurd rfl hi
  case bitrev => exact Effect.transform_keep pass (by simp) start h
  case stage => exact Effect.transform_keep pass (by simp) start h
  case xscale => exact Effect.transform_keep pass (by simp) start h
  case fft => exact Effect.transform_keep pass (by simp) start h
  case ifft => exact Effect.transform_keep pass (by simp) start h
  all_goals cases h; exact { start with }

namespace State.ConfigurationSound

variable {s t : State}

theorem of_cfgv_eq_false (h : t.cfgv = false) : t.ConfigurationSound :=
  fun ht => absurd (h.symm.trans ht) Bool.false_ne_true

theorem of_same (h : s.ConfigurationSound) (hst : SameConfiguration s t) :
    t.ConfigurationSound :=
  fun ht => hst.configured (h (hst.cfgv ▸ ht))

/-- A command that completes: `PVCFG` makes a valid construction, every other one leaves it alone. -/
theorem effect {i : Instr} (h : s.ConfigurationSound) (he : Effect s i t) :
    t.ConfigurationSound := by
  by_cases hi : i = .pvcfg
  · subst hi
    cases he with
    | pvcfg hv hp hl hf => exact fun _ => State.configured_configure hv hp hl hf
  · exact h.of_same (he.sameConfiguration hi)

theorem exec_next {i : Instr} (h : s.ConfigurationSound) (he : exec i s = .next t) :
    t.ConfigurationSound := by
  rcases exec_cases he with ⟨e, rfl⟩ | ⟨u, hu, rfl⟩
  · exact h.of_same { SameConfiguration.refl s with }
  · exact (h.effect hu).of_same { SameConfiguration.refl u with }

/-- A register write leaves the construction alone, or CFGV is 0 after it (10_state.md R35, R36). -/
theorem writeReg {d : BitVec 64} {r : RegName} (h : s.ConfigurationSound)
    (hw : s.writeReg d r = some t) : t.ConfigurationSound := by
  rcases State.writeReg_cases hw with
    ⟨-, rfl⟩ | ⟨-, rfl⟩ | ⟨-, g, rfl, -⟩ | ⟨g, rfl, -, hlog2n, hfsize, hovl, hha, hagain⟩
  · exact h.of_same { SameConfiguration.refl s with }
  · split
    · exact of_cfgv_eq_false rfl
    · exact h
  · exact of_cfgv_eq_false rfl
  · exact h.of_same ⟨rfl, rfl, hlog2n, hfsize, hovl, hha, hagain, rfl⟩

/-- The window memory is read-only to the host (20_memory.md R71). -/
theorem writeLocation {d : BitVec 64} {l : Location} (h : s.ConfigurationSound)
    (hw : s.writeLocation d l = some t) : t.ConfigurationSound := by
  rcases State.writeLocation_cases hw with ⟨r, -, hr⟩ | ⟨hi, k, im, -, rfl⟩ | ⟨k, -, rfl⟩ |
    ⟨k, -, rfl⟩ | ⟨a, -, rfl⟩ | ⟨b, -, rfl⟩
  · exact h.writeReg hr
  · cases hi <;> exact h.of_same { SameConfiguration.refl s with }
  all_goals exact h.of_same { SameConfiguration.refl s with }

theorem hostStep (h : s.ConfigurationSound) : s.hostStep.ConfigurationSound := by
  obtain ⟨u, hu, script, resp, e⟩ := s.hostStep_cases
  have hsound : u.ConfigurationSound := by
    rcases hu with rfl | rfl | ⟨_, _, _, -, hw⟩
    · exact h
    · exact of_cfgv_eq_false rfl
    · exact h.writeLocation hw
  rw [e]
  exact hsound.of_same { SameConfiguration.refl u with }

/-- Either agent's step keeps the promise of CFGV = 1. -/
theorem step_next (h : s.ConfigurationSound) (hs : step s = .next t) : t.ConfigurationSound := by
  have hturn : s.passTurn.ConfigurationSound := h.of_same { SameConfiguration.refl s with }
  rcases step_cases hs with rfl | rfl | ⟨w, -, ⟨why, -, rfl⟩ | ⟨i, -, he⟩⟩
  · exact h
  · exact hturn.hostStep
  · exact hturn.of_same { SameConfiguration.refl s.passTurn with }
  · exact hturn.exec_next he

end State.ConfigurationSound

/-- Settles O15: a step leaves the construction alone, clears CFGV, or is a successful `PVCFG`. -/
theorem stepKeepsConfiguration : Obligations.StepKeepsConfiguration := by
  unfold Obligations.StepKeepsConfiguration
  exact fun _ _ h hs => State.ConfigurationSound.step_next h hs

/-! ## `PVCFG` completes or faults -/

/-- `PVCFG` writes LOG2N, HA, AGAIN and the first entries of WM. -/
theorem State.untouched_configure {s : State} {l : Nat} (hl : s.regs.fsize.toNat = 2 ^ l) :
    Untouched s s.configure (fun r => r = .log2n ∨ r = .ha ∨ r = .again)
      (fun p => ∃ n, n < 2 ^ l ∧ p = .wm n) where
  regs r hst hr := by
    cases r
    case status => exact absurd rfl hst
    case log2n => exact absurd (.inl rfl) hr
    case ha => exact absurd (.inr (.inl rfl)) hr
    case again => exact absurd (.inr (.inr rfl)) hr
    all_goals rfl
  entries p hp := by
    cases p with
    | wm n =>
      have hn : ¬ n < 2 ^ l := fun hn => hp ⟨n, hn, rfl⟩
      exact Memory.get_splice_outside (by rw [hl]; omega)
    | _ => rfl
  sizes := rfl
  script := rfl
  sched := rfl
  resp := rfl

/-- Settles O42: what is written is what CFGV = 1 promises. -/
theorem pvcfgCompletes : Obligations.PvcfgCompletes := by
  unfold Obligations.PvcfgCompletes
  intro s l hpos hlt hsize hfits
  obtain ⟨hpow, hlog⟩ := isPow2_and_log2_le_iff.2 ⟨l, hsize, hfits⟩
  have hexec : exec .pvcfg s = .next s.configure.complete := by
    rw [exec_pvcfg, if_pos ⟨hpos, hpow, hlt, hlog⟩]
  have hconf := State.configured_configure hpos hpow hlt hlog
  have hlen : s.configure.len = 2 ^ l := (State.configure_len hpow).trans hsize
  have hcast : ((2 ^ l : Nat) : Int) = 2 ^ l := Nat.cast_pow 2 l
  have hwindow := hconf.window
  have hhop := hconf.hop
  rw [hlen, hcast] at hhop
  rw [hlen] at hwindow
  refine ⟨_, hexec, (Effect.pvcfg hpos hpow hlt hlog).completed (State.untouched_configure hsize),
    rfl, rfl, Nat.pow_right_injective le_rfl hlen, hhop, hconf.gain, fun i hi => ?_⟩
  rw [← hcast]
  exact hwindow i hi

/-- Settles O43: each of the four conditions fails one of the checks. -/
theorem pvcfgRejects : Obligations.PvcfgRejects := by
  unfold Obligations.PvcfgRejects
  intro s h
  refine ⟨_, ?_, s.faulted_faultEntry .config⟩
  rw [exec_pvcfg, if_neg]
  rintro ⟨hpos, hpow, hlt, hlog⟩
  obtain ⟨l, hl, hfits⟩ := isPow2_and_log2_le_iff.1 ⟨hpow, hlog⟩
  rcases h with h | h | h | h
  · exact absurd hpos (not_lt.2 h)
  · exact h l hl
  · exact absurd hlt (not_lt.2 h)
  · rw [hl] at h
    exact absurd (Nat.pow_le_pow_right two_pos hfits) (not_le.2 h)

end Sys2Proof.Machine
end

section
/-!
PROOFS. The shape of the window (42_vocoder.md R161): its angle is finite, its cosine depends on the
magnitude of the angle alone, and half of a value in [-1, 1] plus one half lies in [0, 1] after both
roundings.
-/

namespace Sys2Proof.Machine

/-! ## Bounds through a rounding -/

/-- What does not exceed a representable magnitude does not exceed it rounded. -/
theorem roundMag_le_fmag {c : F64} (hc : isNaN c = false) {num den : Nat} (hd : 0 < den)
    (h : num ≤ funits c * den) : roundMag 52 infMag num den ≤ fmag c := by
  have hmag : fmag c ≤ infMag := by simpa [isNaN] using hc
  calc roundMag 52 infMag num den
      ≤ roundMag 52 infMag (magUnits 52 (fmag c) * den) den := roundMag_mono hd h
    _ = fmag c := roundMag_exact hd hmag

theorem isFinite_of_fmag_le {a c : F64} (hc : isFinite c = true) (h : fmag a ≤ fmag c) :
    isFinite a = true :=
  decide_eq_true (h.trans_lt (fmag_of_isFinite hc))

theorem funits_le_iff {a b : F64} : funits a ≤ funits b ↔ fmag a ≤ fmag b := magUnits_le_iff

section Bounds

variable {a b c : F64} (ha : isFinite a = true) (hb : isFinite b = true) (hc : isFinite c = true)
include ha hb hc

theorem fmag_fmul_le (h : funits a * funits b ≤ funits c * oneUnits) :
    fmag (fmul a b) ≤ fmag c := by
  rw [fmul_of_isFinite ha hb, fmag_round64]
  exact roundMag_le_fmag (isNaN_of_isFinite hc) oneUnits_pos h

theorem fmag_fdiv_le (hz : isZero b = false) (h : funits a * oneUnits ≤ funits c * funits b) :
    fmag (fdiv a b) ≤ fmag c := by
  rw [fdiv_of_isFinite ha hb hz, fmag_round64]
  exact roundMag_le_fmag (isNaN_of_isFinite hc) (funits_pos hz) h

end Bounds

/-! ## Signs through the operations -/

theorem fneg_round64 (s : Bool) (num den : Nat) :
    fneg (round64 s num den) = round64 (!s) num den := by
  have hnan := isNaN_round64 s num den
  apply ext_pattern
  · rw [fsign_fneg hnan, fsign_round64, fsign_round64]
  · rw [fmag_fneg hnan, fmag_round64, fmag_round64]

theorem funits_fneg {a : F64} (h : isFinite a = true) : funits (fneg a) = funits a :=
  congrArg (magUnits 52) (fmag_fneg (isNaN_of_isFinite h))

/-- Zero apart, the negative of an integer is the negation of its value. -/
theorem f64_neg {n : Int} (hn : n ≠ 0) : f64 (-n) = fneg (f64 n) := by
  have hsign : decide (-n < 0) = !decide (n < 0) := by
    rw [← decide_not, decide_eq_decide]
    omega
  rw [f64, f64, packInt, packInt, fneg_round64, hsign, Int.natAbs_neg]

section Signs

variable {a b : F64} (ha : isFinite a = true) (hb : isFinite b = true)
include ha hb

theorem fmul_fneg : fmul a (fneg b) = fneg (fmul a b) := by
  rw [fmul_of_isFinite ha (by rw [isFinite_fneg, hb]), fmul_of_isFinite ha hb, fneg_round64,
    funits_fneg hb, fsign_fneg (isNaN_of_isFinite hb), Bool.bne_not]

theorem fneg_fdiv (hz : isZero b = false) : fdiv (fneg a) b = fneg (fdiv a b) := by
  rw [fdiv_of_isFinite (by rw [isFinite_fneg, ha]) hb hz, fdiv_of_isFinite ha hb hz, fneg_round64,
    funits_fneg ha, fsign_fneg (isNaN_of_isFinite ha), Bool.not_bne]

end Signs

/-! ## The angle of a weight -/

/-- The operand of the cosine in the window formula, `PI·n / d` with `n = 2i + 1 - F` and `d = F - 1`. -/
def windowAngle (n d : Int) : F64 := fdiv (fmul fPi (f64 n)) (f64 d)

/-- The weight whose cosine is `c`. -/
def raisedCosine (c : F64) : F64 := fadd fHalf (fmul fHalf c)

theorem windowWeight_eq (i f : Nat) : windowWeight i f =
    raisedCosine (cfgCos (windowAngle (2 * (i : Int) + 1 - f) ((f : Int) - 1))) := rfl

/-- A numerator and a divisor of the window formula, for frames of at most `2^24` samples. -/
structure AngleOperands (n d : Int) : Prop where
  /-- the numerator is odd, so not zero -/
  odd : n ≠ 0
  /-- at most the largest frame -/
  num : n.natAbs ≤ 2 ^ 24
  /-- at least one -/
  pos : 0 < d
  /-- at most the largest frame -/
  den : d.natAbs ≤ 2 ^ 24

theorem funits_fPi_le : funits fPi ≤ 4 * oneUnits := by decide +kernel

theorem isZero_f64 {n : Int} (hn : n.natAbs ≤ 2 ^ 53) (h : n ≠ 0) : isZero (f64 n) = false := by
  obtain ⟨-, -, hunits⟩ := f64_parts hn
  by_contra hz
  have hmag : fmag (f64 n) = 0 := by simpa [isZero] using hz
  have hzero : funits (f64 n) = 0 := by rw [funits, hmag]; decide
  rw [hunits] at hzero
  have hpos := Nat.mul_pos (Int.natAbs_pos.2 h) oneUnits_pos
  omega

section Angle

variable {n d : Int} (h : AngleOperands n d)
include h

/-- `PI·n` is at most `2^26`. -/
theorem fmag_angle_product_le : fmag (fmul fPi (f64 n)) ≤ fmag (f64 (2 ^ 26)) := by
  obtain ⟨hfin, -, hunits⟩ := f64_parts (h.num.trans (by norm_num))
  obtain ⟨hcap, -, hcap'⟩ := f64_parts (n := 2 ^ 26) (by norm_num)
  refine fmag_fmul_le (by decide) hfin hcap ?_
  calc funits fPi * funits (f64 n)
      ≤ 4 * oneUnits * (2 ^ 24 * oneUnits) := by
        rw [hunits]
        exact Nat.mul_le_mul funits_fPi_le (Nat.mul_le_mul_right _ h.num)
    _ = funits (f64 (2 ^ 26)) * oneUnits := by
        rw [hcap', show (2 ^ 26 : Int).natAbs = 4 * 2 ^ 24 by norm_num]; ring

theorem isFinite_angle_product : isFinite (fmul fPi (f64 n)) = true :=
  isFinite_of_fmag_le (f64_parts (n := 2 ^ 26) (by norm_num)).1 (fmag_angle_product_le h)

/-- The division by at least one does not enlarge the product. -/
theorem isFinite_windowAngle : isFinite (windowAngle n d) = true := by
  obtain ⟨hfin, -, hunits⟩ := f64_parts (h.den.trans (by norm_num))
  have hproduct := isFinite_angle_product h
  refine isFinite_of_fmag_le hproduct (fmag_fdiv_le hproduct hfin hproduct
    (isZero_f64 (h.den.trans (by norm_num)) h.pos.ne') (Nat.mul_le_mul_left _ ?_))
  rw [hunits]
  exact Nat.le_mul_of_pos_left _ (Int.natAbs_pos.2 h.pos.ne')

theorem windowAngle_neg : windowAngle (-n) d = fneg (windowAngle n d) := by
  have hnum := (f64_parts (h.num.trans (by norm_num))).1
  have hden := (f64_parts (h.den.trans (by norm_num))).1
  rw [windowAngle, f64_neg h.odd, fmul_fneg (by decide) hnum,
    fneg_fdiv (isFinite_angle_product h) hden
      (isZero_f64 (h.den.trans (by norm_num)) h.pos.ne'), windowAngle]

end Angle

/-! ## A weight is between 0 and 1 -/

theorem funits_fOne : funits fOne = oneUnits := by decide +kernel

theorem fval_fHalf : fval fHalf = funits fHalf := by decide +kernel

theorem two_mul_funits_fHalf : 2 * funits fHalf = funits fOne := by decide +kernel

/-- A value in [-1, 1] is finite, and its magnitude at most that of 1. -/
theorem fmag_le_fOne {c : F64} (h : fle fNegOne c = true ∧ fle c fOne = true) :
    fmag c ≤ fmag fOne := by
  have hnan := (not_isNaN_of_fle h.2).1
  have hlow := (fle_iff (by decide) hnan).1 h.1
  have hhigh := (fle_iff hnan (by decide)).1 h.2
  have hneg : fkey fNegOne = -(fmag fOne : Int) := by decide
  have hpos : fkey fOne = (fmag fOne : Int) := by decide
  cases hs : fsign c with
  | true =>
    rw [hneg, fkey, hs, if_pos rfl] at hlow
    omega
  | false =>
    rw [hpos, fkey, hs, if_neg Bool.false_ne_true] at hhigh
    omega

/-- A value that is not negative and not above 1. -/
theorem mem_unit_of_fmag {w : F64} (hs : fsign w = false) (hm : fmag w ≤ fmag fOne) :
    fle fZero w = true ∧ fle w fOne = true := by
  have hnan : isNaN w = false := isNaN_of_isFinite (isFinite_of_fmag_le (c := fOne) (by decide) hm)
  have hkey : fkey w = fmag w := by rw [fkey, hs]; rfl
  have hzero : fkey fZero = 0 := by decide
  have hone : fkey fOne = (fmag fOne : Int) := by decide
  rw [fle_iff (by decide) hnan, fle_iff hnan (by decide), hkey, hzero, hone]
  omega

/-- 42_vocoder.md R161 property (c), whatever the cosine is: half of it is at most one half, rounded. -/
theorem raisedCosine_mem {c : F64} (h : fle fNegOne c = true ∧ fle c fOne = true) :
    fle fZero (raisedCosine c) = true ∧ fle (raisedCosine c) fOne = true := by
  have hmag := fmag_le_fOne h
  have hfin : isFinite c = true := isFinite_of_fmag_le (by decide) hmag
  have hhalf : isFinite fHalf = true := by decide
  have hproduct : fmag (fmul fHalf c) ≤ fmag fHalf :=
    fmag_fmul_le hhalf hfin hhalf
      (Nat.mul_le_mul_left _ (funits_fOne ▸ funits_le_iff.2 hmag))
  have hpfin : isFinite (fmul fHalf c) = true := isFinite_of_fmag_le hhalf hproduct
  have hunits := funits_le_iff.2 hproduct
  have hval : -(funits fHalf : Int) ≤ fval (fmul fHalf c) ∧
      fval (fmul fHalf c) ≤ funits fHalf := by
    rw [fval]
    split <;> omega
  have htwo := two_mul_funits_fHalf
  refine mem_unit_of_fmag ?_ ?_
  · rw [raisedCosine, fsign_fadd hhalf hpfin, fval_fHalf]
    split
    · rfl
    · exact decide_eq_false (by omega)
  · rw [raisedCosine, fmag_fadd hhalf hpfin, fval_fHalf]
    exact roundMag_le_fmag (by decide) Nat.one_pos (by omega)

/-! ## The ends of the window -/

/-- The cosine at the magnitude of PI, on either side of zero. -/
theorem cfgCos_of_fmag_fPi {x : F64} (h : fmag x = fmag fPi) : cfgCos x = fNegOne := by
  have hfin : isFinite x = true := isFinite_of_fmag_le (c := fPi) (by decide) h.le
  have hz : isZero x = false := by simp only [isZero, h]; decide
  rw [cfgCos_of_isFinite hfin hz, if_pos h]

theorem raisedCosine_fNegOne : raisedCosine fNegOne = fZero := by decide +kernel

/-- The first angle of every frame length but 16 has the magnitude of PI: `PI·(F - 1)` divided by `F - 1`
gives PI back, roundings and all. -/
theorem fmag_first_angle : ∀ l < 25, 1 ≤ l → l ≠ 4 →
    fmag (windowAngle (1 - 2 ^ l) (2 ^ l - 1)) = fmag fPi := by decide +kernel

/-! ## The obligation -/

theorem angleOperands_window {l i : Nat} (hl : 1 ≤ l) (hl' : l ≤ 24) (hi : i < 2 ^ l) :
    AngleOperands (2 * (i : Int) + 1 - (2 ^ l : Nat)) ((2 ^ l : Nat) - 1) := by
  have hcap : 2 ^ l ≤ 2 ^ 24 := Nat.pow_le_pow_right (by norm_num) hl'
  obtain ⟨k, rfl⟩ : ∃ k, l = k + 1 := ⟨l - 1, by omega⟩
  rw [pow_succ] at hcap hi ⊢
  have hpos := Nat.two_pow_pos k
  constructor <;> omega

/-- 42_vocoder.md R161 property (b): the mirrored weight has the negated angle. -/
theorem windowWeight_mirror {l i : Nat} (hl : 1 ≤ l) (hl' : l ≤ 24) (hi : i < 2 ^ l) :
    windowWeight (2 ^ l - 1 - i) (2 ^ l) = windowWeight i (2 ^ l) := by
  have hmirror : 2 * ((2 ^ l - 1 - i : Nat) : Int) + 1 - (2 ^ l : Nat) =
      -(2 * (i : Int) + 1 - (2 ^ l : Nat)) := by omega
  rw [windowWeight_eq, windowWeight_eq, hmirror, windowAngle_neg (angleOperands_window hl hl' hi),
    cfgCos_fneg]

/-- 42_vocoder.md R161 property (a), at the first weight. -/
theorem windowWeight_zero {l : Nat} (hl : 1 ≤ l) (hl' : l ≤ 24) (h4 : l ≠ 4) :
    windowWeight 0 (2 ^ l) = fZero := by
  have hangle := fmag_first_angle l (by omega) hl h4
  have hnum : 2 * ((0 : Nat) : Int) + 1 - (2 ^ l : Nat) = 1 - 2 ^ l := by push_cast; ring
  rw [windowWeight_eq, hnum, Nat.cast_pow, Nat.cast_ofNat, cfgCos_of_fmag_fPi hangle,
    raisedCosine_fNegOne]

/-- Settles O30: the ends by the angle's magnitude, the symmetry by the evenness of the cosine, the range
by the bounds of the two roundings. -/
theorem windowShape : Obligations.WindowShape := by
  unfold Obligations.WindowShape
  intro l i hl hl' hi
  have hmirror := fun {j} => windowWeight_mirror (i := j) hl hl'
  have hmem : fle fZero (windowWeight i (2 ^ l)) = true ∧ fle (windowWeight i (2 ^ l)) fOne = true :=
    raisedCosine_mem (cfgCos_mem (isFinite_windowAngle (angleOperands_window hl hl' hi)))
  refine ⟨fun h4 => ?_, (hmirror hi).symm, hmem⟩
  have hfirst := windowWeight_zero hl hl' h4
  exact ⟨hfirst, (hmirror (Nat.two_pow_pos l)).trans hfirst⟩

end Sys2Proof.Machine
end

section
/-!
PROOFS. The commands of the vocoder that work on the frame, the phase memories and the real sample
memory (42_vocoder.md R162 to R167): their faults, what each writes, and what it leaves alone.
-/

namespace Sys2Proof.Machine

/-! ## Faults -/

/-- Settles O45: CFGV is checked before anything else, then the regions. -/
theorem vocoderFaults : Obligations.VocoderFaults := by
  unfold Obligations.VocoderFaults
  refine fun s n => ⟨fun hc i hi => ?config, fun hc => ⟨fun h => ?framew, fun h => ?ola⟩,
    fun h => ?resamp⟩
  case config =>
    have hconf : ¬ s.configured := by simp [hc]
    refine ⟨_, ?_, s.faulted_faultEntry .config⟩
    rcases hi with rfl | rfl | rfl
    · rw [exec_framew, if_neg hconf]
    · rw [exec_phase, if_neg hconf]
    · rw [exec_ola, if_neg hconf]
  case framew =>
    refine ⟨_, ?_, s.faulted_faultEntry .range⟩
    rw [exec_framew, if_pos (show s.configured from hc), if_neg]
    rintro ⟨hregion, hframe⟩
    exact h.elim (not_lt.2 hregion) (not_lt.2 hframe)
  case ola =>
    refine ⟨_, ?_, s.faulted_faultEntry .range⟩
    rw [exec_ola, if_pos (show s.configured from hc), if_neg (not_le.2 h)]
  case resamp =>
    refine ⟨_, ?_, s.faulted_faultEntry .range⟩
    rw [exec_resamp, if_neg]
    rintro ⟨hsource, hdest, hsome⟩
    rcases h with h | h | ⟨hpos, hempty⟩
    · exact not_lt.2 hsource h
    · exact not_lt.2 hdest h
    · exact (hsome hpos).ne' hempty

/-! ## Analysis -/

/-- Settles O46: one pass, whose entries are the windowed and scaled samples. -/
theorem framewCompletes : Obligations.FramewCompletes := by
  unfold Obligations.FramewCompletes
  intro s i hc hregion hframe
  have hexec : exec (.framew i) s = .next (s.framePass s.len (s.analysisSample i)).complete := by
    rw [exec_framew, if_pos (show s.configured from hc), if_pos ⟨hregion, hframe⟩]
  exact ⟨_, hexec, s.completed_framePass _ _, hc, rfl, fun n hn => s.framePass_get _ hn⟩

/-! ## The phase memories -/

/-- The first `n` entries of PV and CU are written. -/
def State.writePhases (s : State) (n : Nat) (pv cu : Nat → F64) : State :=
  { s with pv := s.pv.splice 0 n pv, cu := s.cu.splice 0 n cu }

theorem State.writePhases_get (s : State) {n k : Nat} (pv cu : Nat → F64) (hk : k < n) :
    (s.writePhases n pv cu).pv.get k = pv k ∧ (s.writePhases n pv cu).cu.get k = cu k := by
  have hget (m : Memory 64) (f : Nat → F64) : (m.splice 0 n f).get k = f k := by
    have h := Memory.get_splice_inside (m := m) (base := 0) (f := f) hk
    rwa [Nat.zero_add] at h
  exact ⟨hget _ _, hget _ _⟩

/-- More entries may be named than have changed. -/
theorem Untouched.mono {s t : State} {R : RegName → Prop} {P Q : Place → Prop}
    (h : Untouched s t R P) (hPQ : ∀ p, P p → Q p) : Untouched s t R Q :=
  { h with entries := fun p hp => h.entries p (mt (hPQ p) hp) }

/-- Writing the first entries of PV and CU touches nothing else. -/
theorem Untouched.writePhases {s t : State} {R : RegName → Prop} {P : Place → Prop} {n : Nat}
    (h : Untouched s t R P) (hpv : ∀ k, k < n → P (.pv k)) (hcu : ∀ k, k < n → P (.cu k))
    (pv cu : Nat → F64) : Untouched s (t.writePhases n pv cu) R P where
  regs r hst hr := by
    rw [← h.regs r hst hr]
    exact State.readReg_congr (s := t) (t := t.writePhases n pv cu) rfl hst
  entries p hp := by
    rw [← h.entries p hp]
    cases p with
    | pv k =>
      have hk : ¬ k < n := fun hk => hp (hpv k hk)
      exact Memory.get_splice_outside (by omega)
    | cu k =>
      have hk : ¬ k < n := fun hk => hp (hcu k hk)
      exact Memory.get_splice_outside (by omega)
    | _ => rfl
  sizes := h.sizes
  script := h.script
  sched := h.sched
  resp := h.resp

section HostRead

variable {s : State} {haddr : BitVec 32} {k : Nat} (hz : s.sizes.Legal) (hp : s.pending = none)
  (hk : k < s.nmax)
include hz hp hk

/-- A host read of PV while the slot is empty (20_memory.md R70, R73). -/
theorem State.portRead_pv (ha : (Location.pv k).address = haddr.toNat) :
    s.portRead haddr = .data (s.pv.get k) := by
  rw [State.portRead_data (State.accepts_memory hz hp (l := .pv k) hk ha rfl nofun false),
    State.valueAt, BitVec.ofNat_toNat, BitVec.setWidth_eq]

/-- A host read of CU while the slot is empty. -/
theorem State.portRead_cu (ha : (Location.cu k).address = haddr.toNat) :
    s.portRead haddr = .data (s.cu.get k) := by
  rw [State.portRead_data (State.accepts_memory hz hp (l := .cu k) hk ha rfl nofun false),
    State.valueAt, BitVec.ofNat_toNat, BitVec.setWidth_eq]

end HostRead

/-- What `PHRST` writes: +0.0 at every entry of both memories (42_vocoder.md R163). -/
def State.clearPhases (s : State) : State := s.writePhases s.nmax (fun _ => fZero) (fun _ => fZero)

theorem exec_phrst_eq_clearPhases (s : State) : exec .phrst s = .next s.clearPhases.complete := rfl

theorem State.clearPhases_get (s : State) {k : Nat} (hk : k < s.nmax) :
    s.clearPhases.pv.get k = fZero ∧ s.clearPhases.cu.get k = fZero :=
  s.writePhases_get _ _ hk

/-- Settles O44: the two addresses of the example are those of `PV[1]` and `CU[0]`. -/
theorem phrstCompletes : Obligations.PhrstCompletes := by
  unfold Obligations.PhrstCompletes
  intro s
  have hframe : Untouched s s.clearPhases noReg (fun p => ∃ k, k < s.nmax ∧ (p = .pv k ∨ p = .cu k)) :=
    (Untouched.refl s _).writePhases (fun k hk => ⟨k, hk, .inl rfl⟩) (fun k hk => ⟨k, hk, .inr rfl⟩) _ _
  refine ⟨_, exec_phrst_eq_clearPhases s, Effect.phrst.completed hframe, rfl, rfl,
    fun k hk => s.clearPhases_get hk, fun hz => ?_⟩
  have hlog : s.sizes.log2nMax ≠ 0 := fun h => absurd (h ▸ hz.1) (by norm_num)
  have hone : 1 < s.nmax := Nat.one_lt_two_pow hlog
  have hzero : 0 < s.nmax := Nat.zero_lt_of_lt hone
  have hpv := State.portRead_pv (s := s.clearPhases.complete) (haddr := 0x40000008#32) hz rfl hone rfl
  have hcu := State.portRead_cu (s := s.clearPhases.complete) (haddr := 0x50000000#32) hz rfl hzero rfl
  exact ⟨hpv.trans (congrArg BusResponse.data (s.clearPhases_get hone).1),
    hcu.trans (congrArg BusResponse.data (s.clearPhases_get hzero).2)⟩

/-! ## Processing -/

/-- Settles O47: no bin depends on another, so each is one evaluation of the formulas, WRAP among them
(40_numerics.md R126). -/
theorem phaseCompletes : Obligations.PhaseCompletes := by
  unfold Obligations.PhaseCompletes
  intro s hc
  have hexec : exec .phase s =
      .next ((s.framePass s.len s.binOutput).writePhases s.len s.binPhase s.binCumulative).complete := by
    rw [exec_phase, if_pos (show s.configured from hc)]
    rfl
  have hframe : Untouched s
      ((s.framePass s.len s.binOutput).writePhases s.len s.binPhase s.binCumulative) noReg
      (fun p => s.InactiveBelow s.len p ∨ ∃ k, k < s.len ∧ (p = .pv k ∨ p = .cu k)) :=
    ((s.untouched_framePass s.len s.binOutput).mono fun _ => .inl).writePhases
      (fun k hk => .inr ⟨k, hk, .inl rfl⟩) (fun k hk => .inr ⟨k, hk, .inr rfl⟩) _ _
  refine ⟨_, hexec, (Effect.phase hc).completed hframe, hc, rfl, fun k hk => ?_⟩
  obtain ⟨hpv, hcu⟩ := (s.framePass s.len s.binOutput).writePhases_get s.binPhase s.binCumulative hk
  exact ⟨hpv, hcu, s.framePass_get s.binOutput hk⟩

/-! ## The real sample memory -/

/-- A new contents of RM touches the words that differ. -/
theorem State.untouched_rm (s : State) {m : Memory 64} {P : Place → Prop}
    (h : ∀ a, ¬ P (.rm a) → m.get a = s.rm.get a) : Untouched s { s with rm := m } noReg P where
  regs _ hst _ := State.readReg_congr rfl hst
  entries p hp := by
    cases p with
    | rm a => exact h a hp
    | _ => rfl
  sizes := rfl
  script := rfl
  sched := rfl
  resp := rfl

/-! ## Synthesis -/

/-- The entries of a frame that are added are those below OLEN (42_vocoder.md R166). -/
theorem State.lt_olaCount_iff {s : State} {i n : Nat} :
    n < s.olaCount i ↔ n < s.len ∧ i * s.hopS + n < s.regs.olen.toNat := by
  rw [State.olaCount, lt_min_iff]
  omega

/-- The words of a frame lie side by side from its first one on. -/
theorem State.olaIndex_eq (s : State) (i n : Nat) : s.olaIndex i n = s.olaIndex i 0 + n := by
  simp only [State.olaIndex]
  omega

/-- Settles O48: the range written is that of the entries below OLEN. -/
theorem olaCompletes : Obligations.OlaCompletes := by
  unfold Obligations.OlaCompletes
  intro s i hc hregion
  have hexec : exec (.ola i) s = .next (State.complete { s with
      rm := s.rm.splice (s.olaIndex i 0) (s.olaCount i) (s.olaSum i) }) := by
    rw [exec_ola, if_pos (show s.configured from hc), if_pos hregion]
  refine ⟨_, hexec, (Effect.ola hc hregion).completed (s.untouched_rm fun a ha => ?outside), hc, rfl,
    fun n hn hbelow => ?inside⟩
  case outside =>
    refine Memory.get_splice_outside fun ⟨hle, hlt⟩ => ha ?_
    obtain ⟨n, rfl⟩ := Nat.exists_eq_add_of_le hle
    obtain ⟨hn, hbelow⟩ := State.lt_olaCount_iff.1 (Nat.lt_of_add_lt_add_left hlt)
    exact ⟨n, hn, hbelow, by rw [← s.olaIndex_eq]; rfl⟩
  case inside =>
    have hget := Memory.get_splice_inside (m := s.rm) (base := s.olaIndex i 0) (f := s.olaSum i)
      (State.lt_olaCount_iff.2 ⟨hn, hbelow⟩)
    rwa [← s.olaIndex_eq] at hget

end Sys2Proof.Machine
end

section
/-!
PROOFS. The resampling loop (42_vocoder.md R167): its source positions are finite and not negative, and
its iterations one by one.
-/

namespace Sys2Proof.Machine

/-! ## Source positions -/

theorem f64_nat_parts {n : Nat} (hn : n ≤ 2 ^ 53) :
    isFinite (f64 n) = true ∧ fsign (f64 n) = false ∧ funits (f64 n) = n * oneUnits := by
  obtain ⟨hfin, hsign, hunits⟩ := f64_parts (n := n) (by rwa [Int.natAbs_natCast])
  exact ⟨hfin, hsign.trans (decide_eq_false (by omega)), by rwa [Int.natAbs_natCast] at hunits⟩

/-- The quotient `i / dl` is at most 1, so the position is at most `sl` (42_vocoder.md R167). -/
theorem resamplePos_parts {i dl sl : Nat} (hi : i < dl) (hdl : dl ≤ 2 ^ 53) (hsl : sl ≤ 2 ^ 53) :
    isFinite (resamplePos i dl sl) = true ∧ fsign (resamplePos i dl sl) = false := by
  obtain ⟨ifin, isign, iunits⟩ := f64_nat_parts (hi.le.trans hdl)
  obtain ⟨dfin, dsign, dunits⟩ := f64_nat_parts hdl
  obtain ⟨sfin, ssign, -⟩ := f64_nat_parts hsl
  have hz : isZero (f64 dl) = false := isZero_f64 (n := dl) (by rwa [Int.natAbs_natCast]) (by omega)
  have hquot : fmag (fdiv (f64 i) (f64 dl)) ≤ fmag fOne := by
    refine fmag_fdiv_le ifin dfin (by decide) hz ?_
    rw [iunits, dunits, funits_fOne, Nat.mul_comm oneUnits]
    exact Nat.mul_le_mul_right _ (Nat.mul_le_mul_right _ hi.le)
  have hqfin : isFinite (fdiv (f64 i) (f64 dl)) = true := isFinite_of_fmag_le (by decide) hquot
  have hprod : fmag (resamplePos i dl sl) ≤ fmag (f64 sl) := by
    refine fmag_fmul_le hqfin sfin sfin ?_
    rw [Nat.mul_comm, ← funits_fOne]
    exact Nat.mul_le_mul_left _ (funits_le_iff.2 hquot)
  refine ⟨isFinite_of_fmag_le sfin hprod, ?_⟩
  rw [resamplePos, fsign_fmul hqfin sfin, fsign_fdiv ifin dfin hz, isign, dsign, ssign]
  rfl

/-- The integer of a value that is not negative. -/
theorem toNat_fval_div {a : F64} (h : fsign a = false) :
    (fval a / 2 ^ 1074).toNat = fnat a := by
  rw [fval_eq_signed, h, signed, if_neg Bool.false_ne_true, ← oneUnits_intCast,
    ← Int.natCast_ediv, Int.toNat_natCast, fnat]

/-! ## Iterations -/

/-- The value of an iteration, with its two source indices as the integers that are the values of the
floor and the ceiling of the position (42_vocoder.md R167). -/
theorem resampleValue_eq (rm : Memory 64) (sb : Nat) {i dl sl : Nat} (hi : i < dl)
    (hdl : dl ≤ 2 ^ 53) (hsl : sl ≤ 2 ^ 53) :
    resampleValue rm sb sl dl i =
      let p := resamplePos i dl sl
      let fr := fsub p (ffloor p)
      let f := min (fval (ffloor p) / 2 ^ 1074).toNat (sl - 1)
      let c := min (fval (fceil p) / 2 ^ 1074).toNat (sl - 1)
      fadd (fmul (rm.get (sb + f)) (fsub fOne fr)) (fmul (rm.get (sb + c)) fr) := by
  obtain ⟨hfin, hsign⟩ := resamplePos_parts hi hdl hsl
  have hfloor := toNat_fval_div ((ffloor_parts hfin).1.trans hsign)
  have hceil := toNat_fval_div ((fceil_parts hfin).1.trans hsign)
  simp only [resampleValue, hfloor, hceil]

/-- One iteration writes one word of RM. -/
theorem State.resampled_succ_get (s : State) (i a : Nat) : (s.resampled (i + 1)).get a =
    if a = s.regs.rdbase.toNat + i then
      resampleValue (s.resampled i) s.regs.rsbase.toNat s.regs.rslen.toNat s.regs.rdlen.toNat i
    else (s.resampled i).get a :=
  Memory.get_set _ _ _ _

/-- The loop writes the destination only. -/
theorem State.resampled_get_of_ne (s : State) {n a : Nat}
    (h : ∀ i, i < n → a ≠ s.regs.rdbase.toNat + i) : (s.resampled n).get a = s.rm.get a := by
  induction n with
  | zero => rfl
  | succ n ih =>
    rw [s.resampled_succ_get, if_neg (h n (Nat.lt_succ_self n))]
    exact ih fun i hi => h i (Nat.lt_succ_of_lt hi)

/-- Settles O49: the contents before iteration `i` are those the loop has made after `i` iterations. -/
theorem resampCompletes : Obligations.ResampCompletes := by
  unfold Obligations.ResampCompletes
  intro s hsource hdest hsome
  have hexec : exec .resamp s =
      .next (State.complete { s with rm := s.resampled s.regs.rdlen.toNat }) := by
    rw [exec_resamp, if_pos ⟨hsource, hdest, hsome⟩]
  refine ⟨_, hexec, (Effect.resamp hsource hdest hsome).completed (s.untouched_rm fun a ha => ?frame),
    rfl, rfl, fun i a => (s.resampled i).get a, fun _ => rfl, fun _ => rfl, fun i hi => ⟨?written, ?other⟩⟩
  case frame => exact s.resampled_get_of_ne fun i hi he => ha ⟨i, hi, by rw [he]⟩
  case written =>
    have hdl : s.regs.rdlen.toNat ≤ 2 ^ 53 := s.regs.rdlen.isLt.le.trans (by norm_num)
    have hsl : s.regs.rslen.toNat ≤ 2 ^ 53 := s.regs.rslen.isLt.le.trans (by norm_num)
    exact (s.resampled_succ_get i _).trans ((if_pos rfl).trans
      (resampleValue_eq (s.resampled i) s.regs.rsbase.toNat hi hdl hsl))
  case other => exact fun a ha => (s.resampled_succ_get i a).trans (if_neg ha)

end Sys2Proof.Machine
end

section
/-!
PROOFS. The faults of the codec commands (43_codec.md R181, R183, R186, R190, R192): the descriptor
check, the checks of `WAVHDR` in the order of its lines, and the ranges of the other three commands.
-/

namespace Sys2Proof.Machine

/-- A command that is the fault entry faults in the sense of Safety.lean. -/
theorem exists_faulted {s : State} {i : Instr} {e : ErrCode}
    (h : exec i s = .next (s.faultEntry e)) : ∃ t, exec i s = .next t ∧ Faulted s t e :=
  ⟨_, h, s.faulted_faultEntry e⟩

/-! ## The descriptor check -/

/-- Every way a descriptor can be bad, and its code (43_codec.md R181): whatever the error of the check
leads to holds of that code. -/
theorem descriptorCheck_faults {a b n : Nat} {fails : ErrCode → Prop}
    (h : ∀ e, descriptorCheck a b n = .error e → fails e) :
    (¬ (a = 1 ∨ a = 3 ∨ a = 0xFFFE) → fails .afmt) ∧
    (a = 3 → ¬ (b = 32 ∨ b = 64) → fails .bits) ∧
    (a = 1 ∨ a = 0xFFFE → ¬ (b = 8 ∨ b = 16 ∨ b = 24 ∨ b = 32) → fails .bits) ∧
    (DescriptorOk a b 1 → n = 0 → fails .chan) := by
  unfold descriptorCheck at h
  refine ⟨fun htag => h _ (if_pos htag), fun ha hb => h _ ?float, fun ha hb => h _ ?integer,
    fun hd hn => h _ ?channels⟩
  case float => rw [if_neg (by omega), if_pos ⟨ha, hb⟩]
  case integer => rw [if_neg (by omega), if_neg (by omega), if_pos ⟨by omega, hb⟩]
  case channels =>
    rw [if_neg (not_not.2 hd.tag), if_neg fun hf => hf.2 (hd.float hf.1),
      if_neg fun hf => hf.2 (hd.integer hf.1), if_pos hn]

/-- The commands that take their descriptor from the registers check it before anything else. -/
theorem exec_of_descriptorCheck_error {s : State} {i : Instr} {e : ErrCode}
    (hi : i = .pcmdec ∨ i = .wavhdrw ∨ i = .pcmenc)
    (h : descriptorCheck s.regs.afmt.toNat s.regs.bps.toNat s.regs.nch.toNat = .error e) :
    exec i s = .next (s.faultEntry e) := by
  have hcheck (k : Nat → Except ErrCode State) : s.conclude (s.checkDescriptor k) =
      .next (s.faultEntry e) := by
    rw [State.checkDescriptor, h, State.conclude_error]
  rcases hi with rfl | rfl | rfl <;> exact hcheck _

/-- Settles O54: an error of the descriptor check is the end of each of the three commands. -/
theorem descriptorFaults : Obligations.DescriptorFaults := by
  unfold Obligations.DescriptorFaults
  exact fun s i hi => descriptorCheck_faults fun e h =>
    exists_faulted (exec_of_descriptorCheck_error hi h)

/-! ## The checks of `WAVHDR` -/

/-- `WAVHDR` behind its checks of the container (43_codec.md R183 lines 9 to 30). -/
def State.parseDescriptor (s : State) : Except ErrCode State :=
  match descriptorCheck (s.bm.readLE 20 2) (s.bm.readLE 34 2) (s.bm.readLE 22 2) with
  | .error e => .error e
  | .ok by' =>
    match dataCursor s.bm s.regs.blen.toNat (s.bm.readLE 20 2) with
    | .error e => .error e
    | .ok c =>
      let ns := sampleCount (s.bm.readLE (c + 4) 4) (s.bm.readLE 22 2) by'
      if s.regs.blen.toNat < c + 8 + ns * s.bm.readLE 22 2 * by' then .error .trunc
      else .ok (s.writeHeaderRegs (headerFields s.bm) ns (s.bm.readLE (c + 4) 4) (c + 8))

/-- `WAVHDR` as its checks of the container and the rest (43_codec.md R183 lines 1 to 6). -/
theorem exec_wavhdr (s : State) : exec .wavhdr s = s.conclude
    (if s.sizes.bmBytes < s.regs.blen.toNat then .error .range
    else if s.regs.blen.toNat < 36 then .error .trunc
    else if s.bm.tagAt 0 ≠ tagRIFF then .error .tagRiff
    else if s.bm.tagAt 8 ≠ tagWAVE then .error .tagWave
    else if s.bm.tagAt 12 ≠ tagFmt then .error .tagFmt
    else s.parseDescriptor) := rfl

/-- Where there is no header of a data sub-chunk, the length of the file says which code it is. -/
theorem dataCursor_of_forall_not {bm : Memory 8} {bl a : Nat} (h : ∀ c, ¬ DataHeaderAt bm bl a c) :
    dataCursor bm bl a =
      .error (if bl < (if a = 0xFFFE then 38 else 44) then .trunc else .tagData) := by
  cases hc : dataCursor bm bl a with
  | ok c => exact absurd (dataCursor_ok.1 hc) (h c)
  | error e =>
    rcases dataCursor_error hc with ⟨rfl, hlt⟩ | ⟨rfl, hle⟩
    · rw [if_pos hlt]
    · rw [if_neg (not_lt.2 hle)]

section Parse

variable {s : State}

theorem State.parseDescriptor_of_check {e : ErrCode}
    (h : descriptorCheck (s.bm.readLE 20 2) (s.bm.readLE 34 2) (s.bm.readLE 22 2) = .error e) :
    s.parseDescriptor = .error e := by
  rw [State.parseDescriptor, h]

variable (hd : DescriptorOk (s.bm.readLE 20 2) (s.bm.readLE 34 2) (s.bm.readLE 22 2))
include hd

theorem State.parseDescriptor_of_forall_not
    (h : ∀ c, ¬ DataHeaderAt s.bm s.regs.blen.toNat (s.bm.readLE 20 2) c) :
    s.parseDescriptor = .error
      (if s.regs.blen.toNat < (if s.bm.readLE 20 2 = 0xFFFE then 38 else 44) then .trunc
      else .tagData) := by
  rw [State.parseDescriptor, descriptorCheck_ok.2 ⟨hd, rfl⟩, dataCursor_of_forall_not h]

theorem State.parseDescriptor_of_overrun {c : Nat}
    (hh : DataHeaderAt s.bm s.regs.blen.toNat (s.bm.readLE 20 2) c)
    (hl : s.regs.blen.toNat < c + 8 + s.bm.readLE (c + 4) 4 / s.bm.readLE 22 2 /
      (s.bm.readLE 34 2 / 8) * s.bm.readLE 22 2 * (s.bm.readLE 34 2 / 8)) :
    s.parseDescriptor = .error .trunc := by
  rw [State.parseDescriptor, descriptorCheck_ok.2 ⟨hd, rfl⟩, dataCursor_ok.2 hh]
  exact if_pos hl

end Parse

/-- Settles O51: the checks of the container in their order, then those of the descriptor, then where
the data sub-chunk is and whether its samples are inside the file. -/
theorem wavhdrFaults : Obligations.WavhdrFaults := by
  unfold Obligations.WavhdrFaults
  intro s bl a b n fails
  have fault (e : ErrCode) (h : exec .wavhdr s = s.conclude (.error e)) : fails e := exists_faulted h
  refine ⟨fun hbl => fault _ ?range, fun hbl => ⟨fun hlen => fault _ ?trunc, fun hlen =>
    ⟨fun h0 => fault _ ?riff, fun h0 h8 => fault _ ?wave, fun h0 h8 h12 => fault _ ?fmt,
      fun hc => ?contents⟩⟩⟩
  case range => rw [exec_wavhdr, if_pos hbl]
  case trunc => rw [exec_wavhdr, if_neg (not_lt.2 hbl), if_pos hlen]
  case riff => rw [exec_wavhdr, if_neg (not_lt.2 hbl), if_neg (not_lt.2 hlen), if_pos h0]
  case wave =>
    rw [exec_wavhdr, if_neg (not_lt.2 hbl), if_neg (not_lt.2 hlen), if_neg (not_not.2 h0), if_pos h8]
  case fmt =>
    rw [exec_wavhdr, if_neg (not_lt.2 hbl), if_neg (not_lt.2 hlen), if_neg (not_not.2 h0),
      if_neg (not_not.2 h8), if_pos h12]
  case contents =>
    have parsed (e : ErrCode) (h : s.parseDescriptor = .error e) : fails e :=
      fault e (h ▸ exec_wavhdr_of_container hbl hlen hc)
    have missing (hd : DescriptorOk a b n) (h : ∀ c, ¬ DataHeaderAt s.bm bl a c) :=
      parsed _ (State.parseDescriptor_of_forall_not hd h)
    obtain ⟨hafmt, hfloat, hinteger, hchan⟩ :=
      descriptorCheck_faults fun e h => parsed e (State.parseDescriptor_of_check h)
    refine ⟨hafmt, hfloat, hinteger, hchan, fun hd => ⟨fun ha h => ?plainShort,
      fun ha h ht => ?plainTag, fun ha h => ?extensibleShort, fun ha h hno => ?extensibleTag,
      fun c hh hl => parsed _ (State.parseDescriptor_of_overrun hd hh hl)⟩⟩
    case plainShort =>
      have key := missing hd fun c hh => by have := hh.plain ha; have := hh.fits; omega
      rwa [if_neg ha, if_pos h] at key
    case plainTag =>
      have key := missing hd fun c hh => ht (hh.plain ha ▸ hh.tag)
      rwa [if_neg ha, if_neg (not_lt.2 h)] at key
    case extensibleShort =>
      have key := missing hd fun c hh => absurd (hh.scan ha).1 (not_le.2 h)
      rwa [if_pos ha, if_pos h] at key
    case extensibleTag =>
      have key := missing hd hno
      rwa [if_pos ha, if_neg (not_lt.2 h)] at key

/-! ## The ranges of the other commands -/

/-- The checks of the channel buffers, refused (43_codec.md R186, R192). -/
theorem State.not_channelsFit {s : State} (h : (1 < s.regs.nch.toNat ∧
      s.regs.chstride.toNat < s.regs.nsamp.toNat) ∨
    s.sizes.rmWords < s.regs.chbase.toNat + (s.regs.nch.toNat - 1) * s.regs.chstride.toNat +
      s.regs.nsamp.toNat) : ¬ s.channelsFit :=
  fun hf => h.elim hf.1 (not_lt.2 hf.2)

/-- Settles O55: each command's checks behind the descriptor, in their order. -/
theorem codecRangeFaults : Obligations.CodecRangeFaults := by
  unfold Obligations.CodecRangeFaults
  intro s n ns by' stride stop fails buffersBad hd
  have hpayload : s.regs.dataoff.toNat + s.payload (s.regs.bps.toNat / 8) = stop := rfl
  refine ⟨fun h => exists_faulted ?beyond, fun hbl h => exists_faulted ?trunc,
    fun hbl hstop h => exists_faulted ?buffers, fun h => exists_faulted ?pcmenc,
    fun h => exists_faulted ?wavhdrw⟩
  case beyond => rw [exec_pcmdec hd, if_pos h]
  case trunc => rw [exec_pcmdec hd, hpayload, if_neg (not_lt.2 hbl), if_pos h]
  case buffers =>
    rw [exec_pcmdec hd, hpayload, if_neg (not_lt.2 hbl), if_neg (not_lt.2 hstop),
      if_neg (State.not_channelsFit h)]
  case pcmenc =>
    rw [exec_pcmenc hd, hpayload]
    by_cases hstop : s.sizes.bmBytes < stop
    · rw [if_pos hstop]
    · rw [if_neg hstop, if_neg (State.not_channelsFit (h.resolve_left hstop))]
  case wavhdrw =>
    rw [exec_wavhdrw hd, if_neg]
    rintro ⟨hsize, hroom, hrate, halign⟩
    rcases h with h | h | h | h
    · exact not_le.2 hsize h
    · exact not_lt.2 hroom h
    · exact not_le.2 hrate h
    · exact not_le.2 halign h

end Sys2Proof.Machine
end

section
/-!
PROOFS. The completions of the codec commands (43_codec.md R183, R186, R190, R192): what each writes,
and what it leaves alone; a file written by the encoder and parsed back.
-/

namespace Sys2Proof.Machine

/-! ## Fields and tags -/

theorem toNat_ofNat_of_lt {w x : Nat} (h : x < 2 ^ w) : (BitVec.ofNat w x).toNat = x :=
  (BitVec.toNat_ofNat x w).trans (Nat.mod_eq_of_lt h)

theorem ofNat_toNat_self {w : Nat} (v : BitVec w) : BitVec.ofNat w v.toNat = v :=
  (BitVec.ofNat_toNat w v).trans (BitVec.setWidth_eq v)

/-- A register at least as wide as the field it takes holds the field. -/
theorem toNat_ofNat_readLE (m : Memory 8) (o : Nat) {n w : Nat} (h : 256 ^ n ≤ 2 ^ w) :
    (BitVec.ofNat w (m.readLE o n)).toNat = m.readLE o n :=
  toNat_ofNat_of_lt ((m.readLE_lt o n).trans_le h)

/-- A tag depends on its four bytes alone. -/
theorem tagAt_congr {m m' : Memory 8} {o : Nat}
    (h : ∀ a, o ≤ a → a < o + 4 → m.get a = m'.get a) : m.tagAt o = m'.tagAt o := by
  have byte (i : Nat) (hi : i < 4) : m.get (o + i) = m'.get (o + i) :=
    h (o + i) (Nat.le_add_right o i) (Nat.add_lt_add_left hi o)
  exact (Tag.mk.injEq ..).mpr
    ⟨byte 0 (by omega), byte 1 (by omega), byte 2 (by omega), byte 3 (by omega)⟩

/-- New contents of BM and of the registers touch the bytes and the registers that differ. -/
theorem State.untouched_bm (s : State) {m : Memory 8} {g : Regs} {R : RegName → Prop}
    {P : Place → Prop}
    (hreg : ∀ r, r ≠ .status → ¬ R r → State.readReg { s with regs := g } r = s.readReg r)
    (hbm : ∀ b, ¬ P (.bm b) → m.get b = s.bm.get b) :
    Untouched s { s with bm := m, regs := g } R P where
  regs r hst hr := by
    rw [← hreg r hst hr]
    exact State.readReg_congr (s := { s with regs := g }) (t := { s with bm := m, regs := g }) rfl hst
  entries p hp := by
    cases p with
    | bm b => exact congrArg (BitVec.setWidth 64) (hbm b hp)
    | _ => rfl
  sizes := rfl
  script := rfl
  sched := rfl
  resp := rfl

/-! ## The header parsed -/

/-- The registers the parse writes are the eleven of its rule (43_codec.md R183 lines 28 to 30). -/
theorem State.readReg_writeHeaderRegs (s : State) (h : HeaderFields) (ns dsz doff : Nat)
    {r : RegName} (hst : r ≠ .status)
    (hr : ¬ (r = .afmt ∨ r = .nch ∨ r = .srate ∨ r = .bps ∨ r = .nsamp ∨ r = .datasize ∨
      r = .dataoff ∨ r = .riffsz ∨ r = .fmtsz ∨ r = .byterate ∨ r = .balign)) :
    (s.writeHeaderRegs h ns dsz doff).readReg r = s.readReg r := by
  cases r
  case status => exact absurd rfl hst
  case afmt | nch | srate | bps | nsamp | datasize | dataoff | riffsz | fmtsz | byterate | balign =>
    exact absurd (by simp) hr
  all_goals rfl

/-- Settles O50: every field fits the register it goes to. -/
theorem wavhdrCompletes : Obligations.WavhdrCompletes := by
  unfold Obligations.WavhdrCompletes
  intro s c bl a b n dsz ns hbl hlen hc hd hh hl
  have hns : ns < 2 ^ 32 :=
    (((Nat.div_le_self _ _).trans (Nat.div_le_self _ _)).trans_lt (s.bm.readLE_lt (c + 4) 4)).trans_le
      (by norm_num)
  have hoff : c + 8 < 2 ^ 32 := hh.fits.trans_lt s.regs.blen.isLt
  exact ⟨_, exec_wavhdr_of hbl hlen hc hd hh hl,
    s.completed_regs _ fun r hst hr => s.readReg_writeHeaderRegs _ _ _ _ hst hr, rfl, rfl,
    toNat_ofNat_readLE _ _ (by norm_num), toNat_ofNat_readLE _ _ (by norm_num),
    toNat_ofNat_readLE _ _ (by norm_num), toNat_ofNat_readLE _ _ (by norm_num),
    toNat_ofNat_of_lt hns, toNat_ofNat_readLE _ _ (by norm_num),
    toNat_ofNat_of_lt hoff, toNat_ofNat_readLE _ _ (by norm_num),
    toNat_ofNat_readLE _ _ (by norm_num), toNat_ofNat_readLE _ _ (by norm_num),
    toNat_ofNat_readLE _ _ (by norm_num)⟩

/-! ## The samples decoded -/

theorem State.channelsFit_of {s : State}
    (hstride : 1 < s.regs.nch.toNat → s.regs.nsamp.toNat ≤ s.regs.chstride.toNat)
    (hend : s.regs.chbase.toNat + (s.regs.nch.toNat - 1) * s.regs.chstride.toNat +
      s.regs.nsamp.toNat ≤ s.sizes.rmWords) : s.channelsFit :=
  ⟨fun h => not_lt.2 (hstride h.1) h.2, hend⟩

/-- Settles O56: the channels' samples lie at places of their own, and nothing else is stored. -/
theorem pcmdecCompletes : Obligations.PcmdecCompletes := by
  unfold Obligations.PcmdecCompletes
  intro s a b n ns off stride base hd hbl hstop hstride hend
  have hfit := State.channelsFit_of hstride hend
  have hexec : exec .pcmdec s =
      .next (State.complete { s with rm := s.decodeSamples (s.regs.bps.toNat / 8) }) := by
    rw [exec_pcmdec hd, if_neg (not_lt.2 hbl), if_neg (by exact not_lt.2 hstop), if_pos hfit]
  refine ⟨_, hexec, (Effect.pcmdec hd hfit).completed (s.untouched_rm fun x hx => ?frame), rfl, rfl,
    fun c k hc hk => ?stored⟩
  case frame =>
    obtain ⟨-, hother⟩ := State.decodeSamples_get hfit (s.regs.bps.toNat / 8) x
    exact hother fun c k hc hk he => hx ⟨c, k, hc, hk, by rw [he]; rfl⟩
  case stored =>
    obtain ⟨hsample, -⟩ := State.decodeSamples_get hfit (s.regs.bps.toNat / 8) (s.sampleIndex c k)
    exact hsample c k hc hk rfl

/-! ## The samples encoded -/

/-- What `PCMENC` writes: the samples, and the length of the file. -/
def State.samplesWritten (s : State) : State :=
  { s with
    bm := s.encodeSamples (s.regs.bps.toNat / 8)
    regs := { s.regs with
      blen := BitVec.ofNat 32 (s.regs.dataoff.toNat + s.payload (s.regs.bps.toNat / 8)) } }

theorem exec_pcmenc_of {s : State}
    (hd : DescriptorOk s.regs.afmt.toNat s.regs.bps.toNat s.regs.nch.toNat)
    (hstop : s.regs.dataoff.toNat + s.payload (s.regs.bps.toNat / 8) ≤ s.sizes.bmBytes)
    (hfit : s.channelsFit) : exec .pcmenc s = .next s.samplesWritten.complete := by
  rw [exec_pcmenc hd, if_neg (not_lt.2 hstop), if_pos hfit]
  rfl

/-- The length of a file inside BM fits BLEN (00_scope.md R5). -/
theorem State.toNat_samplesWritten_blen {s : State} (hz : s.sizes.Legal)
    (hstop : s.regs.dataoff.toNat + s.payload (s.regs.bps.toNat / 8) ≤ s.sizes.bmBytes) :
    s.samplesWritten.regs.blen.toNat =
      s.regs.dataoff.toNat + s.payload (s.regs.bps.toNat / 8) := by
  obtain ⟨-, -, -, -, -, hbm, -⟩ := hz
  exact toNat_ofNat_of_lt (by omega)

/-- The stores of `PCMENC` stay inside the data. -/
theorem State.samplesWritten_get_outside (s : State) {x : Nat}
    (h : ∀ j, j < s.payload (s.regs.bps.toNat / 8) → x ≠ s.regs.dataoff.toNat + j) :
    s.samplesWritten.bm.get x = s.bm.get x := by
  obtain ⟨-, hother⟩ := s.encodeSamples_get (s.regs.bps.toNat / 8) x
  refine hother fun c t j hc ht hj hx => ?_
  obtain ⟨i, hi⟩ : ∃ i, x = s.regs.dataoff.toNat + i :=
    ⟨_, hx.trans (by rw [State.sampleOffset, Nat.add_assoc])⟩
  exact h i (State.sampleOffset_covers.2 ⟨c, t, j, hc, ht, hj, hi ▸ hx⟩) hi

/-- Settles O57: the bytes of the samples are the bytes of the data. -/
theorem pcmencCompletes : Obligations.PcmencCompletes := by
  unfold Obligations.PcmencCompletes
  intro s a b n ns off stride base hz hd hstop hstride hend
  have hfit := State.channelsFit_of hstride hend
  refine ⟨_, exec_pcmenc_of hd hstop hfit,
    (Effect.pcmenc hd hfit hstop).completed
      (s.untouched_bm (fun r hst hr => ?register) fun x hx => ?frame),
    rfl, rfl, State.toNat_samplesWritten_blen hz hstop, fun c k j hc hk hj => ?stored⟩
  case register =>
    cases r
    case status => exact absurd rfl hst
    case blen => exact absurd rfl hr
    all_goals rfl
  case frame => exact s.samplesWritten_get_outside fun j hj he => hx ⟨j, hj, by rw [he]⟩
  case stored =>
    obtain ⟨hsample, -⟩ := s.encodeSamples_get (b / 8) (s.sampleOffset (b / 8) c k + j)
    exact (congrArg BitVec.toNat (hsample c k j hc hk hj rfl)).trans (BitVec.toNat_ofNat _ _)

/-! ## The header written -/

/-- The thirteen fields of a 44-byte header (43_codec.md R180, R190). -/
structure HeaderHolds (m : Memory 8) (tagv n sr brate balign b dsz : Nat) : Prop where
  /-- ChunkID -/
  riff : m.tagAt 0 = tagRIFF
  /-- ChunkSize -/
  riffsz : m.readLE 4 4 = 36 + dsz
  /-- Format -/
  wave : m.tagAt 8 = tagWAVE
  /-- Subchunk1ID -/
  fmt : m.tagAt 12 = tagFmt
  /-- Subchunk1Size -/
  fmtsz : m.readLE 16 4 = 16
  /-- AudioFormat -/
  afmt : m.readLE 20 2 = tagv
  /-- NumChannels -/
  nch : m.readLE 22 2 = n
  /-- SampleRate -/
  srate : m.readLE 24 4 = sr
  /-- ByteRate -/
  byterate : m.readLE 28 4 = brate
  /-- BlockAlign -/
  balign : m.readLE 32 2 = balign
  /-- BitsPerSample -/
  bps : m.readLE 34 2 = b
  /-- Subchunk2ID -/
  data : m.tagAt 36 = tagData
  /-- Subchunk2Size -/
  datasize : m.readLE 40 4 = dsz

section Header

variable {m m' : Memory 8} {tagv n sr brate balign b dsz : Nat}

/-- Values that fit their fields are read back from the header written. -/
theorem headerHolds_writeHeader (m : Memory 8) (htag : tagv < 2 ^ 16) (hn : n < 2 ^ 16)
    (hsr : sr < 2 ^ 32) (hbrate : brate < 2 ^ 32) (hbalign : balign < 2 ^ 16) (hb : b < 2 ^ 16)
    (hdsz : 36 + dsz < 2 ^ 32) :
    HeaderHolds (writeHeader m tagv n sr brate balign b dsz) tagv n sr brate balign b dsz := by
  obtain ⟨h0, h4, h8, h12, h16, h20, h22, h24, h28, h32, h34, h36, h40⟩ :=
    writeHeader_fields m (tagv := tagv) (n := n) (sr := sr) (brate := brate) (balign := balign)
      (b := b) (dsz := dsz)
  have four {v : Nat} (hv : v < 2 ^ 32) : v % 256 ^ 4 = v := Nat.mod_eq_of_lt hv
  have two {v : Nat} (hv : v < 2 ^ 16) : v % 256 ^ 2 = v := Nat.mod_eq_of_lt hv
  exact ⟨h0, h4.trans (four hdsz), h8, h12, h16, h20.trans (two htag), h22.trans (two hn),
    h24.trans (four hsr), h28.trans (four hbrate), h32.trans (two hbalign), h34.trans (two hb), h36,
    h40.trans (four (by omega))⟩

/-- A header depends on the first 44 bytes alone. -/
theorem HeaderHolds.congr (h : HeaderHolds m tagv n sr brate balign b dsz)
    (heq : ∀ a, a < 44 → m'.get a = m.get a) : HeaderHolds m' tagv n sr brate balign b dsz := by
  have field (o k : Nat) (hok : o + k ≤ 44) : m'.readLE o k = m.readLE o k :=
    Memory.readLE_congr fun a _ ha => heq a (by omega)
  have tag (o : Nat) (ho : o + 4 ≤ 44) : m'.tagAt o = m.tagAt o :=
    tagAt_congr fun a _ ha => heq a (by omega)
  exact ⟨(tag 0 (by omega)).trans h.riff, (field 4 4 (by omega)).trans h.riffsz,
    (tag 8 (by omega)).trans h.wave, (tag 12 (by omega)).trans h.fmt,
    (field 16 4 (by omega)).trans h.fmtsz, (field 20 2 (by omega)).trans h.afmt,
    (field 22 2 (by omega)).trans h.nch, (field 24 4 (by omega)).trans h.srate,
    (field 28 4 (by omega)).trans h.byterate, (field 32 2 (by omega)).trans h.balign,
    (field 34 2 (by omega)).trans h.bps, (tag 36 (by omega)).trans h.data,
    (field 40 4 (by omega)).trans h.datasize⟩

end Header

/-- The registers `WAVHDRW` writes are the seven of its rule. -/
theorem State.untouched_headerWritten (s : State) : Untouched s s.headerWritten
    (fun r => r = .riffsz ∨ r = .fmtsz ∨ r = .byterate ∨ r = .balign ∨ r = .datasize ∨ r = .dataoff ∨
      r = .blen) (fun p => ∃ j, j < 44 ∧ p = .bm j) := by
  refine s.untouched_bm (fun r hst hr => ?register) fun x hx => ?bytes
  case register =>
    cases r
    case status => exact absurd rfl hst
    case riffsz | fmtsz | byterate | balign | datasize | dataoff | blen => exact absurd (by simp) hr
    all_goals rfl
  case bytes =>
    exact writeHeader_get _ _ _ _ _ _ _ _ (not_lt.1 fun h => hx ⟨x, h, rfl⟩)

section HeaderWritten

variable {s : State} (hd : DescriptorOk s.regs.afmt.toNat s.regs.bps.toNat s.regs.nch.toNat)
  (hsize : 36 + s.payload (s.regs.bps.toNat / 8) < 2 ^ 32) (hroom : 44 ≤ s.sizes.bmBytes)
  (hrate : s.regs.srate.toNat * s.regs.nch.toNat * (s.regs.bps.toNat / 8) < 2 ^ 32)
  (halign : s.regs.nch.toNat * (s.regs.bps.toNat / 8) < 2 ^ 16)

include hd hsize hroom hrate halign in
theorem exec_wavhdrw_of : exec .wavhdrw s = .next s.headerWritten.complete := by
  rw [exec_wavhdrw hd, if_pos ⟨hsize, hroom, hrate, halign⟩]

include hsize hrate halign in
theorem State.headerHolds_headerWritten : HeaderHolds s.headerWritten.bm
    (if s.regs.afmt.toNat = 3 then 3 else 1) s.regs.nch.toNat s.regs.srate.toNat
    (s.regs.srate.toNat * s.regs.nch.toNat * (s.regs.bps.toNat / 8))
    (s.regs.nch.toNat * (s.regs.bps.toNat / 8)) s.regs.bps.toNat
    (s.payload (s.regs.bps.toNat / 8)) :=
  headerHolds_writeHeader s.bm (by split <;> norm_num) s.regs.nch.isLt s.regs.srate.isLt hrate halign
    s.regs.bps.isLt hsize

end HeaderWritten

/-- Settles O58: the fields are read back from the header, and the same values fit the registers. -/
theorem wavhdrwCompletes : Obligations.WavhdrwCompletes := by
  unfold Obligations.WavhdrwCompletes
  intro s a b n dsz brate hd hsize hroom hrate halign
  obtain ⟨hriff, hriffsz, hwave, hfmt, hfmtsz, hafmt, hnch, hsrate, hbyterate, hbalign, hbps, hdata,
    hdatasize⟩ := State.headerHolds_headerWritten hsize hrate halign
  have hdsz : dsz < 2 ^ 32 := (Nat.le_add_left dsz 36).trans_lt hsize
  exact ⟨_, exec_wavhdrw_of hd hsize hroom hrate halign,
    (Effect.wavhdrw hd hroom).completed s.untouched_headerWritten, rfl, rfl, hriff, hriffsz, hwave,
    hfmt, hfmtsz, hafmt, hnch, hsrate, hbyterate, hbalign, hbps, hdata, hdatasize,
    toNat_ofNat_of_lt hsize, rfl, toNat_ofNat_of_lt hrate,
    toNat_ofNat_of_lt halign, toNat_ofNat_of_lt hdsz, rfl, rfl⟩

/-! ## The file written and parsed back -/

/-- The samples counted are inside the data (43_codec.md R184). -/
theorem sampleCount_mul_le (dsz n by' : Nat) : sampleCount dsz n by' * n * by' ≤ dsz := by
  rw [sampleCount, Nat.div_div_eq_div_mul, Nat.mul_assoc]
  exact Nat.div_mul_le_self _ _

/-- The samples of a payload are counted back. -/
theorem sampleCount_payload (ns : Nat) {n by' : Nat} (hn : 0 < n) (hby : 0 < by') :
    sampleCount (ns * n * by') n by' = ns := by
  rw [sampleCount, Nat.div_div_eq_div_mul, Nat.mul_assoc, Nat.mul_div_cancel _ (Nat.mul_pos hn hby)]

/-- `WAVHDR` on a file that begins with a 44-byte header and holds its data. -/
theorem exec_wavhdr_of_headerHolds {s : State} {tagv n sr brate balign b dsz : Nat}
    (h : HeaderHolds s.bm tagv n sr brate balign b dsz) (hd : DescriptorOk tagv b n)
    (htag : tagv ≠ 0xFFFE) (hlen : 44 + dsz ≤ s.regs.blen.toNat)
    (hbl : s.regs.blen.toNat ≤ s.sizes.bmBytes) :
    exec .wavhdr s = .next (s.writeHeaderRegs ⟨36 + dsz, 16, tagv, n, sr, brate, balign, b⟩
      (sampleCount dsz n (b / 8)) dsz 44).complete := by
  have hfields : headerFields s.bm = ⟨36 + dsz, 16, tagv, n, sr, brate, balign, b⟩ := by
    rw [headerFields, h.riffsz, h.fmtsz, h.afmt, h.nch, h.srate, h.byterate, h.balign, h.bps]
  have hdata : DataHeaderAt s.bm s.regs.blen.toNat tagv 36 :=
    ⟨by omega, h.data, fun _ => rfl, fun ha => absurd ha htag⟩
  have hexec := exec_wavhdr_of (s := s) (c := 36) hbl (by omega) ⟨h.riff, h.wave, h.fmt⟩
  rw [hfields, h.afmt, h.nch, h.bps, h.datasize] at hexec
  exact hexec hd hdata (by have := sampleCount_mul_le dsz n (b / 8); omega)

/-- The descriptor written is a good one: extensible samples are integer samples (43_codec.md R190). -/
theorem DescriptorOk.written {a b n : Nat} (h : DescriptorOk a b n) :
    DescriptorOk (if a = 3 then 3 else 1) b n := by
  split
  · rename_i ha
    exact ha ▸ h
  · rename_i ha
    exact ⟨.inl rfl, fun h3 => absurd h3 (by norm_num), fun _ => h.integer ha, h.channels⟩

/-- Settles O59: the samples lie behind the header, so that the parse finds the fields written. -/
theorem writtenFileParsesBack : Obligations.WrittenFileParsesBack := by
  unfold Obligations.WrittenFileParsesBack
  intro s a b n ns stride dsz hz hd hroom hrate halign hstride hend
  obtain ⟨-, -, -, -, -, hbm, -⟩ := id hz
  have hsize : 36 + dsz < 2 ^ 32 := by omega
  have hdsz : dsz < 2 ^ 32 := by omega
  have hfit := State.channelsFit_of hstride hend
  have hheader : exec .wavhdrw s = .next s.headerWritten.complete :=
    exec_wavhdrw_of hd hsize (by omega) hrate halign
  have hsamples : exec .pcmenc s.headerWritten.complete =
      .next s.headerWritten.complete.samplesWritten.complete := exec_pcmenc_of hd hroom hfit
  have hblen : s.headerWritten.complete.samplesWritten.regs.blen.toNat = 44 + dsz :=
    State.toNat_samplesWritten_blen (s := s.headerWritten.complete) hz hroom
  have hholds := (State.headerHolds_headerWritten hsize hrate halign).congr
    (m' := s.headerWritten.complete.samplesWritten.bm) fun x hx =>
      State.samplesWritten_get_outside _ fun j _ he => not_lt.2 (he ▸ Nat.le_add_right 44 j) hx
  have hparse := exec_wavhdr_of_headerHolds
    (s := s.headerWritten.complete.samplesWritten.complete) hholds hd.written
    (by split <;> norm_num) hblen.ge (hblen.le.trans hroom)
  have hdepth : 0 < b / 8 := by have := hd.depth; omega
  have hcount : sampleCount dsz n (b / 8) = ns :=
    sampleCount_payload ns (Nat.pos_of_ne_zero hd.channels) hdepth
  refine ⟨_, (execAll_cons hheader).trans ((execAll_cons hsamples).trans (execAll_cons hparse)), rfl,
    toNat_ofNat_of_lt (by split <;> norm_num), ofNat_toNat_self _, ofNat_toNat_self _,
    ofNat_toNat_self _, (congrArg (BitVec.ofNat 32) hcount).trans (ofNat_toNat_self _), rfl,
    toNat_ofNat_of_lt hdsz, hblen⟩

end Sys2Proof.Machine
end

section
/-!
PROOFS. The samples of the codec (43_codec.md R185, R191): one equation per format of the decoding and
the encoding, and the integer `toint` takes (40_numerics.md R117).
-/

namespace Sys2Proof.Machine

/-! ## Integers and their patterns -/

/-- The signed value of a raw sample is its two's-complement value. -/
theorem sextBits_toNat {k : Nat} (hk : 0 < k) (u : BitVec k) : sextBits k u.toNat = u.toInt := by
  have hpow : 2 ^ k = 2 * 2 ^ (k - 1) := (mul_pow_sub_one hk.ne' 2).symm
  rw [BitVec.toInt_eq_toNat_cond, sextBits, Nat.cast_pow, Nat.cast_ofNat]
  exact if_congr (by omega) rfl rfl

theorem bitsOf_eq_toNat_ofInt (k : Nat) (v : Int) : bitsOf k v = (BitVec.ofInt k v).toNat := by
  rw [bitsOf, BitVec.toNat_ofInt, Nat.cast_pow, Nat.cast_ofNat]

/-! ## One equation per format -/

section Integer

variable {a : Nat} (ha : a ≠ 3)
include ha

theorem normSample_8 (u : Nat) : normSample u a 8 = fsub (fmul (fdiv (f64 u) f255) fTwo) fOne :=
  if_pos ⟨ha, rfl⟩

theorem normSample_16 (u : Nat) : normSample u a 16 = fdiv (f64 (sextBits 16 u)) f32768 := by
  rw [normSample, if_neg (by omega), if_pos ⟨ha, rfl⟩]

theorem normSample_24 (u : Nat) : normSample u a 24 = fdiv (f64 (sextBits 24 u)) fTwo31 := by
  rw [normSample, if_neg (by omega), if_neg (by omega), if_pos ⟨ha, rfl⟩]

theorem normSample_32 (u : Nat) : normSample u a 32 = fdiv (f64 (sextBits 32 u)) fTwo31 := by
  rw [normSample, if_neg (by omega), if_neg (by omega), if_neg (by omega), if_pos ⟨ha, rfl⟩]

theorem denormSample_8 (v : F64) : denormSample v a 8 = bitsOf 8
    (toint (fmul (fdiv (fadd (if isNaN v then fZero else v) fOne) fTwo) f255) 0 255) :=
  if_pos ⟨ha, rfl⟩

theorem denormSample_16 (v : F64) : denormSample v a 16 = bitsOf 16
    (toint (fmul (if isNaN v then fZero else v) f32768) (-32768) 32767) := by
  rw [denormSample, if_neg (by omega), if_pos ⟨ha, rfl⟩]

theorem denormSample_24 (v : F64) : denormSample v a 24 = bitsOf 24
    (toint (fmul (if isNaN v then fZero else v) fTwo31) (-8388608) 8388607) := by
  rw [denormSample, if_neg (by omega), if_neg (by omega), if_pos ⟨ha, rfl⟩]

theorem denormSample_32 (v : F64) : denormSample v a 32 = bitsOf 32
    (toint (fmul (if isNaN v then fZero else v) fTwo31) (-2147483648) 2147483647) := by
  rw [denormSample, if_neg (by omega), if_neg (by omega), if_neg (by omega), if_pos ⟨ha, rfl⟩]

end Integer

theorem normSample_float32 (u : BitVec 32) : normSample u.toNat 3 32 = f32to64 u := by
  rw [normSample, if_neg (by decide), if_neg (by decide), if_neg (by decide), if_neg (by decide),
    if_pos (by decide), ofNat_toNat_self]

theorem normSample_float64 (u : BitVec 64) : normSample u.toNat 3 64 = u := by
  rw [normSample, if_neg (by decide), if_neg (by decide), if_neg (by decide), if_neg (by decide),
    if_neg (by decide), ofNat_toNat_self]

theorem denormSample_float32 (v : F64) : denormSample v 3 32 = (f64to32 v).toNat := by
  rw [denormSample, if_neg (by decide), if_neg (by decide), if_neg (by decide), if_neg (by decide),
    if_pos (by decide)]

theorem denormSample_float64 (v : F64) : denormSample v 3 64 = v.toNat := by
  rw [denormSample, if_neg (by decide), if_neg (by decide), if_neg (by decide), if_neg (by decide),
    if_neg (by decide)]

/-- Settles O52: the formulas are the equations above on the signed value of the sample, and the eight
values are evaluated. -/
theorem normalisationOfSamples : Obligations.NormalisationOfSamples := by
  unfold Obligations.NormalisationOfSamples
  refine ⟨fun a ha => ⟨fun u => normSample_8 ha u.toNat, fun u => ?signed16, fun u => ?signed24,
    fun u => ?signed32⟩, normSample_float32, normSample_float64, by decide +kernel, by decide +kernel,
    by decide +kernel, by decide +kernel, by decide +kernel, by decide +kernel, by decide +kernel,
    by decide +kernel⟩
  case signed16 => rw [normSample_16 ha, sextBits_toNat (by norm_num)]
  case signed24 => rw [normSample_24 ha, sextBits_toNat (by norm_num)]
  case signed32 => rw [normSample_32 ha, sextBits_toNat (by norm_num)]

/-! ## The integer of a sample (40_numerics.md R117) -/

theorem toint_of_isNaN {v : F64} (h : isNaN v = true) (lo hi : Int) :
    toint v lo hi = toint fZero lo hi := by
  have hzero : isNaN fZero = false := by decide
  simp only [toint, h, hzero, if_true, Bool.false_eq_true, if_false]

theorem toint_of_isInf {v : F64} (h : isInf v = true) (lo hi : Int) :
    toint v lo hi = if fsign v then lo else hi := by
  simp only [toint, isNaN_of_isInf h, h, if_true, Bool.false_eq_true, if_false]

/-- A finite value gives its nearest integer, kept between the two ends. -/
theorem toint_of_isFinite {v : F64} (h : isFinite v = true) {lo hi : Int} (hle : lo ≤ hi) :
    toint v lo hi = max lo (min hi (fint (frint v))) := by
  simp only [toint, isNaN_of_isFinite h, isInf_of_isFinite h, Bool.false_eq_true, if_false]
  split
  · omega
  · split <;> omega

end Sys2Proof.Machine
end

section
/-!
PROOFS. The samples of 8 bits (43_codec.md R185, R191): their scaling by 255 is not exact, but every
operation on the way from the raw sample to its code errs by so little that `toint` finds the sample.
-/

namespace Sys2Proof.Machine

/-! ## Rounding errors of values of ordinary size -/

/-- `2^-30` in units: more than the error of any rounding of a value up to 1024. -/
def tolerance : Nat := 2 ^ 1044

theorem oneUnits_eq_tolerance : oneUnits = 2 ^ 30 * tolerance := by
  rw [oneUnits, tolerance, ← pow_add]

theorem tolerance_pos : 0 < tolerance := pow_pos two_pos _

/-- A quotient between two neighbours of the grid of `2^-30` is rounded to a value between them, since
rounding is monotone and exact on the grid. -/
theorem funits_near {v : F64} {num den : Nat} (hd : 0 < den)
    (hv : fmag v = roundMag 52 infMag num den) (h : num ≤ 2 ^ 10 * oneUnits * den) :
    isFinite v = true ∧ funits v * den ≤ num + tolerance * den ∧
      num ≤ funits v * den + tolerance * den := by
  have hT : 0 < tolerance * den := Nat.mul_pos tolerance_pos hd
  obtain ⟨k, hk⟩ : ∃ k, k = num / (tolerance * den) := ⟨_, rfl⟩
  have hbelow : k * (tolerance * den) ≤ num := hk ▸ Nat.div_mul_le_self _ _
  have habove : num < (k + 1) * (tolerance * den) :=
    (Nat.div_lt_iff_lt_mul hT).1 (hk ▸ Nat.lt_succ_self _)
  have hksmall : k ≤ 2 ^ 40 := by
    refine Nat.le_of_mul_le_mul_right (hbelow.trans (h.trans_eq ?_)) hT
    rw [oneUnits_eq_tolerance]
    ring
  obtain ⟨lo, hlo, elo⟩ : ∃ m, m ≤ infMag ∧ magUnits 52 m = k * tolerance :=
    exists_magUnits_int (by omega) (by norm_num)
  obtain ⟨hi, hhi, ehi⟩ : ∃ m, m ≤ infMag ∧ magUnits 52 m = (k + 1) * tolerance :=
    exists_magUnits_int (by omega) (by norm_num)
  have hlower : k * tolerance ≤ funits v := by
    have hmono : magUnits 52 lo * den ≤ num := by rw [elo, mul_assoc]; exact hbelow
    rw [← elo, funits, hv, magUnits_le_iff, ← roundMag_exact hd hlo]
    exact roundMag_mono hd hmono
  have hupper : funits v ≤ (k + 1) * tolerance := by
    have hmono : num ≤ magUnits 52 hi * den := by rw [ehi, mul_assoc]; exact habove.le
    rw [← ehi, funits, hv, magUnits_le_iff, ← roundMag_exact hd hhi]
    exact roundMag_mono hd hmono
  refine ⟨?finite, ?above, ?below⟩
  case finite =>
    obtain ⟨hfin, -, hunits⟩ := f64_parts (n := 2 ^ 20) (by norm_num)
    refine isFinite_of_fmag_le hfin (funits_le_iff.1 (hupper.trans ?_))
    rw [hunits, oneUnits_eq_tolerance, ← mul_assoc]
    exact Nat.mul_le_mul_right _ (by norm_num; omega)
  case above =>
    calc funits v * den ≤ (k + 1) * tolerance * den := Nat.mul_le_mul_right _ hupper
      _ = k * (tolerance * den) + tolerance * den := by ring
      _ ≤ num + tolerance * den := Nat.add_le_add_right hbelow _
  case below =>
    calc num ≤ (k + 1) * (tolerance * den) := habove.le
      _ = k * tolerance * den + tolerance * den := by ring
      _ ≤ funits v * den + tolerance * den :=
        Nat.add_le_add_right (Nat.mul_le_mul_right _ hlower) _

theorem abs_signed_sub (s : Bool) (m n : Nat) : |signed s m - signed s n| = |(m : Int) - n| := by
  cases s with
  | false => rfl
  | true => rw [signed, signed, if_pos rfl, if_pos rfl, neg_sub_neg, abs_sub_comm]

theorem abs_fval (a : F64) : |fval a| = funits a := by
  have h := abs_signed_sub (fsign a) (funits a) 0
  rwa [← fval_eq_signed, signed, Nat.cast_zero, neg_zero, ite_self, sub_zero, sub_zero,
    Nat.abs_cast] at h

/-- `c` is the positive integer `n`. -/
structure IsWhole (c : F64) (n : Nat) : Prop where
  /-- positive -/
  sign : fsign c = false
  /-- finite -/
  finite : isFinite c = true
  /-- not zero -/
  nonzero : isZero c = false
  /-- the value -/
  units : funits c = n * oneUnits

theorem isWhole_f255 : IsWhole f255 255 :=
  ⟨by decide +kernel, by decide +kernel, by decide +kernel, by decide +kernel⟩

theorem isWhole_fTwo : IsWhole fTwo 2 :=
  ⟨by decide +kernel, by decide +kernel, by decide +kernel, by decide +kernel⟩

section Near

variable {a b c : F64} {n : Nat} (ha : isFinite a = true)
include ha

/-- The sum is rounded with the sign of the exact sum. -/
theorem signed_fsign_fadd (hb : isFinite b = true) :
    signed (fsign (fadd a b)) (fval a + fval b).natAbs = fval a + fval b := by
  rw [fsign_fadd ha hb]
  split
  next h =>
    rw [h]
    cases fsign a && fsign b <;> rfl
  next => exact signed_natAbs _

theorem fadd_near (hb : isFinite b = true) (h : |fval a + fval b| ≤ 2 ^ 10 * oneUnits) :
    isFinite (fadd a b) = true ∧ |fval (fadd a b) - (fval a + fval b)| ≤ tolerance := by
  rw [← Int.natCast_natAbs] at h
  obtain ⟨hfin, habove, hbelow⟩ := funits_near Nat.one_pos (fmag_fadd ha hb) (by omega)
  refine ⟨hfin, ?_⟩
  rw [← signed_fsign_fadd ha hb, fval_eq_signed (fadd a b), abs_signed_sub, abs_le]
  omega

theorem fmul_near (hc : IsWhole c n) (h : |fval a| * n ≤ 2 ^ 10 * oneUnits) :
    isFinite (fmul a c) = true ∧ |fval (fmul a c) - fval a * n| ≤ tolerance := by
  have hmag : fmag (fmul a c) = roundMag 52 infMag (funits a * n * oneUnits) oneUnits := by
    rw [fmul_of_isFinite ha hc.finite, fmag_round64, hc.units, mul_assoc]
  have hsign : fsign (fmul a c) = fsign a := by
    rw [fsign_fmul ha hc.finite, hc.sign, Bool.bne_false]
  rw [abs_fval] at h
  have hsmall : funits a * n ≤ 2 ^ 10 * oneUnits := by exact_mod_cast h
  obtain ⟨hfin, habove, hbelow⟩ := funits_near oneUnits_pos hmag (Nat.mul_le_mul_right _ hsmall)
  rw [← Nat.add_mul] at habove hbelow
  have habove' := Nat.le_of_mul_le_mul_right habove oneUnits_pos
  have hbelow' := Nat.le_of_mul_le_mul_right hbelow oneUnits_pos
  refine ⟨hfin, ?_⟩
  rw [fval_eq_signed, fval_eq_signed a, hsign, ← signed_mul, abs_signed_sub, abs_le]
  omega

theorem fdiv_near (hc : IsWhole c n) (hn : 0 < n) (h : |fval a| ≤ 2 ^ 10 * oneUnits) :
    isFinite (fdiv a c) = true ∧ |fval (fdiv a c) * n - fval a| ≤ (tolerance * n : Nat) := by
  have hmag : fmag (fdiv a c) = roundMag 52 infMag (funits a * oneUnits) (n * oneUnits) := by
    rw [fdiv_of_isFinite ha hc.finite hc.nonzero, fmag_round64, hc.units]
  have hsign : fsign (fdiv a c) = fsign a := by
    rw [fsign_fdiv ha hc.finite hc.nonzero, hc.sign, Bool.bne_false]
  rw [abs_fval] at h
  have hsmall : funits a * oneUnits ≤ 2 ^ 10 * oneUnits * (n * oneUnits) :=
    Nat.mul_le_mul (by exact_mod_cast h) (Nat.le_mul_of_pos_left _ hn)
  obtain ⟨hfin, habove, hbelow⟩ := funits_near (Nat.mul_pos hn oneUnits_pos) hmag hsmall
  rw [← mul_assoc, ← mul_assoc, ← Nat.add_mul] at habove hbelow
  have habove' := Nat.le_of_mul_le_mul_right habove oneUnits_pos
  have hbelow' := Nat.le_of_mul_le_mul_right hbelow oneUnits_pos
  refine ⟨hfin, ?_⟩
  rw [fval_eq_signed, fval_eq_signed a, hsign, ← signed_mul, abs_signed_sub, abs_le]
  omega

end Near

/-! ## From the raw sample to its code -/

theorem fval_fOne : fval fOne = oneUnits := by decide +kernel

theorem fval_fNegOne : fval fNegOne = -(oneUnits : Int) := by decide +kernel

/-- `toint` of a value less than half away from an integer in its range is the integer. -/
theorem toint_of_near {v : F64} (hv : isFinite v = true) {k lo hi : Int} (hlo : lo ≤ k) (hhi : k ≤ hi)
    (h : 2 * |fval v - k * oneUnits| < oneUnits) : toint v lo hi = k := by
  obtain ⟨hnear, -⟩ := nearestInt_frint hv
  rw [← oneUnits_intCast] at hnear
  rw [toint_of_isFinite hv (hlo.trans hhi)]
  generalize fint (frint v) = j at *
  have hdist : |(j - k) * (oneUnits : Int)| < oneUnits := by
    have htriangle := abs_sub_le (j * (oneUnits : Int)) (fval v) (k * oneUnits)
    rw [abs_sub_comm (j * (oneUnits : Int)) (fval v)] at htriangle
    rw [sub_mul]
    omega
  rw [abs_mul, Nat.abs_cast] at hdist
  have hj : |j - k| < 1 := lt_of_mul_lt_mul_right (by omega) (Int.natCast_nonneg oneUnits)
  obtain rfl : j = k := by rw [Int.abs_lt_one_iff] at hj; omega
  omega

section Byte

variable {a u : Nat} (ha : a ≠ 3) (hu : u < 2 ^ 8)

include hu in
theorem byte_mul_oneUnits_mem :
    0 ≤ (u : Int) * oneUnits ∧ (u : Int) * oneUnits ≤ 255 * oneUnits :=
  ⟨mul_nonneg (Int.natCast_nonneg _) (Int.natCast_nonneg _),
    mul_le_mul_of_nonneg_right (by omega) (Int.natCast_nonneg _)⟩

include ha hu in
/-- The value decoded, times 255, is within `1020 · 2^-30` of `2u - 255` (43_codec.md R185). -/
theorem normSample_byte_near : isFinite (normSample u a 8) = true ∧
    |fval (normSample u a 8) * 255 - (2 * u - 255) * oneUnits| ≤ 1020 * tolerance := by
  have hgrain := oneUnits_eq_tolerance
  obtain ⟨hfin, hsign, hunits⟩ := f64_nat_parts (n := u) (by omega)
  have hval : fval (f64 u) = u * oneUnits := by
    rw [fval_eq_signed, hsign, hunits]
    exact Nat.cast_mul _ _
  obtain ⟨hnonneg, hle⟩ := byte_mul_oneUnits_mem hu
  obtain ⟨dfin, hd⟩ := fdiv_near hfin isWhole_f255 (by norm_num) (abs_le.2 ⟨by omega, by omega⟩)
  rw [abs_le] at hd
  have hquot : |fval (fdiv (f64 u) f255)| ≤ 2 * oneUnits := abs_le.2 ⟨by omega, by omega⟩
  obtain ⟨pfin, hp⟩ := fmul_near dfin isWhole_fTwo (by omega)
  rw [abs_le] at hp
  obtain ⟨sfin, hs⟩ := fadd_near pfin (b := fNegOne) (by decide)
    (by rw [fval_fNegOne]; exact abs_le.2 ⟨by omega, by omega⟩)
  rw [abs_le, fval_fNegOne] at hs
  rw [normSample_8 ha, fsub, fneg_fOne]
  refine ⟨sfin, abs_le.2 ?_⟩
  rw [sub_mul, mul_assoc]
  omega

include hu in
/-- A value that near to the decoded one has the code `u` (43_codec.md R191). -/
theorem toint_byte_of_near {v : F64} (hv : isFinite v = true)
    (h : |fval v * 255 - (2 * u - 255) * oneUnits| ≤ 1020 * tolerance) :
    toint (fmul (fdiv (fadd v fOne) fTwo) f255) 0 255 = u := by
  have hgrain := oneUnits_eq_tolerance
  have hpos := tolerance_pos
  obtain ⟨hnonneg, hle⟩ := byte_mul_oneUnits_mem hu
  rw [sub_mul, mul_assoc, abs_le] at h
  obtain ⟨afin, hsum⟩ := fadd_near hv (b := fOne) (by decide)
    (by rw [fval_fOne]; exact abs_le.2 ⟨by omega, by omega⟩)
  rw [abs_le, fval_fOne] at hsum
  obtain ⟨hfin, hh⟩ := fdiv_near afin isWhole_fTwo (by norm_num) (abs_le.2 ⟨by omega, by omega⟩)
  rw [abs_le] at hh
  have hhalf : |fval (fdiv (fadd v fOne) fTwo)| ≤ 2 * oneUnits := abs_le.2 ⟨by omega, by omega⟩
  obtain ⟨mfin, hm⟩ := fmul_near hfin isWhole_f255 (by omega)
  rw [abs_le] at hm
  have hclose : |fval (fmul (fdiv (fadd v fOne) fTwo) f255) - u * oneUnits| ≤ 1000 * tolerance :=
    abs_le.2 ⟨by omega, by omega⟩
  exact toint_of_near mfin (by omega) (by omega) (by omega)

include ha hu in
/-- The rounding errors of the way there and back are lost in `toint` (43_codec.md R196). -/
theorem denormSample_normSample_byte : denormSample (normSample u a 8) a 8 = u := by
  obtain ⟨hfin, hnear⟩ := normSample_byte_near ha hu
  rw [denormSample_8 ha, isNaN_of_isFinite hfin, if_neg Bool.false_ne_true,
    toint_byte_of_near hu hfin hnear, bitsOf]
  omega

end Byte

end Sys2Proof.Machine
end

section
/-!
PROOFS. The round trip from raw sample to raw sample in every format (43_codec.md R191, R196).
-/

namespace Sys2Proof.Machine

/-! ## The integer formats -/

/-- The integer depths from 16 bits on: the quotient is not a NaN, the product gives the signed value
back, and its pattern is the raw sample (43_codec.md R191). -/
theorem bitsOf_toint_scale {k u p : Nat} (hk : 0 < k) (hk' : k ≤ 53) (hu : u < 2 ^ k) {c : F64}
    (hc : IsScale c p) {v : F64} (hv : v = fdiv (f64 (sextBits k u)) c) {lo hi : Int}
    (hlo : lo = -2 ^ (k - 1)) (hhi : hi = 2 ^ (k - 1) - 1) :
    bitsOf k (toint (fmul (if isNaN v then fZero else v) c) lo hi) = u := by
  subst hv hlo hhi
  obtain ⟨hbits, hmin, hmax⟩ := bitsOf_sextBits hk hu
  have hpow : (2 : Int) ^ (k - 1) ≤ 2 ^ 53 := pow_le_pow_right₀ (by norm_num) (by omega)
  have hsmall : (sextBits k u).natAbs ≤ 2 ^ 53 := by omega
  obtain ⟨hfin, -, -⟩ := fdiv_scale hsmall hc
  rw [isNaN_of_isFinite hfin, if_neg Bool.false_ne_true, fmul_fdiv_scale hsmall hc,
    toint_f64 hsmall hmin hmax, hbits]

/-- The code of every raw sample of an integer format is the sample (43_codec.md R196). -/
theorem denormSample_normSample {a b u : Nat} (ha : a ≠ 3) (hb : b = 8 ∨ b = 16 ∨ b = 24 ∨ b = 32)
    (hu : u < 2 ^ b) : denormSample (normSample u a b) a b = u := by
  rcases hb with rfl | rfl | rfl | rfl
  · exact denormSample_normSample_byte ha hu
  · rw [denormSample_16 ha]
    exact bitsOf_toint_scale (by norm_num) (by norm_num) hu isScale_f32768 (normSample_16 ha u)
      (by norm_num) (by norm_num)
  · rw [denormSample_24 ha]
    exact bitsOf_toint_scale (by norm_num) (by norm_num) hu isScale_fTwo31 (normSample_24 ha u)
      (by norm_num) (by norm_num)
  · rw [denormSample_32 ha]
    exact bitsOf_toint_scale (by norm_num) (by norm_num) hu isScale_fTwo31 (normSample_32 ha u)
      (by norm_num) (by norm_num)

/-! ## binary32 -/

theorem isFinite_f32to64 {u : BitVec 32} (h : u.toNat % 2 ^ 31 < infMag32) :
    isFinite (f32to64 u) = true := by
  obtain ⟨hunits, -⟩ := f32to64_parts h
  obtain ⟨sh, t, hm, -, ht, hu⟩ := exists_grid 23 (u.toNat % 2 ^ 31)
  have hnan : isNaN (f32to64 u) = false := by
    rw [f32to64, if_neg h.le.not_gt, if_neg h.ne, isNaN_round64]
  rw [infMag32_eq] at h
  refine isFinite_of_funits (n := t) (e := sh + 925) hnan ?_ (by omega) (by omega)
  rw [hunits, hu, pow_add, mul_assoc]

/-- A binary32 pattern is its magnitude bits and its sign. -/
theorem ext_binary32 {u v : BitVec 32} (hmag : u.toNat % 2 ^ 31 = v.toNat % 2 ^ 31)
    (hsign : decide (2 ^ 31 ≤ u.toNat) = decide (2 ^ 31 ≤ v.toNat)) : u = v := by
  have hu := u.isLt
  have hv := v.isLt
  have hiff := decide_eq_decide.1 hsign
  exact BitVec.eq_of_toNat_eq (by omega)

/-- Widening a binary32 value that is not a NaN loses nothing (43_codec.md R196). -/
theorem f64to32_f32to64 {u : BitVec 32} (h : u.toNat % 2 ^ 31 ≤ infMag32) :
    f64to32 (f32to64 u) = u := by
  rcases h.lt_or_eq with hlt | heq
  · obtain ⟨hunits, hsign⟩ := f32to64_parts hlt
    obtain ⟨hmag', hsign'⟩ := f64to32_parts (isFinite_f32to64 hlt)
    rw [hunits] at hmag'
    exact ext_binary32 (hmag'.trans (roundMag_exact (pow_pos two_pos _) h)) (hsign'.trans hsign)
  · have hwide : f32to64 u = pack (decide (2 ^ 31 ≤ u.toNat)) infMag := by
      rw [f32to64, if_neg heq.not_gt, if_pos heq]
    rw [hwide, f64to32_of_isInf (isInf_pack_infMag _), fsign_pack_infMag]
    rw [show infMag32 = 0x7F800000 from rfl] at heq
    by_cases hneg : 2 ^ 31 ≤ u.toNat
    · rw [decide_eq_true hneg, if_pos rfl]
      exact BitVec.eq_of_toNat_eq (by simp only [BitVec.toNat_ofNat]; omega)
    · rw [decide_eq_false hneg, if_neg Bool.false_ne_true]
      exact BitVec.eq_of_toNat_eq (by simp only [BitVec.toNat_ofNat]; omega)

/-! ## The obligation -/

/-- Settles O53: the formulas are the equations of the formats, the table is evaluated, and the round
trip goes format by format. -/
theorem sampleRoundTrip : Obligations.SampleRoundTrip := by
  unfold Obligations.SampleRoundTrip
  refine ⟨fun v a ha => ?codes, fun v => ⟨denormSample_float32 v, denormSample_float64 v⟩,
    fun v lo hi hle => ⟨fun h => toint_of_isNaN h lo hi, fun h => toint_of_isInf h lo hi, fun h =>
      ⟨_, nearestInt_frint h, toint_of_isFinite h hle⟩⟩, by decide +kernel,
    fun a b u => denormSample_normSample, fun u h => ?binary32, fun u => ?binary64⟩
  case codes =>
    intro s code
    exact ⟨(denormSample_8 ha v).trans (bitsOf_eq_toNat_ofInt _ _),
      (denormSample_16 ha v).trans (bitsOf_eq_toNat_ofInt _ _),
      (denormSample_24 ha v).trans (bitsOf_eq_toNat_ofInt _ _),
      (denormSample_32 ha v).trans (bitsOf_eq_toNat_ofInt _ _)⟩
  case binary32 => rw [normSample_float32, denormSample_float32, f64to32_f32to64 h]
  case binary64 => rw [normSample_float64, denormSample_float64]

end Sys2Proof.Machine
end

section
/-!
PROOFS. The system command (44_system.md R210), and what every step keeps of the memories' bounds
(44_system.md R212, 60_exceptions.md R245): each store of a command lies inside its memory by the
checks before it, or by the construction CFGV = 1 promises, and each store of the host by the
address map.
-/

namespace Sys2Proof

/-! ## Bounds under the operations on memories and banks -/

/-- A loop whose iterations keep a memory inside its bounds does so too. -/
theorem Memory.inside_forUp {w b n : Nat} {f : Nat → Memory w → Memory w} {m : Memory w}
    (hm : m.inside b) (hf : ∀ i < n, ∀ m : Memory w, m.inside b → (f i m).inside b) :
    (forUp n f m).inside b :=
  forUp_induction (P := fun _ m => Memory.inside b m) hm fun i m hi h => hf i hi m h

theorem Memory.inside_writeLE {m : Memory 8} {b : Nat} (hm : m.inside b) {addr n : Nat}
    (h : addr + n ≤ b) (v : Nat) : (m.writeLE addr n v).inside b :=
  Memory.inside_splice hm (.inr h) _

theorem Memory.inside_writeTag {m : Memory 8} {b : Nat} (hm : m.inside b) {o : Nat}
    (h : o + 4 ≤ b) (t : Tag) : (m.writeTag o t).inside b :=
  Memory.inside_splice hm (.inr h) _

end Sys2Proof

namespace Sys2Proof.Machine

theorem Bank.inside_setPart {b : Bank} {n k : Nat} (hb : b.inside n) (hk : k < n) (im : Bool)
    (v : F64) : (Bank.setPart b k im v).inside n := by
  obtain ⟨hre, him⟩ := hb
  cases im with
  | false => exact ⟨Memory.inside_set hre hk v, him⟩
  | true => exact ⟨hre, Memory.inside_set him hk v⟩

/-- The header takes the first 44 bytes. -/
theorem inside_writeHeader {bm : Memory 8} {b : Nat} (hbm : bm.inside b) (hb : 44 ≤ b)
    (tagv n sr brate balign bps dsz : Nat) :
    (writeHeader bm tagv n sr brate balign bps dsz).inside b := by
  have field {addr k : Nat} (v : Nat) (h : addr + k ≤ 44) {m : Memory 8} (hm : m.inside b) :
      (m.writeLE addr k v).inside b := Memory.inside_writeLE hm (h.trans hb) v
  have tag {o : Nat} (t : Tag) (h : o + 4 ≤ 44) {m : Memory 8} (hm : m.inside b) :
      (m.writeTag o t).inside b := Memory.inside_writeTag hm (h.trans hb) t
  exact field dsz (by omega) <| tag tagData (by omega) <| field bps (by omega) <|
    field balign (by omega) <| field brate (by omega) <| field sr (by omega) <|
    field n (by omega) <| field tagv (by omega) <| field 16 (by omega) <|
    tag tagFmt (by omega) <| tag tagWAVE (by omega) <| field (36 + dsz) (by omega) <|
    tag tagRIFF (by omega) hbm

/-! ## Where the commands store -/

section Extent

variable {s : State}

/-- A frame whose length passes the check of 41_transform.md R152 fits the banks. -/
theorem State.len_le_nmax (h : s.lenFits) : s.len ≤ s.nmax := Nat.pow_le_pow_right two_pos h

/-- The frame size a `PVCFG` accepts fits the window memory. -/
theorem State.fsize_le_nmax (hp : isPow2 s.regs.fsize.toNat = true)
    (hf : s.regs.fsize.toNat.log2 ≤ s.sizes.log2nMax) : s.regs.fsize.toNat ≤ s.nmax := by
  obtain ⟨l, hl, hfits⟩ := isPow2_and_log2_le_iff.1 ⟨hp, hf⟩
  exact hl.trans_le (Nat.pow_le_pow_right two_pos hfits)

/-- `OLA` stops at the end of the output region (42_vocoder.md R166). -/
theorem State.olaIndex_add_olaCount_le (hr : s.insideRM s.regs.obase s.regs.olen) (i : Nat) :
    s.olaCount i = 0 ∨ s.olaIndex i 0 + s.olaCount i ≤ s.sizes.rmWords := by
  simp only [State.olaIndex, State.olaCount]
  omega

/-- The samples of the last channel end last, and they end inside RM (43_codec.md R186, R192). -/
theorem State.sampleIndex_lt (hf : s.channelsFit) {c t : Nat} (hc : c < s.regs.nch.toNat)
    (ht : t < s.regs.nsamp.toNat) : s.sampleIndex c t < s.sizes.rmWords := by
  obtain ⟨-, hend⟩ := hf
  have hstride := Nat.mul_le_mul_right s.regs.chstride.toNat (show c ≤ s.regs.nch.toNat - 1 by omega)
  rw [State.sampleIndex]
  omega

/-- The bytes of a sample end inside the data. -/
theorem State.sampleOffset_add_le {c t : Nat} (by' : Nat) (hc : c < s.regs.nch.toNat)
    (ht : t < s.regs.nsamp.toNat) :
    s.sampleOffset by' c t + by' ≤ s.regs.dataoff.toNat + s.payload by' := by
  have hsample : t * s.regs.nch.toNat + c + 1 ≤ s.regs.nsamp.toNat * s.regs.nch.toNat :=
    calc t * s.regs.nch.toNat + c + 1 ≤ (t + 1) * s.regs.nch.toNat := by rw [Nat.succ_mul]; omega
      _ ≤ s.regs.nsamp.toNat * s.regs.nch.toNat := Nat.mul_le_mul_right _ ht
  have hbytes := Nat.mul_le_mul_right by' hsample
  rw [Nat.succ_mul] at hbytes
  rw [State.sampleOffset, State.payload]
  omega

end Extent

namespace State.Bounded

variable {s : State}

theorem inside_resampled (h : s.Bounded) (hd : s.insideRM s.regs.rdbase s.regs.rdlen) :
    (s.resampled s.regs.rdlen.toNat).inside s.sizes.rmWords :=
  Memory.inside_forUp h.rm fun _ _ _ hm => Memory.inside_set hm (by omega) _

theorem inside_decodeSamples (h : s.Bounded) (hf : s.channelsFit) (by' : Nat) :
    (s.decodeSamples by').inside s.sizes.rmWords :=
  Memory.inside_forUp h.rm fun _ ht _ hm => Memory.inside_forUp hm fun _ hc _ hm =>
    Memory.inside_set hm (State.sampleIndex_lt hf hc ht) _

theorem inside_encodeSamples (h : s.Bounded) {by' : Nat}
    (hb : s.regs.dataoff.toNat + s.payload by' ≤ s.sizes.bmBytes) :
    (s.encodeSamples by').inside s.sizes.bmBytes :=
  Memory.inside_forUp h.bm fun _ ht _ hm => Memory.inside_forUp hm fun _ hc _ hm =>
    Memory.inside_writeLE hm ((State.sampleOffset_add_le by' hc ht).trans hb) _

/-! ## Bounds under the operations on states -/

theorem complete (h : s.Bounded) : s.complete.Bounded := { h with }

theorem faultEntry (h : s.Bounded) (e : ErrCode) : (s.faultEntry e).Bounded := { h with }

theorem blockReset (h : s.Bounded) : s.blockReset.Bounded := { h with }

theorem passTurn (h : s.Bounded) : s.passTurn.Bounded := { h with }

theorem framePass (h : s.Bounded) (hfit : s.lenFits) (f : Nat → Cplx) :
    (s.framePass s.len f).Bounded :=
  { h with
    x0 := by
      rw [State.framePass_x0]
      split
      · exact Bank.inside_fill h.x0 (State.len_le_nmax hfit) f
      · exact h.x0
    x1 := by
      rw [State.framePass_x1]
      split
      · exact h.x1
      · exact Bank.inside_fill h.x1 (State.len_le_nmax hfit) f }

/-- No stage changes LOG2N, so the check before the first pass holds for all of them. -/
theorem stages (h : s.Bounded) (hfit : s.lenFits) (inv : Bool) (n : Nat) :
    (s.stages inv n).Bounded := by
  induction n with
  | zero => exact h
  | succ n ih => exact ih.framePass (State.lenFits_stages hfit inv n) _

/-- The writes of a command lie inside the memories. -/
theorem effect {u : State} {i : Instr} (h : s.Bounded) (hcfg : s.ConfigurationSound)
    (he : Effect s i u) : u.Bounded := by
  cases he with
  | bitrev hfit => exact h.framePass hfit _
  | stage hfit => exact h.framePass hfit _
  | xscale hfit => exact h.framePass hfit _
  | fft hfit =>
    have hbitrev : s.bitrevPass.Bounded := h.framePass hfit _
    exact hbitrev.stages hfit false s.len2
  | ifft hfit =>
    have hbitrev : s.bitrevPass.Bounded := h.framePass hfit _
    have hlen : (s.bitrevPass.stages true s.len2).lenFits :=
      State.lenFits_stages (s := s.bitrevPass) hfit true s.len2
    exact (hbitrev.stages hfit true s.len2).framePass hlen _
  | pvcfg _ hp _ hf =>
    exact { h with wm := Memory.inside_splice h.wm (.inr (by
      rw [Nat.zero_add]; exact State.fsize_le_nmax hp hf)) _ }
  | phrst =>
    exact { h with
      pv := Memory.inside_splice h.pv (.inr (Nat.zero_add _).le) _
      cu := Memory.inside_splice h.cu (.inr (Nat.zero_add _).le) _ }
  | framew hc => exact h.framePass (hcfg hc).fits _
  | phase hc =>
    have hlen : 0 + s.len ≤ s.nmax := (Nat.zero_add _).trans_le (State.len_le_nmax (hcfg hc).fits)
    exact { h.framePass (hcfg hc).fits s.binOutput with
      pv := Memory.inside_splice h.pv (.inr hlen) _
      cu := Memory.inside_splice h.cu (.inr hlen) _ }
  | ola _ hr =>
    exact { h with rm := Memory.inside_splice h.rm (State.olaIndex_add_olaCount_le hr _) _ }
  | resamp _ hd => exact { h with rm := h.inside_resampled hd }
  | pcmdec _ hf => exact { h with rm := h.inside_decodeSamples hf _ }
  | wavhdrw _ hb => exact { h with bm := inside_writeHeader h.bm hb _ _ _ _ _ _ _ }
  | pcmenc _ _ hb => exact { h with bm := h.inside_encodeSamples hb }
  -- the commands that write registers only
  | nop | cmul | bfly | npow2 | wavhdr => exact { h with }

/-- A command keeps the bounds, whether it completes or faults. -/
theorem exec_next {t : State} {i : Instr} (h : s.Bounded) (hcfg : s.ConfigurationSound)
    (he : exec i s = .next t) : t.Bounded := by
  rcases exec_cases he with ⟨e, rfl⟩ | ⟨u, hu, rfl⟩
  · exact h.faultEntry e
  · exact (h.effect hcfg hu).complete

theorem writeReg {t : State} {d : BitVec 64} {r : RegName} (h : s.Bounded)
    (hw : s.writeReg d r = some t) : t.Bounded := by
  rcases State.writeReg_cases hw with ⟨-, rfl⟩ | ⟨-, rfl⟩ | ⟨-, g, rfl, -⟩ | ⟨g, rfl, -⟩
  · exact { h with }
  · split
    · exact h.blockReset
    · exact h
  · exact { h with }
  · exact { h with }

/-- A write to a location that exists lies inside its memory (20_memory.md R70). -/
theorem writeLocation {t : State} {d : BitVec 64} {l : Location} (h : s.Bounded)
    (hv : l.Valid s.sizes) (hw : s.writeLocation d l = some t) : t.Bounded := by
  rcases State.writeLocation_cases hw with ⟨r, -, hr⟩ | ⟨hi, k, im, rfl, rfl⟩ | ⟨k, rfl, rfl⟩ |
    ⟨k, rfl, rfl⟩ | ⟨a, rfl, rfl⟩ | ⟨b, rfl, rfl⟩
  · exact h.writeReg hr
  · cases hi with
    | false => exact { h with x0 := Bank.inside_setPart h.x0 hv im d }
    | true => exact { h with x1 := Bank.inside_setPart h.x1 hv im d }
  · exact { h with pv := Memory.inside_set h.pv hv d }
  · exact { h with cu := Memory.inside_set h.cu hv d }
  · exact { h with rm := Memory.inside_set h.rm hv d }
  · exact { h with bm := Memory.inside_writeLE h.bm hv.2 d.toNat }

/-- The port performs a write only on a location that exists. -/
theorem hostStep (h : s.Bounded) : s.hostStep.Bounded := by
  obtain ⟨u, hu, script, resp, e⟩ := s.hostStep_cases
  have hb : u.Bounded := by
    rcases hu with rfl | rfl | ⟨haddr, d, l, hacc, hw⟩
    · exact h
    · exact h.blockReset
    · obtain ⟨halign, hl, -⟩ := State.accepts_some hacc
      obtain ⟨hv, -⟩ := locate_some halign hl
      exact h.writeLocation hv hw
  rw [e]
  exact { hb with }

/-- Either agent's step keeps the bounds. -/
theorem step_next {t : State} (h : s.Bounded) (hcfg : s.ConfigurationSound)
    (hs : step s = .next t) : t.Bounded := by
  rcases step_cases hs with rfl | rfl | ⟨w, -, ⟨why, -, rfl⟩ | ⟨i, -, he⟩⟩
  · exact h
  · exact h.passTurn.hostStep
  · exact h.passTurn.faultEntry .illegal
  · exact h.passTurn.exec_next (hcfg.of_same { SameConfiguration.refl s with }) he

end State.Bounded

/-! ## The obligations -/

/-- Settles O14: the checks of every command and the tests of the port keep each store inside its
memory; for `FRAMEW` and `PHASE` the promise of CFGV = 1 stands for the check of the length. -/
theorem stepKeepsBounds : Obligations.StepKeepsBounds := by
  unfold Obligations.StepKeepsBounds
  exact fun _ _ h hcfg hs => h.step_next hcfg hs

/-- Settles O31: `NOP` completes in every state, and has no effect to frame. -/
theorem nopCompletes : Obligations.NopCompletes := by
  unfold Obligations.NopCompletes
  exact fun s => ⟨_, exec_nop s, Effect.nop.completed (Untouched.refl s noPlace), rfl, rfl⟩

end Sys2Proof.Machine
end

section
/-!
PROOFS. The units do not disturb each other (45_sequences.md R230). What each side owns is a relation
between two states; the effect of every command of the other side keeps it, and so do the two ends of
a command, completion and fault entry.
-/

namespace Sys2Proof.Machine

/-! ## What the transform engine and the vocoder own -/

/-- The frame, the window and the phase state are the same in both states, and so are the flags that
speak of them. -/
structure SameFrameState (s t : State) : Prop where
  /-- XSEL -/
  xsel : t.xsel = s.xsel
  /-- CFGV -/
  cfgv : t.cfgv = s.cfgv
  /-- X0 -/
  x0 : t.x0 = s.x0
  /-- X1 -/
  x1 : t.x1 = s.x1
  /-- WM -/
  wm : t.wm = s.wm
  /-- PV -/
  pv : t.pv = s.pv
  /-- CU -/
  cu : t.cu = s.cu

theorem SameFrameState.refl (s : State) : SameFrameState s s :=
  ⟨rfl, rfl, rfl, rfl, rfl, rfl, rfl⟩

/-- RM, which the units share, and BM are the only memories that may differ. -/
theorem SameFrameState.entry {s t : State} (h : SameFrameState s t) {p : Place}
    (hrm : ∀ a, p ≠ .rm a) (hbm : ∀ b, p ≠ .bm b) : t.entry p = s.entry p := by
  cases p with
  | bank hi k im => simp only [State.entry, h.x0, h.x1]
  | wm n => simp only [State.entry, h.wm]
  | pv k => simp only [State.entry, h.pv]
  | cu k => simp only [State.entry, h.cu]
  | rm a => exact absurd rfl (hrm a)
  | bm b => exact absurd rfl (hbm b)

/-- The codec commands write registers, RM and BM. -/
theorem Effect.sameFrameState {s u : State} {i : Instr} (h : Effect s i u)
    (hi : 0x30 ≤ i.opcode) : SameFrameState s u := by
  have start := SameFrameState.refl s
  cases h with
  | wavhdr | pcmdec | wavhdrw | pcmenc => exact { start with }
  | _ => simp [Instr.opcode] at hi

theorem exec_sameFrameState {s t : State} {i : Instr} (he : exec i s = .next t)
    (hi : 0x30 ≤ i.opcode) : SameFrameState s t := by
  rcases exec_cases he with ⟨e, rfl⟩ | ⟨u, hu, rfl⟩
  · exact { SameFrameState.refl s with }
  · exact { hu.sameFrameState hi with }

/-! ## What the codec owns -/

/-- The byte memory and the descriptor registers are the same in both states. -/
structure SameCodecState (s t : State) : Prop where
  /-- BM -/
  bm : t.bm = s.bm
  /-- AFMT -/
  afmt : t.regs.afmt = s.regs.afmt
  /-- NCH -/
  nch : t.regs.nch = s.regs.nch
  /-- SRATE -/
  srate : t.regs.srate = s.regs.srate
  /-- BPS -/
  bps : t.regs.bps = s.regs.bps
  /-- NSAMP -/
  nsamp : t.regs.nsamp = s.regs.nsamp

theorem SameCodecState.refl (s : State) : SameCodecState s s :=
  ⟨rfl, rfl, rfl, rfl, rfl, rfl⟩

theorem SameCodecState.entry_bm {s t : State} (h : SameCodecState s t) (b : Nat) :
    t.entry (.bm b) = s.entry (.bm b) := by
  simp only [State.entry, h.bm]

theorem SameCodecState.readReg {s t : State} (h : SameCodecState s t) {r : RegName}
    (hr : r = .afmt ∨ r = .nch ∨ r = .srate ∨ r = .bps ∨ r = .nsamp) :
    t.readReg r = s.readReg r := by
  rcases hr with rfl | rfl | rfl | rfl | rfl
  · simp only [State.readReg, h.afmt]
  · simp only [State.readReg, h.nch]
  · simp only [State.readReg, h.srate]
  · simp only [State.readReg, h.bps]
  · simp only [State.readReg, h.nsamp]

/-- No pass writes BM or a register, and no other command of the transform and vocoder units writes
BM or the descriptor. -/
theorem Effect.sameCodecState {s u : State} {i : Instr} (h : Effect s i u)
    (hi : i.opcode < 0x30) : SameCodecState s u := by
  have pass : ∀ t n f, SameCodecState s t → SameCodecState s (State.framePass t n f) :=
    fun _ _ _ ht => { ht with }
  have start := SameCodecState.refl s
  cases i
  case wavhdr | pcmdec | wavhdrw | pcmenc => simp [Instr.opcode] at hi
  case bitrev | stage | xscale | fft | ifft => exact Effect.transform_keep pass (by simp) start h
  all_goals cases h; exact { start with }

theorem exec_sameCodecState {s t : State} {i : Instr} (he : exec i s = .next t)
    (hi : i.opcode < 0x30) : SameCodecState s t := by
  rcases exec_cases he with ⟨e, rfl⟩ | ⟨u, hu, rfl⟩
  · exact { SameCodecState.refl s with }
  · exact { hu.sameCodecState hi with }

/-- Settles O60: each side's commands keep what the other side owns. -/
theorem unitsAreIsolated : Obligations.UnitsAreIsolated := by
  unfold Obligations.UnitsAreIsolated
  intro i s t he
  refine ⟨fun hi => ?codec, fun hi => ?other⟩
  case codec =>
    have hsame := exec_sameFrameState he hi
    exact ⟨hsame.xsel, hsame.cfgv, fun p hrm hbm => hsame.entry hrm hbm⟩
  case other =>
    have hsame := exec_sameCodecState he hi
    exact ⟨hsame.entry_bm, fun r hr => hsame.readReg hr⟩

end Sys2Proof.Machine
end

section
/-!
PROOFS. Faults (60_exceptions.md): a step never ends the run (R240), an illegal word faults at the
ENGINE's step (R241), a fault has no other effect (R246, R251), and its record stays until a reset
(R252).
-/

namespace Sys2Proof.Machine

/-! ## The fault record -/

/-- The fault record of `s` stands in `t`, and an error state with an empty slot stays one. -/
structure SameFaultRecord (s t : State) : Prop where
  /-- ERR -/
  err : t.err = s.err
  /-- ERRCODE -/
  errCode : t.errCode = s.errCode
  /-- ERRINFO -/
  errinfo : t.regs.errinfo = s.regs.errinfo
  /-- no command enters the slot in the error state (10_state.md R31) -/
  idle : s.err = true → s.pending = none → t.pending = none

theorem SameFaultRecord.refl (s : State) : SameFaultRecord s s :=
  ⟨rfl, rfl, rfl, fun _ hp => hp⟩

namespace State.FaultRecord

theorem of_same {s t : State} (h : s.FaultRecord) (hst : SameFaultRecord s t) : t.FaultRecord where
  idle herr := by
    rw [hst.err] at herr
    exact hst.idle herr (h.idle herr)
  code := by rw [hst.err, hst.errCode]; exact h.code
  noCode := by rw [hst.err, hst.errCode]; exact h.noCode
  noWord := by rw [hst.err, hst.errinfo]; exact h.noWord

/-- The fault entry leaves a consistent record whatever stood there before. -/
theorem faultEntry (s : State) (e : ErrCode) : (s.faultEntry e).FaultRecord where
  idle _ := rfl
  code _ := ⟨e, rfl⟩
  noCode := nofun
  noWord := nofun

theorem blockReset (s : State) : s.blockReset.FaultRecord where
  idle _ := rfl
  code := nofun
  noCode _ := rfl
  noWord _ := rfl

end State.FaultRecord

/-! ## What the two agents do to the fault record -/

/-- A command keeps the fault record and empties the slot, or is the fault entry. -/
theorem exec_faultRecord_cases {i : Instr} {s t : State} (he : exec i s = .next t) :
    (SameFaultRecord s t ∧ t.pending = none) ∨ ∃ e, t = s.faultEntry e := by
  rcases exec_cases he with hfault | ⟨u, hu, rfl⟩
  · exact .inr hfault
  · have hkeeps := hu.keeps
    exact .inl ⟨⟨hkeeps.err, hkeeps.errCode, hkeeps.errinfo, fun _ _ => rfl⟩, rfl⟩

/-- An accepted write keeps the fault record, or is a reset; CMD takes no write in the error state. -/
theorem State.writeLocation_faultRecord_cases {s t : State} {haddr : BitVec 32} {d : BitVec 64}
    {l : Location} (hacc : s.accepts haddr true = some l) (hw : s.writeLocation d l = some t) :
    SameFaultRecord s t ∨ t = s.blockReset := by
  have same := SameFaultRecord.refl s
  by_cases hl : ∃ r, l = .reg r
  · obtain ⟨r, rfl⟩ := hl
    rcases State.writeReg_cases hw with ⟨rfl, rfl⟩ | ⟨-, rfl⟩ | ⟨-, g, rfl, hg⟩ | ⟨g, rfl, hg, -⟩
    · obtain ⟨-, -, -, -, hclear⟩ := State.accepts_some hacc
      exact .inl { same with idle := fun herr => by simp [hclear rfl rfl] at herr }
    · split
      · exact .inr rfl
      · exact .inl same
    · exact .inl { same with errinfo := hg }
    · exact .inl { same with errinfo := hg }
  · obtain ⟨x0, x1, pv, cu, rm, bm, rfl⟩ :=
      State.writeLocation_memory (fun r hr => hl ⟨r, hr⟩) hw
    exact .inl { same with }

theorem State.hostStep_faultRecord_cases (s : State) :
    SameFaultRecord s s.hostStep ∨
      ∃ script resp, s.hostStep = { s.blockReset with script := script, resp := resp } := by
  obtain ⟨u, hu, script, resp, e⟩ := s.hostStep_cases
  have hblock : SameFaultRecord s u ∨ u = s.blockReset := by
    rcases hu with rfl | hreset | ⟨haddr, d, l, hacc, hw⟩
    · exact .inl (.refl u)
    · exact .inr hreset
    · exact State.writeLocation_faultRecord_cases hacc hw
  rcases hblock with hsame | rfl
  · exact .inl (e ▸ { hsame with })
  · exact .inr ⟨script, resp, e⟩

/-- A step keeps the fault record, is the fault entry on a pending word, or is a reset. -/
theorem step_faultRecord_cases {s t : State} (hs : step s = .next t) :
    SameFaultRecord s t ∨
    (∃ w e, s.pending = some w ∧ t = s.passTurn.faultEntry e) ∨
    ∃ script resp, t = { s.passTurn.blockReset with script := script, resp := resp } := by
  rcases step_cases hs with rfl | rfl | ⟨w, hp, ⟨why, -, rfl⟩ | ⟨i, -, he⟩⟩
  · exact .inl (.refl t)
  · rcases s.passTurn.hostStep_faultRecord_cases with hsame | hreset
    · exact .inl { hsame with }
    · exact .inr (.inr hreset)
  · exact .inr (.inl ⟨w, .illegal, hp, rfl⟩)
  · rcases exec_faultRecord_cases he with ⟨hsame, -⟩ | ⟨e, rfl⟩
    · exact .inl { hsame with }
    · exact .inr (.inl ⟨w, e, hp, rfl⟩)

/-- The turn taken from the schedule is not part of the block. -/
theorem WasReset.of_passTurn {s t : State} (h : WasReset s.passTurn t) : WasReset s t where
  slot := h.slot
  regs := h.regs
  entries p := (h.entries p).trans (State.entry_congr rfl rfl rfl rfl rfl rfl rfl p)
  sizes := h.sizes

/-! ## An illegal word -/

theorem State.portWrite_cmd {s : State} (hp : s.pending = none) (he : s.err = false)
    (d : BitVec 64) : s.portWrite (BitVec.ofNat 32 (8 * RegName.cmd.number)) d =
      ({ s with pending := some (d.setWidth 32) }, .done) :=
  State.portWrite_reg_done (by rw [s.accepts_cmd, if_neg (by simp [hp, he])]) rfl

theorem engineStep_of_illegal {w : BitVec 32} {why : IllegalWord} (h : decode w = .illegal why)
    (s : State) : engineStep w s = .next (s.faultEntry .illegal) := by
  simp only [engineStep, h]

/-! ## The machine goes on -/

/-- Whichever agent moves, and where neither does, there is a next state. -/
theorem exists_step_next (s : State) : ∃ t, step s = .next t := by
  by_cases hhost : s.script ≠ [] ∧ (s.sched.head? = some .host ∨ s.pending = none)
  · exact ⟨_, step_of_host hhost.1 hhost.2⟩
  cases hp : s.pending with
  | none => exact ⟨s, step_of_idle (by simpa [hp] using hhost) hp⟩
  | some w =>
    have hengine : s.sched.head? ≠ some .host ∨ s.script = [] := by
      by_contra hnot
      obtain ⟨hturn, hscript⟩ := not_or.1 hnot
      exact hhost ⟨hscript, .inl (not_not.1 hturn)⟩
    obtain ⟨t, ht, -⟩ := engineStep_empties w s.passTurn
    exact ⟨t, (step_of_engine hp hengine).trans ht⟩

theorem exec_sizes {i : Instr} {s t : State} (he : exec i s = .next t) : t.sizes = s.sizes := by
  rcases exec_cases he with ⟨e, rfl⟩ | ⟨u, hu, rfl⟩
  · rfl
  · exact hu.keeps.sizes

theorem step_sizes {s t : State} (hs : step s = .next t) : t.sizes = s.sizes := by
  rcases step_cases hs with rfl | rfl | ⟨w, -, ⟨why, -, rfl⟩ | ⟨i, -, he⟩⟩
  · rfl
  · exact s.passTurn.hostStep_sched.2
  · rfl
  · exact (exec_sizes he).trans s.passTurn_sizes

/-! ## The obligations -/

/-- Settles O12: a record that stands stays consistent, and the fault entry and a reset each leave a
consistent one. -/
theorem stepKeepsFaultRecord : Obligations.StepKeepsFaultRecord := by
  unfold Obligations.StepKeepsFaultRecord
  intro s t h hs
  rcases step_faultRecord_cases hs with hsame | ⟨w, e, -, rfl⟩ | ⟨script, resp, rfl⟩
  · exact h.of_same hsame
  · exact .faultEntry s.passTurn e
  · exact { State.FaultRecord.blockReset s.passTurn with }

/-- Settles O6: the port takes the word while the slot is empty and ERR is 0, and the ENGINE's step on
it is the fault entry. -/
theorem stepFaultsOnIllegalWord : Obligations.StepFaultsOnIllegalWord := by
  unfold Obligations.StepFaultsOnIllegalWord
  rintro s w ⟨why, hwhy⟩
  refine ⟨fun hp he d hd => ?accepted, fun hp hmoves => ?fault⟩
  case accepted =>
    obtain ⟨hbusy, herr, -, -⟩ :=
      State.statusWord_flags { s with pending := some (d.setWidth 32) }
    exact ⟨_, State.portWrite_cmd hp he d, congrArg some hd, hbusy, he, herr.trans he⟩
  case fault =>
    have hstep : step s = .next (s.passTurn.faultEntry .illegal) :=
      (step_of_engine hp hmoves).trans (engineStep_of_illegal hwhy s.passTurn)
    exact ⟨_, hstep, rfl, s.passTurn.faulted_faultEntry .illegal⟩

/-- Settles O8: there is a next state, and neither agent changes the sizes. -/
theorem stepAlwaysGoesOn : Obligations.StepAlwaysGoesOn := by
  unfold Obligations.StepAlwaysGoesOn
  intro s
  obtain ⟨t, ht⟩ := exists_step_next s
  exact ⟨t, ht, step_sizes ht⟩

/-- Settles O10: what a command wrote before it faults is not kept, since the fault entry starts from
the state before the command. -/
theorem commandFaultsArePrecise : Obligations.CommandFaultsArePrecise := by
  unfold Obligations.CommandFaultsArePrecise
  intro i s t he
  rcases exec_faultRecord_cases he with ⟨hsame, hslot⟩ | ⟨e, rfl⟩
  · exact ⟨hslot, .inl ⟨hsame.err, hsame.errCode, hsame.errinfo⟩⟩
  · exact ⟨rfl, .inr ⟨e, s.faulted_faultEntry e⟩⟩

/-- Settles O11: with no command pending there is no fault entry, so the record stands or the block is
reset. -/
theorem faultsAreSticky : Obligations.FaultsAreSticky := by
  unfold Obligations.FaultsAreSticky
  intro s t h herr hs
  have hempty := h.idle herr
  rcases step_faultRecord_cases hs with hsame | ⟨w, e, hp, -⟩ | ⟨script, resp, rfl⟩
  · exact .inl ⟨hsame.err.trans herr, hsame.errCode, hsame.errinfo, hsame.idle herr hempty⟩
  · rw [hempty] at hp
    cases hp
  · exact .inr (s.passTurn.wasReset_blockReset.withHost script resp).of_passTurn

end Sys2Proof.Machine
end

section
/-!
PROOFS. The two ways to reset the block (70_reset_and_hazards.md R270): both perform
`State.blockReset`, whatever BUSY and ERR are.
-/

namespace Sys2Proof.Machine

/-- The reset input resets the block and, of the agents' side, only takes its event off the script. -/
theorem State.hostStep_resetInput {s : State} {rest : List HostStep}
    (h : s.script = .resetInput :: rest) :
    s.hostStep = { s.blockReset with script := rest } := by
  simp only [State.hostStep, h]

/-- Settles O23: the write to SRESET is the first part of O24, and the reset input ends in the same
block reset with a shorter script. -/
theorem resetHasItsEffect : Obligations.ResetHasItsEffect := by
  unfold Obligations.ResetHasItsEffect
  refine ⟨fun s d hd => ?sreset, fun s rest hs => ?input⟩
  case sreset =>
    obtain ⟨hset, -, -⟩ := sresetRegister s d
    exact hset hd
  case input =>
    rw [State.hostStep_resetInput hs]
    exact s.wasReset_blockReset.withHost rest s.resp

end Sys2Proof.Machine
end
